-- ==== Sys2Proof/Word.lean ====
section
/-! DEFINITION. The words of the block: storage units, glyph rows, request headers and response words. -/

namespace Sys2Proof

/-- A storage unit of the framebuffer, a payload byte, a controller command byte (20_memory.md R31, R34). -/
abbrev Byte := BitVec 8

/-- A glyph row word (30_encoding.md R60). -/
abbrev GlyphWord := BitVec 16

/-- The 64-bit header of a request (30_encoding.md R57). -/
abbrev Header := BitVec 64

/-- The 32-bit response word (30_encoding.md R58). -/
abbrev ResponseWord := BitVec 32

end Sys2Proof
end

