-- ==== Sys2Proof/Config.lean ====
section
/-! DEFINITION. What is fixed for one instance of the block (geometry, fonts, the open tail of the script) and the
free values the spec leaves to the environment. -/

namespace Sys2Proof

/-- Framebuffer width in pixels, the source's `page_width` too (00_scope.md R2 to R4). -/
def W : Nat := 128

/-- Framebuffer height in pixels (00_scope.md R2, R3). -/
def H : Nat := 64

/-- Number of pages (00_scope.md R5). -/
def NPAGES : Nat := H / 8

/-- Number of storage units (00_scope.md R5). -/
def NUNITS : Nat := W * H / 8

/-- The characters of a glyph table: 0x20 to 0x7E (00_scope.md R7). -/
def NCHARS : Nat := 95

/-- A font with the well-formedness that is checked when the configuration is built (00_scope.md R7, 30_encoding.md
R61): a malformed font cannot be written down (93_implementation_defined.md U11). -/
structure Font where
  width     : Nat
  height    : Nat
  rows      : List GlyphWord
  width_ok  : 1 ≤ width ∧ width ≤ 16
  height_ok : 1 ≤ height ∧ height ≤ 127
  rows_ok   : rows.length = NCHARS * height
deriving DecidableEq, Repr

/-- The ten stages of the script tail, in their order (42_controller.md R104). -/
inductive TailStage where
  | startLine | verticalFlip | horizontalFlip | multiplexRatio | verticalOffset | comPins
  | clockDivider | preCharge | vcomhLevel | displayOn
deriving DecidableEq, Repr

/-- The bytes of one stage of the tail: at least one, since every stage is present (42_controller.md R104). -/
structure StageBytes where
  first : Byte
  rest  : List Byte
deriving DecidableEq, Repr

/-- The bytes of a stage in the order they are sent. -/
def StageBytes.toList (b : StageBytes) : List Byte := b.first :: b.rest

/-- `SCRIPT_TAIL` (42_controller.md R104): one nonempty list of bytes per stage. That the tags are non-decreasing,
that every stage is present and that the last byte is a display-on byte hold by this shape. -/
structure ScriptTail where
  startLine      : StageBytes
  verticalFlip   : StageBytes
  horizontalFlip : StageBytes
  multiplexRatio : StageBytes
  verticalOffset : StageBytes
  comPins        : StageBytes
  clockDivider   : StageBytes
  preCharge      : StageBytes
  vcomhLevel     : StageBytes
  displayOn      : StageBytes
deriving DecidableEq, Repr

/-- The stages of the tail with their bytes, in the order R104 fixes. -/
def ScriptTail.stages (t : ScriptTail) : List (TailStage × StageBytes) :=
  [(.startLine, t.startLine), (.verticalFlip, t.verticalFlip), (.horizontalFlip, t.horizontalFlip),
   (.multiplexRatio, t.multiplexRatio), (.verticalOffset, t.verticalOffset), (.comPins, t.comPins),
   (.clockDivider, t.clockDivider), (.preCharge, t.preCharge), (.vcomhLevel, t.vcomhLevel),
   (.displayOn, t.displayOn)]

/-- The bytes of the tail, each tagged with its stage (42_controller.md R104). -/
def ScriptTail.tagged (t : ScriptTail) : List (TailStage × Byte) :=
  t.stages.flatMap fun p => p.2.toList.map fun b => (p.1, b)

/-- The bytes of the tail in the order they are sent. -/
def ScriptTail.bytes (t : ScriptTail) : List Byte := t.stages.flatMap fun p => p.2.toList

/-- The configuration of one instance: `FONTS` (00_scope.md R7) and `SCRIPT_TAIL` (00_scope.md R8). The bound on the
tail makes every script index fit the 8-bit `stage` field of a response (30_encoding.md R58, R59; DEDUCED, log 7). -/
structure Config where
  fonts     : List Font
  tail      : ScriptTail
  fonts_ok  : 1 ≤ fonts.length ∧ fonts.length ≤ 16
  tail_fits : tail.bytes.length ≤ 246
deriving DecidableEq, Repr

/-- An answer of the transport to one transaction (20_memory.md R39). -/
inductive Reply where
  | ok
  | fail
deriving DecidableEq, Repr, Inhabited

/-- FREE VALUE (log 4): the transport's answer to the n-th answered transaction, where the environment has not already
decided it in State (20_memory.md R40: the answers are an oracle). -/
opaque Config.transportAnswer : Nat → Reply

/-- FREE VALUE (log 6): the words of the glyph table of the font State.reset carries, whose contents the spec leaves
open (93_implementation_defined.md U15). -/
opaque Config.freeGlyphWord : Nat → GlyphWord

/-- FREE VALUE (log 7): the first byte of each stage of the script tail State.reset carries (93 U2). -/
opaque Config.freeStageByte : TailStage → Byte

/-- FREE VALUE (log 7): the further bytes of each stage of the script tail State.reset carries (93 U2). -/
opaque Config.freeStageRest : TailStage → List Byte

/-- Index of row 0 of 'A' in a font of height 7 (20_memory.md R36). -/
def rowZeroOfA : Nat := 231

/-- The one row the source gives: row 0 of 'A' has columns 0,0,1,0,0 set (30_encoding.md R60, example). Its 11 low
bits are never examined and stay free (93 U1). -/
def glyphWordAtReset (i : Nat) : GlyphWord :=
  if i = rowZeroOfA then 0b00100#5 ++ (Config.freeGlyphWord i).extractLsb' 0 11 else Config.freeGlyphWord i

/-- The 5x7 font, the only one the source names (00_scope.md R7), with free words (log 6). -/
def fontAtReset : Font where
  width := 5
  height := 7
  rows := (List.range 665).map glyphWordAtReset
  width_ok := by decide
  height_ok := by decide
  rows_ok := by simp [NCHARS]

/-- At most 24 free bytes for a stage of the tail (log 7). -/
def stageAtReset (t : TailStage) : StageBytes :=
  ⟨Config.freeStageByte t, (Config.freeStageRest t).take 23⟩

/-- The free script tail State.reset carries (log 7). -/
def tailAtReset : ScriptTail where
  startLine := stageAtReset .startLine
  verticalFlip := stageAtReset .verticalFlip
  horizontalFlip := stageAtReset .horizontalFlip
  multiplexRatio := stageAtReset .multiplexRatio
  verticalOffset := stageAtReset .verticalOffset
  comPins := stageAtReset .comPins
  clockDivider := stageAtReset .clockDivider
  preCharge := stageAtReset .preCharge
  vcomhLevel := stageAtReset .vcomhLevel
  displayOn := stageAtReset .displayOn

theorem stageAtReset_length (t : TailStage) : (stageAtReset t).toList.length ≤ 24 := by
  simp only [stageAtReset, StageBytes.toList, List.length_cons, List.length_take]
  omega

theorem tailAtReset_fits : tailAtReset.bytes.length ≤ 246 := by
  have h := stageAtReset_length
  have h1 := h .startLine
  have h2 := h .verticalFlip
  have h3 := h .horizontalFlip
  have h4 := h .multiplexRatio
  have h5 := h .verticalOffset
  have h6 := h .comPins
  have h7 := h .clockDivider
  have h8 := h .preCharge
  have h9 := h .vcomhLevel
  have h10 := h .displayOn
  simp only [ScriptTail.bytes, ScriptTail.stages, List.flatMap_cons, List.flatMap_nil, List.length_append,
    List.length_nil, tailAtReset]
  omega

/-- The configuration State.reset carries: one 5x7 font and a free tail (DESIGN CHOICE, log 6 and 7). -/
def configAtReset : Config where
  fonts := [fontAtReset]
  tail := tailAtReset
  fonts_ok := by simp
  tail_fits := tailAtReset_fits

end Sys2Proof
end

