-- ==== Sys2Proof/Syntax.lean ====
section
/-! DEFINITION. The abstract syntax: one constructor per row of spec/opcode_table.json. -/

namespace Sys2Proof

/-- A colour (00_scope.md R6). -/
inductive Color where
  | black
  | white
deriving DecidableEq, Repr

/-- The instructions: the ten requests (30_encoding.md R56) and the eight controller command bytes of the opcode table
(30_encoding.md R67). Operands have the widths of 30_encoding.md R57; a payload is a list of bytes whose length is the
field `len` (R63). -/
inductive Instr where
  /-- `SETPX x, y, color` (40_framebuffer.md R80). -/
  | setpx (x y : Byte) (color : Color)
  /-- `FILL color` (40_framebuffer.md R81). -/
  | fill (color : Color)
  /-- `SETCUR x, y` (41_rasterizer.md R87). -/
  | setcur (x y : Byte)
  /-- `WRCHAR ch, fsel, fg, bg, pad` (41_rasterizer.md R88). -/
  | wrchar (ch : Byte) (fsel : BitVec 4) (fg bg : Color) (pad : Bool)
  /-- `WRSTR "text", fsel, fg, bg, pad` (41_rasterizer.md R96). -/
  | wrstr (text : List Byte) (fsel : BitVec 4) (fg bg : Color) (pad : Bool)
  /-- `WRITE "text", fsel, x, y, bg, fg, pad, commit` (43_public_surface.md R113). -/
  | write (text : List Byte) (fsel : BitVec 4) (x y : Byte) (bg fg : Color) (pad commit : Bool)
  /-- `INIT` (42_controller.md R102). -/
  | init
  /-- `REFRESH` (42_controller.md R108). -/
  | refresh
  /-- `GETW` (43_public_surface.md R115). -/
  | getw
  /-- `GETH` (43_public_surface.md R116). -/
  | geth
  /-- Controller command byte `0xAE`, sleep mode (42_controller.md R103). -/
  | cbSleep
  /-- Controller command byte `0xA4`, RAM-follow mode (42_controller.md R103). -/
  | cbRamFollow
  /-- Controller command byte `0xA6`, inverse-off (42_controller.md R103). -/
  | cbInverseOff
  /-- Controller command byte `0x81`, contrast command (42_controller.md R103). -/
  | cbContrast
  /-- Controller command byte `0x20`, memory-mode command (42_controller.md R103). -/
  | cbMemoryMode
  /-- Controller command byte `0xB0 + n`, start-page-n (42_controller.md R106). -/
  | cbPageSelect (n : BitVec 3)
  /-- Controller command byte `0x00`, low-column-0 (42_controller.md R107). -/
  | cbColLow0
  /-- Controller command byte `0x10`, high-column-0 (42_controller.md R107). -/
  | cbColHigh0
deriving DecidableEq, Repr

/-- The instructions that are requests at the host's port (30_encoding.md R56). -/
def Instr.isRequest : Instr → Bool
  | .setpx _ _ _ => true
  | .fill _ => true
  | .setcur _ _ => true
  | .wrchar _ _ _ _ _ => true
  | .wrstr _ _ _ _ _ => true
  | .write _ _ _ _ _ _ _ _ => true
  | .init => true
  | .refresh => true
  | .getw => true
  | .geth => true
  | .cbSleep => false
  | .cbRamFollow => false
  | .cbInverseOff => false
  | .cbContrast => false
  | .cbMemoryMode => false
  | .cbPageSelect _ => false
  | .cbColLow0 => false
  | .cbColHigh0 => false

end Sys2Proof
end

