-- ==== Sys2Proof/Machine/State.lean ====
section
/-! DEFINITION. The state of the block (10_state.md R10), its channels, the reasons a step can stop, and reset. -/

namespace Sys2Proof.Machine

/-- The framebuffer as data: the cells that do not hold what an unlisted unit reads as (`0x00`), by rising unit
index. -/
abbrev Memory := List Host.Cell

/-- The controller lifecycle `LC`, a ghost (10_state.md R17). -/
inductive Lifecycle where
  | uninitialized
  | configured
  | synchronized
deriving DecidableEq, Repr

/-- One event of the transport trace `TX` (20_memory.md R39). -/
inductive TxEvent where
  /-- One command byte and its answer. -/
  | cmd (b : Byte) (a : Reply)
  /-- A burst of data bytes, first sent first, and its answer. -/
  | data (bs : List Byte) (a : Reply)
  /-- The reset line is asserted. -/
  | rstAssert
  /-- The reset line is released. -/
  | rstRelease
deriving DecidableEq, Repr

/-- What the sequencer is doing between steps. -/
inductive Phase where
  /-- No operation in progress (10_state.md R29). -/
  | idle
  /-- Inside a transport transaction that is never answered (70_reset_and_hazards.md R157, log 5). -/
  | awaitingTransport
deriving DecidableEq, Repr

/-- Why the machine has no successor. All three are stuck states the spec describes, so each is safe. -/
inductive Fault where
  /-- Raised by `step` when the port holds no whole header: the block is idle and waits for a request (10_state.md R29).
  Safe: the model stops where the hardware waits. -/
  | awaitingRequest
  /-- Raised by `step` when the port holds a header and not yet all of its payload (30_encoding.md R66). Safe: the
  hardware is stuck until the bytes arrive. -/
  | awaitingPayload
  /-- Raised by `step` when a transport transaction was never answered (70_reset_and_hazards.md R157). Safe: the hardware
  is stuck for ever. -/
  | transportSilent
deriving DecidableEq, Repr

/-- Why an instruction has no meaning. -/
inductive Refusal where
  /-- Raised by an arm of `exec` that has no meaning yet. Safe: nothing is claimed of the instruction. -/
  | notModelled (mnemonic : String)
  /-- Raised by `step` on a staged controller command byte that is no row of the opcode table (log 9). Safe: the block
  itself never stages one. -/
  | unlistedCommandByte
deriving DecidableEq, Repr

/-- The state. `fb` to `tx` are the state of 10_state.md R10; `cfg` is the configuration, which no step changes (R30);
the rest are the channels of 92_eei_decisions.md D29. -/
structure State where
  /-- `FONTS` and `SCRIPT_TAIL` (log 6). -/
  cfg       : Config
  /-- `FB`, the framebuffer (20_memory.md R31). -/
  fb        : Memory
  /-- `CUR_X` (10_state.md R12). -/
  curX      : Byte
  /-- `CUR_Y` (10_state.md R12). -/
  curY      : Byte
  /-- `FONT_SEL` (10_state.md R13). -/
  fontSel   : BitVec 4
  /-- `PAD` (10_state.md R13). -/
  padLatch  : Bool
  /-- `LC`, ghost (10_state.md R17). -/
  lc        : Lifecycle
  /-- `TX`, ghost: the transport events so far, oldest first (20_memory.md R39). -/
  tx        : List TxEvent
  /-- Request bytes sent by the host and not yet taken (log 1, 2). -/
  port      : List Byte
  /-- Controller command bytes standing alone at the command engine (log 9). -/
  staged    : List Byte
  /-- Response words delivered so far, oldest first (log 3). -/
  responses : List ResponseWord
  /-- Answers of the transport the environment has decided, next first; `none` is a transaction never answered
  (log 4, 5). -/
  answers   : List (Option Reply)
  /-- How many transactions have been answered: the index of the next free answer (log 4). -/
  answered  : Nat
  /-- Idle, or stuck inside a transaction (log 5). -/
  phase     : Phase
deriving DecidableEq, Repr

/-- The machine right after reset (10_state.md R26 to R30, 70_reset_and_hazards.md R146; `fontSel` and `padLatch` are
log 8, the channels log 1 to 5 and 9, the configuration log 6 and 7). -/
def State.reset : State where
  cfg := configAtReset
  fb := []
  curX := 0#8
  curY := 0#8
  fontSel := 0#4
  padLatch := false
  lc := .uninitialized
  tx := []
  port := []
  staged := []
  responses := []
  answers := []
  answered := 0
  phase := .idle

end Sys2Proof.Machine
end

