-- ==== Sys2Proof/Machine/Flags.lean ====
section
/-! DEFINITION. The block has no flags (10_state.md R21). What stands in their place is the outcome of an operation and
its response word (30_encoding.md R58, R59, 60_exceptions.md R120, R121). -/

namespace Sys2Proof.Machine

/-- The error kinds (60_exceptions.md R120). -/
inductive ErrKind where
  | outOfBounds
  | layoutFull
  | glyphLookupFailed
  /-- The cause of a rejected transaction; never produced at the host port (60_exceptions.md R122). -/
  | transportFailure
  | protocolStageFailure
  | illegalRequest
deriving DecidableEq, Repr

/-- The information an error carries (30_encoding.md R58). -/
structure ErrInfo where
  phase : BitVec 4
  idx   : Byte
  stage : Byte
deriving DecidableEq, Repr

/-- No information: all fields 0. -/
def noInfo : ErrInfo := ⟨0#4, 0#8, 0#8⟩

/-- Information that names a stage (30_encoding.md R59). -/
def stageInfo (stage : Nat) : ErrInfo := ⟨0#4, 0#8, BitVec.ofNat 8 stage⟩

/-- The abstract outcome of an operation (30_encoding.md R58). -/
inductive Result where
  | ok (val : Byte)
  | err (kind : ErrKind) (info : ErrInfo)
deriving DecidableEq, Repr

/-- The numeric code of a kind (60_exceptions.md R121). -/
def statusCode : ErrKind → BitVec 4
  | .outOfBounds => 1#4
  | .layoutFull => 2#4
  | .glyphLookupFailed => 3#4
  | .transportFailure => 4#4
  | .protocolStageFailure => 5#4
  | .illegalRequest => 0xF#4

/-- A response word from its fields `status`, `phase`, `idx`, `stage`, `val` (30_encoding.md R58). -/
def packResponse (status phase : BitVec 4) (idx stage val : Byte) : ResponseWord :=
  status ++ phase ++ idx ++ stage ++ val

/-- The response word of an outcome (30_encoding.md R58). -/
def encodeResult : Result → ResponseWord
  | .ok v => packResponse 0#4 0#4 0#8 0#8 v
  | .err k i => packResponse (statusCode k) i.phase i.idx i.stage 0#8

end Sys2Proof.Machine
end

