-- ==== Sys2Proof/Machine/Operands.lean ====
section
/-! DEFINITION. The operand forms: coordinates and the address decoder, colours, fonts and glyph rows, script bytes. -/

namespace Sys2Proof.Machine

/-! ### Coordinates -/

/-- What the address decoder returns (40_framebuffer.md R76). -/
structure Place where
  page : Nat
  unit : Nat
  bit  : Nat
deriving DecidableEq, Repr

/-- `Decode(x, y)`, the only place the formula stands (40_framebuffer.md R76, R77, R83). -/
def decodeXY (x y : Nat) : Place := ⟨y / 8, x + (y / 8) * W, y % 8⟩

/-- The range check of a coordinate pair, each axis on its own (40_framebuffer.md R78, R80). -/
def inFrame (x y : Nat) : Bool := x < W && y < H

/-- The unit index of a page and a column (20_memory.md R31). -/
def unitOf (page column : Nat) : Nat := page * W + column

/-! ### Colours -/

/-- The unit `FILL` writes (40_framebuffer.md R81). -/
def fillByte : Color → Byte
  | .black => 0x00#8
  | .white => 0xFF#8

/-- A unit with one pixel set to a colour: White sets the bit, Black clears it (40_framebuffer.md R78). -/
def paintBit (old : Byte) (bit : Nat) : Color → Byte
  | .white => old ||| (1#8 <<< bit)
  | .black => old &&& ~~~(1#8 <<< bit)

/-- The colour of one bit of a unit (40_framebuffer.md R79). -/
def colorOfUnit (unit : Byte) (bit : Nat) : Color := if unit.getLsbD bit then .white else .black

/-! ### Fonts and glyphs -/

/-- The font an operand selects, if it exists (00_scope.md R7, 30_encoding.md R65). -/
def fontOf (c : Config) (fsel : BitVec 4) : Option Font := c.fonts[fsel.toNat]?

/-- The glyph table index of row `r` of a character, or none when the character is outside the table: below 0x20 it is
rejected and not wrapped, above 0x7E the index passes the bound (41_rasterizer.md R92, 00_scope.md R9). -/
def glyphIndex (f : Font) (ch : Byte) (r : Nat) : Option Nat :=
  if ch.toNat < 0x20 then none
  else if NCHARS * f.height ≤ (ch.toNat - 0x20) * f.height + r then none
  else some ((ch.toNat - 0x20) * f.height + r)

/-- `GlyphRead(f, i)` (20_memory.md R36); the index is checked before, so the default is never read. -/
def glyphRead (f : Font) (i : Nat) : GlyphWord := f.rows.getD i 0#16

/-- Column `c` of a glyph row is bit `15 - c` (30_encoding.md R60); 1 selects the foreground (41_rasterizer.md R93). -/
def glyphColor (word : GlyphWord) (c : Nat) (fg bg : Color) : Color := if word.getLsbD (15 - c) then fg else bg

/-- A pixel to be written. -/
structure Dot where
  x     : Nat
  y     : Nat
  color : Color
deriving DecidableEq, Repr

/-- The pixels of one glyph row from column 0 on, left to right (41_rasterizer.md R93). -/
def rowDots (f : Font) (word : GlyphWord) (x0 y : Nat) (fg bg : Color) : List Dot :=
  (List.range f.width).map fun c => ⟨x0 + c, y, glyphColor word c fg bg⟩

/-- The pixels of the padding column, top to bottom (41_rasterizer.md R91). -/
def columnDots (height x y0 : Nat) (bg : Color) : List Dot :=
  (List.range height).map fun n => ⟨x, y0 + n, bg⟩

/-- The layout check of a glyph write, with the font height on both axes against the page width: the documented quirk
(41_rasterizer.md R90). True when the glyph is refused. -/
def layoutFull (f : Font) (curX curY : Byte) : Bool := W ≤ curX.toNat + f.height || W ≤ curY.toNat + f.height

/-! ### The controller's bytes -/

/-- `SCRIPT[0..9]` (42_controller.md R103). -/
def scriptHead : List Byte := [0xAE#8, 0xA4#8, 0xA6#8, 0x81#8, 0xFF#8, 0x20#8, 0x02#8, 0xB0#8, 0x00#8, 0x10#8]

/-- `SCRIPT` (00_scope.md R8). -/
def script (c : Config) : List Byte := scriptHead ++ c.tail.bytes

/-- The page-select byte of a page (42_controller.md R106). -/
def pageSelectByte (page : Nat) : Byte := 0xB0#8 + BitVec.ofNat 8 page

/-- The two column-select bytes (42_controller.md R107). -/
def colLowByte : Byte := 0x00#8

/-- See `colLowByte`. -/
def colHighByte : Byte := 0x10#8

/-- The stages of a refresh, `4*p + s` (30_encoding.md R59). -/
def refreshStage (page s : Nat) : Nat := 4 * page + s

end Sys2Proof.Machine
end

