-- ==== Sys2Proof/Machine/Ops.lean ====
section
/-! DEFINITION. The named operations over the state: memory, pixels, transport, latches and ghosts, and how an operation
ends. -/

namespace Sys2Proof.Machine

/-! ### Framebuffer memory (20_memory.md R31, R34) -/

/-- What an unlisted unit reads as: the reset contents (10_state.md R26). -/
def Memory.unlisted : Byte := 0x00#8

/-- `MemRead(u, 1)`. -/
def Memory.read (m : Memory) (u : Nat) : Byte :=
  match m with
  | [] => Memory.unlisted
  | c :: rest => if c.1 = u then c.2 else Memory.read rest u

/-- A cell in front of a memory, left out when it holds what an unlisted unit reads as. -/
def Memory.consCell (u : Nat) (v : Byte) (m : Memory) : Memory := if v = Memory.unlisted then m else (u, v) :: m

/-- `MemWrite(u, 1, v)`, keeping the canonical form. -/
def Memory.write (m : Memory) (u : Nat) (v : Byte) : Memory :=
  match m with
  | [] => Memory.consCell u v []
  | c :: rest =>
    if u < c.1 then Memory.consCell u v (c :: rest)
    else if u = c.1 then Memory.consCell u v rest
    else c :: Memory.write rest u v

/-- Every unit set to one value: the loop of 40_framebuffer.md R81, in any order (R49), as its result. -/
def Memory.fill (v : Byte) : Memory :=
  if v = Memory.unlisted then [] else (List.range NUNITS).map fun u => (u, v)

/-- The canonical form: unit indices strictly rising, and no cell equal to what an unlisted unit reads as. -/
abbrev Memory.wf (m : Memory) : Prop :=
  m.Pairwise (fun a b => a.1 < b.1) ∧ ∀ c ∈ m, c.2 ≠ Memory.unlisted

/-- No unit index at or above `NUNITS` is held (20_memory.md R35). -/
abbrev Memory.inBounds (m : Memory) : Prop := ∀ c ∈ m, c.1 < NUNITS

/-! ### The pixel path -/

/-- `PixelWrite(x, y, color)` on the framebuffer; none is `raise OutOfBounds` (40_framebuffer.md R78). -/
def pixelWrite (x y : Nat) (color : Color) (m : Memory) : Option Memory :=
  if inFrame x y then
    some (Memory.write m (decodeXY x y).unit
      (paintBit (Memory.read m (decodeXY x y).unit) (decodeXY x y).bit color))
  else none

/-! ### Updates of the state, one field or channel each -/

/-- Store a framebuffer. -/
def State.setFb (s : State) (m : Memory) : State := { s with fb := m }
/-- `CUR_X <- v`. -/
def State.setCurX (s : State) (v : Byte) : State := { s with curX := v }
/-- `CUR_Y <- v`. -/
def State.setCurY (s : State) (v : Byte) : State := { s with curY := v }
/-- `FONT_SEL <- fsel; PAD <- pad` (10_state.md R13). -/
def State.latch (s : State) (fsel : BitVec 4) (pad : Bool) : State := { s with fontSel := fsel, padLatch := pad }
/-- `LC <- l`. -/
def State.setLc (s : State) (l : Lifecycle) : State := { s with lc := l }
/-- Append events to `TX`. -/
def State.pushTx (s : State) (es : List TxEvent) : State := { s with tx := s.tx ++ es }
/-- Deliver a response word. -/
def State.pushResponse (s : State) (r : ResponseWord) : State := { s with responses := s.responses ++ [r] }
/-- The next answer has been used. -/
def State.takeAnswer (s : State) : State := { s with answers := s.answers.tail, answered := s.answered + 1 }
/-- Idle, or stuck inside a transaction. -/
def State.setPhase (s : State) (p : Phase) : State := { s with phase := p }
/-- The bytes left at the port. -/
def State.setPort (s : State) (bytes : List Byte) : State := { s with port := bytes }
/-- The command bytes left at the engine. -/
def State.setStaged (s : State) (bytes : List Byte) : State := { s with staged := bytes }

/-- The cursor at a coordinate pair. -/
def State.setCursor (s : State) (x y : Byte) : State := (s.setCurX x).setCurY y

/-- `Dirty()`: `if LC = Synchronized: LC <- Configured` (10_state.md R18, 41_rasterizer.md R86). -/
def State.dirty (s : State) : State := if s.lc = .synchronized then s.setLc .configured else s

/-- `if LC != Uninitialized: LC <- l`, the two ghost updates of a refresh (42_controller.md R108). -/
def State.lcAfterRefresh (s : State) (l : Lifecycle) : State := if s.lc = .uninitialized then s else s.setLc l

/-- Reset of the block, an event from outside (70_reset_and_hazards.md R146, log 13): the state of R26 to R29, the
configuration kept (10_state.md R30), and what lies outside the block (the answers of the transport, the responses already
delivered) as it was. Nothing is sent to the controller (R147). DESIGN CHOICE (log 13): a block stuck in a transaction that
is never answered leaves it, and as `answers` stays as it was the silent transport stays silent: the `none` of that
transaction is still the next answer, so the first transaction after the reset is not answered either. -/
def State.blockReset (s : State) : State :=
  { State.reset with cfg := s.cfg, responses := s.responses, answers := s.answers, answered := s.answered }

/-! ### How an operation ends (60_exceptions.md R123) -/

/-- An operation that does not fall through: it raised an error, or a transaction is never answered. -/
inductive Halt where
  | raised (kind : ErrKind) (info : ErrInfo)
  | hung
deriving DecidableEq, Repr

/-- `a; b`: what follows runs only when what came before fell through (60_exceptions.md R123). -/
def andThen (a : State × Option Halt) (b : State → State × Option Halt) : State × Option Halt :=
  match a with
  | (s, none) => b s
  | (s, some h) => (s, some h)

/-- A sub-operation's error carries the index of the failing character (41_rasterizer.md R96). -/
def Halt.atIndex (k : Nat) : Halt → Halt
  | .raised kind info => .raised kind { info with idx := BitVec.ofNat 8 k }
  | .hung => .hung

/-- A sub-operation's error carries the part of `WRITE` that failed (43_public_surface.md R113). -/
def Halt.inPhase (p : BitVec 4) : Halt → Halt
  | .raised kind info => .raised kind { info with phase := p }
  | .hung => .hung

/-- Taking an exception: the operation ends, what it has done stays, and the response `Err(kind, info)` is sent
(60_exceptions.md R123). No state is saved, no mode changes and control goes nowhere. There is no return from it (R128). -/
def raiseErr (kind : ErrKind) (info : ErrInfo) (s : State) : State := s.pushResponse (encodeResult (.err kind info))

/-- `return Ok(v)`. -/
def returnOk (v : Byte) (s : State) : State := s.pushResponse (encodeResult (.ok v))

/-- The end of a request: `Ok(v)` when it fell through, its error when it raised one, and no response when it is stuck
(70_reset_and_hazards.md R157). -/
def finish (v : Byte) (a : State × Option Halt) : State :=
  match a with
  | (s, none) => returnOk v s
  | (s, some (.raised kind info)) => raiseErr kind info s
  | (s, some .hung) => s

/-- The answer to an illegal request: `IllegalRequest`, nothing else changes (30_encoding.md R65). -/
def answerIllegal (s : State) : State := raiseErr .illegalRequest noInfo s

/-- An operation that uses a font: illegal when the font does not exist (30_encoding.md R65, log 11). -/
def withFont (fsel : BitVec 4) (s : State) (body : Font → State) : State :=
  match fontOf s.cfg fsel with
  | some f => body f
  | none => answerIllegal s

/-! ### Painting -/

/-- Pixel writes in order, each followed by `Dirty()`, ended by the first that is out of range (41_rasterizer.md R91,
R93). -/
def paint (dots : List Dot) (s : State) : State × Option Halt :=
  match dots with
  | [] => (s, none)
  | d :: rest =>
    match pixelWrite d.x d.y d.color s.fb with
    | some m => paint rest (s.setFb m).dirty
    | none => (s, some (.raised .outOfBounds noInfo))

/-- The framebuffer filled with a colour, and `Dirty()` (40_framebuffer.md R81). -/
def fillFrame (color : Color) (s : State) : State := (s.setFb (Memory.fill (fillByte color))).dirty

/-! ### The transport (20_memory.md R39 to R42) -/

/-- The environment's k-th answer from now: decided in State, or free (20_memory.md R40, log 4). -/
def State.answerAt (s : State) (k : Nat) : Option Reply :=
  match s.answers[k]? with
  | some a => a
  | none => some (Config.transportAnswer (s.answered + k))

/-- One transaction: the event is recorded with its answer; with no answer the block is stuck inside it (log 5). -/
def transact (event : Reply → TxEvent) (s : State) : State × Option Reply :=
  match s.answerAt 0 with
  | some a => (s.takeAnswer.pushTx [event a], some a)
  | none => (s.setPhase .awaitingTransport, none)

/-- `TpCmd(b)`. -/
def tpCmd (b : Byte) (s : State) : State × Option Reply := transact (TxEvent.cmd b) s

/-- `TpData(bs)`. -/
def tpData (bs : List Byte) (s : State) : State × Option Reply := transact (TxEvent.data bs) s

/-- `TpResetPulse()` (42_controller.md R101). -/
def tpResetPulse (s : State) : State := s.pushTx [.rstAssert, .rstRelease]

/-- A transaction a rejection of which ends the operation: the rejection is reported as `ProtocolStageFailure` with its
stage (60_exceptions.md R122). -/
def orFailStage (stage : Nat) (a : State × Option Reply) : State × Option Halt :=
  match a with
  | (s, some .ok) => (s, none)
  | (s, some .fail) => (s, some (.raised .protocolStageFailure (stageInfo stage)))
  | (s, none) => (s, some .hung)

/-- A controller command byte sent on its own: the transaction, and nothing else (30_encoding.md R67, log 9). -/
def sendCommand (b : Byte) (s : State) : State := (tpCmd b s).1

end Sys2Proof.Machine
end

