-- ==== Sys2Proof/Machine/Controller.lean ====
section
/-! DEFINITION. The display controller command engine: INIT, REFRESH and the controller command bytes
(42_controller.md). -/

namespace Sys2Proof.Machine

/-- The command loop of `INIT` from script index `i` on (42_controller.md R102). -/
def sendScript (i : Nat) (bytes : List Byte) (s : State) : State × Option Halt :=
  match bytes with
  | [] => (s, none)
  | b :: rest => andThen (orFailStage i (tpCmd b s)) fun s => sendScript (i + 1) rest s

/-- The ghost update at the end of `INIT` (10_state.md R18, 42_controller.md R102). -/
def lcAfterInit (a : State × Option Halt) : State × Option Halt :=
  match a with
  | (s, none) => (s.setLc .configured, none)
  | (s, some (.raised kind info)) => (s.setLc .uninitialized, some (.raised kind info))
  | (s, some .hung) => (s, some .hung)

/-- The data bytes of a page, in increasing column order (42_controller.md R108). -/
def pageBytes (m : Memory) (page : Nat) : List Byte :=
  (List.range W).map fun c => Memory.read m (unitOf page c)

/-- One page of a refresh: page-select, the two column-select bytes, the data (42_controller.md R106 to R109). -/
def refreshPage (page : Nat) (s : State) : State × Option Halt :=
  andThen (orFailStage (refreshStage page 0) (tpCmd (pageSelectByte page) s)) fun s =>
    andThen (orFailStage (refreshStage page 1) (tpCmd colLowByte s)) fun s =>
      andThen (orFailStage (refreshStage page 1) (tpCmd colHighByte s)) fun s =>
        orFailStage (refreshStage page 2) (tpData (pageBytes s.fb page) s)

/-- The pages listed, in order (42_controller.md R109). -/
def refreshPages (pages : List Nat) (s : State) : State × Option Halt :=
  match pages with
  | [] => (s, none)
  | p :: rest => andThen (refreshPage p s) fun s => refreshPages rest s

/-- The ghost update at the end of a refresh (10_state.md R18, 42_controller.md R108). -/
def lcAtRefreshEnd (a : State × Option Halt) : State × Option Halt :=
  match a with
  | (s, none) => (s.lcAfterRefresh .synchronized, none)
  | (s, some (.raised kind info)) => (s.lcAfterRefresh .configured, some (.raised kind info))
  | (s, some .hung) => (s, some .hung)

/-- `REFRESH` as a sub-operation (42_controller.md R108). -/
def refreshAll (s : State) : State × Option Halt := lcAtRefreshEnd (refreshPages (List.range NPAGES) s)

/-- `INIT` (42_controller.md R102). -/
def execInit (s : State) : Host.Outcome State Fault Refusal :=
  .next (finish 0#8 (lcAfterInit (sendScript 0 (script s.cfg) (tpResetPulse s))))

/-- `REFRESH` (42_controller.md R108). -/
def execRefresh (s : State) : Host.Outcome State Fault Refusal := .next (finish 0#8 (refreshAll s))

/-! ### The controller command bytes: each is its own `TpCmd` transaction (30_encoding.md R67, log 9) -/

/-- Sleep mode (42_controller.md R103, `SCRIPT[0]`). -/
def execCbSleep (s : State) : Host.Outcome State Fault Refusal := .next (sendCommand 0xAE#8 s)

/-- RAM-follow mode (42_controller.md R103, `SCRIPT[1]`). -/
def execCbRamFollow (s : State) : Host.Outcome State Fault Refusal := .next (sendCommand 0xA4#8 s)

/-- Inverse-off (42_controller.md R103, `SCRIPT[2]`). -/
def execCbInverseOff (s : State) : Host.Outcome State Fault Refusal := .next (sendCommand 0xA6#8 s)

/-- Contrast command; its operand byte is a transaction of its own (42_controller.md R103, `SCRIPT[3]`). -/
def execCbContrast (s : State) : Host.Outcome State Fault Refusal := .next (sendCommand 0x81#8 s)

/-- Memory-mode command; its operand byte is a transaction of its own (42_controller.md R103, `SCRIPT[5]`). -/
def execCbMemoryMode (s : State) : Host.Outcome State Fault Refusal := .next (sendCommand 0x20#8 s)

/-- Start-page-n (42_controller.md R106). -/
def execCbPageSelect (n : BitVec 3) (s : State) : Host.Outcome State Fault Refusal :=
  .next (sendCommand (pageSelectByte n.toNat) s)

/-- Low-column-0 (42_controller.md R107). -/
def execCbColLow0 (s : State) : Host.Outcome State Fault Refusal := .next (sendCommand colLowByte s)

/-- High-column-0 (42_controller.md R107). -/
def execCbColHigh0 (s : State) : Host.Outcome State Fault Refusal := .next (sendCommand colHighByte s)

end Sys2Proof.Machine
end

