-- ==== Sys2Proof/Machine/Framebuffer.lean ====
section
/-! DEFINITION. The framebuffer operations SETPX and FILL (40_framebuffer.md). -/

namespace Sys2Proof.Machine

/-- `SETPX x, y, color` (40_framebuffer.md R80). -/
def execSetpx (x y : Byte) (color : Color) (s : State) : Host.Outcome State Fault Refusal :=
  .next (finish 0#8 (paint [⟨x.toNat, y.toNat, color⟩] s))

/-- `FILL color` (40_framebuffer.md R81); the cursor does not move. -/
def execFill (color : Color) (s : State) : Host.Outcome State Fault Refusal :=
  .next (returnOk 0#8 (fillFrame color s))

end Sys2Proof.Machine
end

