-- ==== Sys2Proof/Machine/Rasterizer.lean ====
section
/-! DEFINITION. The glyph rasterizer: SETCUR, WRCHAR and WRSTR (41_rasterizer.md). -/

namespace Sys2Proof.Machine

/-- The body of `SETCUR` (41_rasterizer.md R87). -/
def placeCursor (x y : Byte) (s : State) : State × Option Halt :=
  if inFrame x.toNat y.toNat then (s.setCursor x y, none) else (s, some (.raised .outOfBounds noInfo))

/-- Step 2 of a glyph write: the padding column, then one step to the right (41_rasterizer.md R91). -/
def padColumn (f : Font) (bg : Color) (s : State) : State × Option Halt :=
  andThen (paint (columnDots f.height s.curX.toNat s.curY.toNat bg) s) fun s =>
    (s.setCurX (BitVec.ofNat 8 (s.curX.toNat + 1)), none)

/-- Steps 3 and 4 of a glyph write for the rows listed: each row is looked up just before its columns are written
(41_rasterizer.md R92, R93). -/
def glyphRows (f : Font) (ch : Byte) (fg bg : Color) (rows : List Nat) (s : State) : State × Option Halt :=
  match rows with
  | [] => (s, none)
  | r :: rest =>
    match glyphIndex f ch r with
    | none => (s, some (.raised .glyphLookupFailed noInfo))
    | some i =>
      andThen (paint (rowDots f (glyphRead f i) s.curX.toNat (s.curY.toNat + r) fg bg) s) fun s =>
        glyphRows f ch fg bg rest s

/-- Step 5 of a glyph write (41_rasterizer.md R94). -/
def advanceCursor (f : Font) (pad : Bool) (s : State) : State :=
  s.setCurX (BitVec.ofNat 8 (s.curX.toNat + f.width + pad.toNat))

/-- `WRCHAR` as a sub-operation: its six steps (41_rasterizer.md R88), the font being `FONTS[fsel]`. -/
def writeGlyph (fsel : BitVec 4) (f : Font) (ch : Byte) (fg bg : Color) (pad : Bool) (s : State) :
    State × Option Halt :=
  if layoutFull f s.curX s.curY then (s.latch fsel pad, some (.raised .layoutFull noInfo))
  else
    andThen (if pad then padColumn f bg (s.latch fsel pad) else (s.latch fsel pad, none)) fun s =>
      andThen (glyphRows f ch fg bg (List.range f.height) s) fun s => (advanceCursor f pad s, none)

/-- The character loop of `WRSTR` from index `k` on (41_rasterizer.md R96). -/
def writeChars (fsel : BitVec 4) (f : Font) (fg bg : Color) (pad : Bool) (k : Nat) (text : List Byte) (s : State) :
    State × Option Halt :=
  match text with
  | [] => (s, none)
  | ch :: rest =>
    match writeGlyph fsel f ch fg bg pad s with
    | (s, none) => writeChars fsel f fg bg pad (k + 1) rest s
    | (s, some h) => (s, some (h.atIndex k))

/-- `WRSTR` as a sub-operation (41_rasterizer.md R96). -/
def writeText (fsel : BitVec 4) (f : Font) (text : List Byte) (fg bg : Color) (pad : Bool) (s : State) :
    State × Option Halt :=
  writeChars fsel f fg bg pad 0 text (s.latch fsel pad)

/-- `SETCUR x, y` (41_rasterizer.md R87). -/
def execSetcur (x y : Byte) (s : State) : Host.Outcome State Fault Refusal :=
  .next (finish 0#8 (placeCursor x y s))

/-- `WRCHAR ch, fsel, fg, bg, pad` (41_rasterizer.md R88); the character is returned (R95). -/
def execWrchar (ch : Byte) (fsel : BitVec 4) (fg bg : Color) (pad : Bool) (s : State) :
    Host.Outcome State Fault Refusal :=
  .next (withFont fsel s fun f => finish ch (writeGlyph fsel f ch fg bg pad s))

/-- `WRSTR "text", fsel, fg, bg, pad` (41_rasterizer.md R96). -/
def execWrstr (text : List Byte) (fsel : BitVec 4) (fg bg : Color) (pad : Bool) (s : State) :
    Host.Outcome State Fault Refusal :=
  .next (withFont fsel s fun f => finish 0#8 (writeText fsel f text fg bg pad s))

end Sys2Proof.Machine
end

