-- ==== Sys2Proof/Machine/Surface.lean ====
section
/-! DEFINITION. The public surface operations WRITE, GETW and GETH (43_public_surface.md). -/

namespace Sys2Proof.Machine

/-- A part of `WRITE`: its error carries the part's number (43_public_surface.md R113). -/
def inPart (p : BitVec 4) (a : State × Option Halt) : State × Option Halt :=
  match a with
  | (s, none) => (s, none)
  | (s, some h) => (s, some (h.inPhase p))

/-- The four parts of `WRITE` in order (43_public_surface.md R113, R114): fill with the background and cursor to (0,0);
cursor positioning; string raster; optional refresh. -/
def writeParts (text : List Byte) (fsel : BitVec 4) (f : Font) (x y : Byte) (bg fg : Color) (pad commit : Bool)
    (s : State) : State × Option Halt :=
  andThen (inPart 1#4 (placeCursor x y ((fillFrame bg (s.latch fsel pad)).setCursor 0#8 0#8))) fun s =>
    andThen (inPart 2#4 (writeText fsel f text fg bg pad s)) fun s =>
      if commit then inPart 3#4 (refreshAll s) else (s, none)

/-- `WRITE "text", fsel, x, y, bg, fg, pad, commit` (43_public_surface.md R113). -/
def execWrite (text : List Byte) (fsel : BitVec 4) (x y : Byte) (bg fg : Color) (pad commit : Bool) (s : State) :
    Host.Outcome State Fault Refusal :=
  .next (withFont fsel s fun f => finish 0#8 (writeParts text fsel f x y bg fg pad commit s))

/-- `GETW` (43_public_surface.md R115, 10_state.md R22). -/
def execGetw (s : State) : Host.Outcome State Fault Refusal := .next (returnOk (BitVec.ofNat 8 W) s)

/-- `GETH` (43_public_surface.md R116, 10_state.md R22). -/
def execGeth (s : State) : Host.Outcome State Fault Refusal := .next (returnOk (BitVec.ofNat 8 H) s)

end Sys2Proof.Machine
end

