-- ==== Sys2Proof/Machine/Dispatch.lean ====
section
/-! DEFINITION. One arm per instruction. -/

namespace Sys2Proof.Machine

/-- The meaning of an instruction. -/
def exec (i : Instr) (s : State) : Host.Outcome State Fault Refusal :=
  match i with
  | .setpx x y color => Sys2Proof.Machine.execSetpx x y color s
  | .fill color => Sys2Proof.Machine.execFill color s
  | .setcur x y => Sys2Proof.Machine.execSetcur x y s
  | .wrchar ch fsel fg bg pad => Sys2Proof.Machine.execWrchar ch fsel fg bg pad s
  | .wrstr text fsel fg bg pad => Sys2Proof.Machine.execWrstr text fsel fg bg pad s
  | .write text fsel x y bg fg pad commit => Sys2Proof.Machine.execWrite text fsel x y bg fg pad commit s
  | .init => Sys2Proof.Machine.execInit s
  | .refresh => Sys2Proof.Machine.execRefresh s
  | .getw => Sys2Proof.Machine.execGetw s
  | .geth => Sys2Proof.Machine.execGeth s
  | .cbSleep => Sys2Proof.Machine.execCbSleep s
  | .cbRamFollow => Sys2Proof.Machine.execCbRamFollow s
  | .cbInverseOff => Sys2Proof.Machine.execCbInverseOff s
  | .cbContrast => Sys2Proof.Machine.execCbContrast s
  | .cbMemoryMode => Sys2Proof.Machine.execCbMemoryMode s
  | .cbPageSelect n => Sys2Proof.Machine.execCbPageSelect n s
  | .cbColLow0 => Sys2Proof.Machine.execCbColLow0 s
  | .cbColHigh0 => Sys2Proof.Machine.execCbColHigh0 s

end Sys2Proof.Machine
end

