-- ==== Sys2Proof/WellFormed.lean ====
section
/-! DEFINITION. The checks an instruction must pass beyond the widths of its operands. -/

namespace Sys2Proof

/-- A payload fits its 8-bit `len` field (30_encoding.md R57, R63). -/
def Instr.payloadFits : Instr → Bool
  | .wrstr text _ _ _ _ => text.length ≤ 255
  | .write text _ _ _ _ _ _ _ => text.length ≤ 255
  | .setpx _ _ _ | .fill _ | .setcur _ _ | .wrchar _ _ _ _ _ | .init | .refresh | .getw | .geth
  | .cbSleep | .cbRamFollow | .cbInverseOff | .cbContrast | .cbMemoryMode | .cbPageSelect _
  | .cbColLow0 | .cbColHigh0 => true

/-- The font an instruction selects exists: `fsel < NFONTS` (30_encoding.md R65). -/
def Instr.fontExists (c : Config) : Instr → Bool
  | .wrchar _ fsel _ _ _ => fsel.toNat < c.fonts.length
  | .wrstr _ fsel _ _ _ => fsel.toNat < c.fonts.length
  | .write _ fsel _ _ _ _ _ _ => fsel.toNat < c.fonts.length
  | .setpx _ _ _ | .fill _ | .setcur _ _ | .init | .refresh | .getw | .geth
  | .cbSleep | .cbRamFollow | .cbInverseOff | .cbContrast | .cbMemoryMode | .cbPageSelect _
  | .cbColLow0 | .cbColHigh0 => true

/-- A well-formed instruction for a configuration. The encodings ask for `payloadFits` alone; an instruction that
selects no existing font is decoded and then answered `IllegalRequest` (log 11). -/
def Instr.wf (c : Config) (i : Instr) : Bool := i.payloadFits && i.fontExists c

end Sys2Proof
end

