-- ==== Sys2Proof/Decode.lean ====
section
/-! DEFINITION. The decoder of requests (30_encoding.md R57, R62 to R66) and of controller command bytes (R67), total on
any bytes, and after it the encoder written from the same tables. -/

namespace Sys2Proof

/-! ### Bit fields and bytes -/

/-- A colour bit: 0 is Black, 1 is White (00_scope.md R6, 30_encoding.md R62). -/
def Color.ofBit (b : BitVec 1) : Color := if b = 1#1 then .white else .black

/-- The bit of a colour (00_scope.md R6). -/
def Color.bit : Color → BitVec 1
  | .black => 0#1
  | .white => 1#1

/-- A flag bit of a header. -/
def flagOfBit (b : BitVec 1) : Bool := b = 1#1

/-- The bit of a flag. -/
def bitOfFlag (b : Bool) : BitVec 1 := if b then 1#1 else 0#1

/-- The header held by eight port bytes, the first byte most significant (DESIGN CHOICE, log 1). -/
def headerOfBytes (b7 b6 b5 b4 b3 b2 b1 b0 : Byte) : Header := b7 ++ b6 ++ b5 ++ b4 ++ b3 ++ b2 ++ b1 ++ b0

/-- The eight port bytes of a header, most significant first (DESIGN CHOICE, log 1). -/
def bytesOfHeader (h : Header) : List Byte :=
  [h.extractLsb' 56 8, h.extractLsb' 48 8, h.extractLsb' 40 8, h.extractLsb' 32 8,
   h.extractLsb' 24 8, h.extractLsb' 16 8, h.extractLsb' 8 8, h.extractLsb' 0 8]

/-! ### Header fields (30_encoding.md R57) -/

/-- Field `op`, bits 63:60. -/
def hdrOp (h : Header) : BitVec 4 := h.extractLsb' 60 4
/-- Field `x`, bits 59:52. -/
def hdrX (h : Header) : Byte := h.extractLsb' 52 8
/-- Field `y`, bits 51:44. -/
def hdrY (h : Header) : Byte := h.extractLsb' 44 8
/-- Field `ch`, bits 43:36. -/
def hdrCh (h : Header) : Byte := h.extractLsb' 36 8
/-- Field `len`, bits 35:28. -/
def hdrLen (h : Header) : Byte := h.extractLsb' 28 8
/-- Field `fsel`, bits 27:24. -/
def hdrFsel (h : Header) : BitVec 4 := h.extractLsb' 24 4
/-- Field `commit`, bit 3. -/
def hdrCommit (h : Header) : Bool := flagOfBit (h.extractLsb' 3 1)
/-- Field `pad`, bit 2. -/
def hdrPad (h : Header) : Bool := flagOfBit (h.extractLsb' 2 1)
/-- Field `bg`, bit 1. -/
def hdrBg (h : Header) : Color := Color.ofBit (h.extractLsb' 1 1)
/-- Field `fg`, bit 0; the operand `color` of SETPX and FILL. -/
def hdrFg (h : Header) : Color := Color.ofBit (h.extractLsb' 0 1)

/-! ### The opcode map (30_encoding.md R64) -/

/-- The ten requests, by operation code. -/
inductive RequestOp where
  | setpx | fill | setcur | wrchar | wrstr | write | init | refresh | getw | geth
deriving DecidableEq, Repr

/-- One row of the opcode map: the header bits `mask` marks are fixed to those of `pattern`. -/
structure OpcodeRow where
  op      : RequestOp
  pattern : Header
  mask    : Header
deriving DecidableEq, Repr

/-- The opcode map, row by row as R64 prints it. -/
def requestRows : List OpcodeRow :=
  [⟨.setpx,   0x1000000000000000#64, 0xF0000FFFFFFFFFFE#64⟩,
   ⟨.fill,    0x2000000000000000#64, 0xFFFFFFFFFFFFFFFE#64⟩,
   ⟨.setcur,  0x3000000000000000#64, 0xF0000FFFFFFFFFFF#64⟩,
   ⟨.wrchar,  0x4000000000000000#64, 0xFFFFF00FF0FFFFF8#64⟩,
   ⟨.wrstr,   0x5000000000000000#64, 0xFFFFFFF000FFFFF8#64⟩,
   ⟨.write,   0x6000000000000000#64, 0xF0000FF000FFFFF0#64⟩,
   ⟨.init,    0x7000000000000000#64, 0xFFFFFFFFFFFFFFFF#64⟩,
   ⟨.refresh, 0x8000000000000000#64, 0xFFFFFFFFFFFFFFFF#64⟩,
   ⟨.getw,    0x9000000000000000#64, 0xFFFFFFFFFFFFFFFF#64⟩,
   ⟨.geth,    0xA000000000000000#64, 0xFFFFFFFFFFFFFFFF#64⟩]

/-- "A header `h` selects an operation when `h AND mask = match`" (R64). -/
def OpcodeRow.selects (r : OpcodeRow) (h : Header) : Bool := h &&& r.mask == r.pattern

/-- The operation a header selects, if any. -/
def selectOp (h : Header) : Option RequestOp :=
  (requestRows.find? fun r => r.selects h).map fun r => r.op

/-- The number of payload bytes after a header, from `op` and `len` alone (R63, R65): `len` for the codes 0x5 and 0x6,
legal or not, and none for any other. -/
def payloadLength (h : Header) : Nat :=
  if hdrOp h = 0x5#4 ∨ hdrOp h = 0x6#4 then (hdrLen h).toNat else 0

/-- The instruction of a selected operation (R62: every field as its bits stand). -/
def assemble (op : RequestOp) (h : Header) (text : List Byte) : Instr :=
  match op with
  | .setpx => .setpx (hdrX h) (hdrY h) (hdrFg h)
  | .fill => .fill (hdrFg h)
  | .setcur => .setcur (hdrX h) (hdrY h)
  | .wrchar => .wrchar (hdrCh h) (hdrFsel h) (hdrFg h) (hdrBg h) (hdrPad h)
  | .wrstr => .wrstr text (hdrFsel h) (hdrFg h) (hdrBg h) (hdrPad h)
  | .write => .write text (hdrFsel h) (hdrX h) (hdrY h) (hdrBg h) (hdrFg h) (hdrPad h) (hdrCommit h)
  | .init => .init
  | .refresh => .refresh
  | .getw => .getw
  | .geth => .geth

/-- Why the decoder rejects a complete request (R65). -/
inductive Reject where
  /-- `op` is 0x0 or 0xB to 0xF. -/
  | reservedOp
  /-- A field the operation does not use is not zero. -/
  | nonzeroField
deriving DecidableEq, Repr

/-- The name of a rejection: the operation code is unassigned, or it is assigned and some unused field is not zero. -/
def rejectReason (h : Header) : Reject :=
  if hdrOp h = 0#4 ∨ 0xB#4 ≤ hdrOp h then .reservedOp else .nonzeroField

/-- What the decoder makes of the bytes at the port. -/
inductive Decoded where
  /-- A request, and the bytes after it. -/
  | instr (i : Instr) (rest : List Byte)
  /-- A complete but illegal request (R65), and the bytes after it and its payload. -/
  | illegal (why : Reject) (rest : List Byte)
  /-- Fewer than eight bytes: no whole header yet. -/
  | needHeader
  /-- A whole header, and not yet all of its payload (R66). -/
  | needPayload
deriving DecidableEq, Repr

/-- The request decoder on a header and the bytes that follow it. -/
def decodeWithHeader (h : Header) (after : List Byte) : Decoded :=
  if after.length < payloadLength h then .needPayload
  else
    match selectOp h with
    | some op => .instr (assemble op h (after.take (payloadLength h))) (after.drop (payloadLength h))
    | none => .illegal (rejectReason h) (after.drop (payloadLength h))

/-- The request decoder, total on any bytes. -/
def decodeRequest (bytes : List Byte) : Decoded :=
  match bytes with
  | b7 :: b6 :: b5 :: b4 :: b3 :: b2 :: b1 :: b0 :: after =>
    decodeWithHeader (headerOfBytes b7 b6 b5 b4 b3 b2 b1 b0) after
  | _ => .needHeader

/-! ### Controller command bytes (30_encoding.md R67) -/

/-- The controller command byte an opcode-table row stands for; any byte of no row is rejected. The page-select row
fixes bits 7:3 and leaves the page number in bits 2:0 (42_controller.md R106). -/
def decodeCommand (b : Byte) : Option Instr :=
  if b = 0xAE#8 then some .cbSleep
  else if b = 0xA4#8 then some .cbRamFollow
  else if b = 0xA6#8 then some .cbInverseOff
  else if b = 0x81#8 then some .cbContrast
  else if b = 0x20#8 then some .cbMemoryMode
  else if b &&& 0xF8#8 = 0xB0#8 then some (.cbPageSelect (b.extractLsb' 0 3))
  else if b = 0x00#8 then some .cbColLow0
  else if b = 0x10#8 then some .cbColHigh0
  else none

/-! ### The encoder -/

/-- A header from its fields (R57); bits 23:4 are zero. -/
def packHeader (op : BitVec 4) (x y ch len : Byte) (fsel : BitVec 4) (commit pad : Bool) (bg fg : Color) : Header :=
  op ++ x ++ y ++ ch ++ len ++ fsel ++ 0#20 ++ bitOfFlag commit ++ bitOfFlag pad ++ bg.bit ++ fg.bit

/-- The `len` field of a payload. -/
def lenField (text : List Byte) : Byte := BitVec.ofNat 8 text.length

/-- The header of a request, the operation codes of R64 with every unused field zero (a controller command byte has no
header). -/
def encodeHeader : Instr → Option Header
  | .setpx x y c => some (packHeader 0x1#4 x y 0 0 0 false false .black c)
  | .fill c => some (packHeader 0x2#4 0 0 0 0 0 false false .black c)
  | .setcur x y => some (packHeader 0x3#4 x y 0 0 0 false false .black .black)
  | .wrchar ch fsel fg bg pad => some (packHeader 0x4#4 0 0 ch 0 fsel false pad bg fg)
  | .wrstr text fsel fg bg pad => some (packHeader 0x5#4 0 0 0 (lenField text) fsel false pad bg fg)
  | .write text fsel x y bg fg pad commit => some (packHeader 0x6#4 x y 0 (lenField text) fsel commit pad bg fg)
  | .init => some (packHeader 0x7#4 0 0 0 0 0 false false .black .black)
  | .refresh => some (packHeader 0x8#4 0 0 0 0 0 false false .black .black)
  | .getw => some (packHeader 0x9#4 0 0 0 0 0 false false .black .black)
  | .geth => some (packHeader 0xA#4 0 0 0 0 0 false false .black .black)
  | .cbSleep | .cbRamFollow | .cbInverseOff | .cbContrast | .cbMemoryMode | .cbPageSelect _
  | .cbColLow0 | .cbColHigh0 => none

/-- The payload bytes of a request (R63). -/
def encodePayload : Instr → List Byte
  | .wrstr text _ _ _ _ => text
  | .write text _ _ _ _ _ _ _ => text
  | .setpx _ _ _ | .fill _ | .setcur _ _ | .wrchar _ _ _ _ _ | .init | .refresh | .getw | .geth
  | .cbSleep | .cbRamFollow | .cbInverseOff | .cbContrast | .cbMemoryMode | .cbPageSelect _
  | .cbColLow0 | .cbColHigh0 => []

/-- The byte of a controller command (R67, 42_controller.md R103, R106, R107). -/
def encodeCommand : Instr → Option Byte
  | .cbSleep => some 0xAE#8
  | .cbRamFollow => some 0xA4#8
  | .cbInverseOff => some 0xA6#8
  | .cbContrast => some 0x81#8
  | .cbMemoryMode => some 0x20#8
  | .cbPageSelect n => some (0b10110#5 ++ n)
  | .cbColLow0 => some 0x00#8
  | .cbColHigh0 => some 0x10#8
  | .setpx _ _ _ | .fill _ | .setcur _ _ | .wrchar _ _ _ _ _ | .wrstr _ _ _ _ _ | .write _ _ _ _ _ _ _ _
  | .init | .refresh | .getw | .geth => none

/-- The bytes of an instruction: a request's header and payload as the port carries them, or one command byte. -/
def encode (i : Instr) : List Byte :=
  match encodeHeader i with
  | some h => bytesOfHeader h ++ encodePayload i
  | none => (encodeCommand i).toList

/-! ### The opcode table's words -/

/-- A table word of more than eight bits is a request header; the bytes after it are zero, as many as its payload. -/
def requestBytesOfWord (w : Nat) : List Byte :=
  bytesOfHeader (BitVec.ofNat 64 w) ++ List.replicate (payloadLength (BitVec.ofNat 64 w)) 0#8

/-- A row of eight bits is a controller command byte, any other row a request. -/
def isCommandWidth (nbits : Nat) : Bool := nbits ≤ 8

/-- The instruction the decoder reads from an opcode-table word, numbered as the table numbers it. -/
def decodeTableWord (nbits w : Nat) : Option Instr :=
  if isCommandWidth nbits then decodeCommand (BitVec.ofNat 8 w)
  else
    match decodeRequest (requestBytesOfWord w) with
    | .instr i _ => some i
    | .illegal _ _ => none
    | .needHeader => none
    | .needPayload => none

end Sys2Proof
end

