-- ==== Sys2Proof/Machine/Fetch.lean ====
section
/-! DEFINITION. Taking the next instruction from the channels. -/

namespace Sys2Proof.Machine

/-- What a step finds to do. -/
inductive Fetched where
  /-- An instruction, and the state with its bytes taken. -/
  | run (i : Instr) (s : State)
  /-- An illegal request, and the state with its bytes taken (30_encoding.md R65). -/
  | illegal (s : State)
  /-- Nothing to run yet, or never again. -/
  | stuck (r : Fault)
  /-- A command byte without a meaning. -/
  | refuse (r : Refusal)
deriving DecidableEq, Repr

/-- The request at the port, with its bytes and payload taken (30_encoding.md R63, R65, R66). -/
def fetchRequest (s : State) : Fetched :=
  match decodeRequest s.port with
  | .instr i rest => .run i (s.setPort rest)
  | .illegal _ rest => .illegal (s.setPort rest)
  | .needHeader => .stuck .awaitingRequest
  | .needPayload => .stuck .awaitingPayload

/-- The next instruction: a staged command byte first (log 9), else the request at the port; nothing while a transaction
is unanswered (70_reset_and_hazards.md R157). -/
def fetch (s : State) : Fetched :=
  match s.phase with
  | .awaitingTransport => .stuck .transportSilent
  | .idle =>
    match s.staged with
    | b :: rest =>
      match decodeCommand b with
      | some i => .run i (s.setStaged rest)
      | none => .refuse .unlistedCommandByte
    | [] => fetchRequest s

/-- An opcode-table word put in front of what the channels hold: a command byte at the engine, or a request and its zero
payload at the port with no command byte before it. -/
def placeWord (s : State) (nbits w : Nat) : State :=
  if isCommandWidth nbits then (s.setStaged (BitVec.ofNat 8 w :: s.staged)).setPhase .idle
  else ((s.setPort (requestBytesOfWord w ++ s.port)).setStaged []).setPhase .idle

end Sys2Proof.Machine
end

