-- ==== Sys2Proof/Machine/Step.lean ====
section
/-! DEFINITION. One step: one request, or one staged command byte, run to completion (20_memory.md R49). -/

namespace Sys2Proof.Machine

/-- One step of the machine. -/
def step (s : State) : Host.Outcome State Fault Refusal :=
  match fetch s with
  | .run i t => exec i t
  | .illegal t => .next (answerIllegal t)
  | .stuck r => .fault r
  | .refuse r => .refused r

/-- The state with an opcode-table word placed where `step` takes its next instruction. -/
def State.withFetchWord (s : State) (nbits w : Nat) : State := placeWord s nbits w

end Sys2Proof.Machine
end

