-- ==== Sys2Proof/Machine/Observe.lean ====
section
/-! DEFINITION. What can be observed of a state or a trace: the pixels (40_framebuffer.md R79), and what a display
controller that obeys page-addressing mode would hold (20_memory.md R38). No instruction calls any of this. -/

namespace Sys2Proof.Machine

/-- `Pixel(x, y)`, for coordinates in range (40_framebuffer.md R79). -/
def pixel (m : Memory) (x y : Nat) : Color := colorOfUnit (Memory.read m (decodeXY x y).unit) (decodeXY x y).bit

/-- A display controller in page-addressing mode as the glossary of 00_scope.md describes it: a selected page, a column
pointer, and the graphics memory by page and column (log 14). It is outside the block and no part of State. -/
structure Panel where
  page : Nat
  col  : Nat
  mem  : Nat → Nat → Byte

/-- Bytes written from the column pointer on, within the selected page, the pointer moving along (00_scope.md, glossary:
"writes auto-increment column-wise within an explicitly selected page"). -/
def Panel.put (v : Panel) (bs : List Byte) : Panel where
  page := v.page
  col := v.col + bs.length
  mem := fun p c => if p = v.page ∧ v.col ≤ c ∧ c < v.col + bs.length then bs.getD (c - v.col) 0#8 else v.mem p c

/-- A command byte the controller has accepted: page-select (42_controller.md R106), or a half of the column-select
(R107); of any other the view says nothing. DESIGN CHOICE (log 14): each byte is read by itself, so an operand byte of
the script with one of these values is read as the select. -/
def Panel.command (v : Panel) (b : Byte) : Panel :=
  if b &&& 0xF8#8 = 0xB0#8 then { v with page := (b &&& 0x07#8).toNat }
  else if b = colLowByte then { v with col := v.col / 16 * 16 }
  else if b = colHighByte then { v with col := v.col % 16 }
  else v

/-- What the controller holds after one event. Of a rejected burst it got the first `delivered` bytes, any number
(20_memory.md R41, 93 U3); a reset of the controller leaves it in a state `fresh` of which nothing is known (10_state.md
R30). That a rejected command byte has no effect is the model's choice (DESIGN CHOICE, log 14). -/
def Panel.after (delivered : Nat) (fresh : Panel) (v : Panel) : TxEvent → Panel
  | .cmd b .ok => v.command b
  | .cmd _ .fail => v
  | .data bs .ok => v.put bs
  | .data bs .fail => v.put (bs.take delivered)
  | .rstAssert => fresh
  | .rstRelease => fresh

/-- What the controller holds after a list of events. Each rejected burst delivers a prefix of its own and each reset
leaves a state of its own (20_memory.md R41, 10_state.md R30): `delivered n` and `fresh n` are those of the event that
comes `n` events after the first. -/
def Panel.replay (delivered : Nat → Nat) (fresh : Nat → Panel) (v : Panel) (es : List TxEvent) : Panel :=
  match es with
  | [] => v
  | e :: rest =>
    Panel.replay (fun n => delivered (n + 1)) (fun n => fresh (n + 1))
      (Panel.after (delivered 0) (fresh 0) v e) rest

/-- The events of one page of a refresh, every answer `Ok` (42_controller.md R108). -/
def pageEvents (m : Memory) (page : Nat) : List TxEvent :=
  [.cmd (pageSelectByte page) .ok, .cmd colLowByte .ok, .cmd colHighByte .ok, .data (pageBytes m page) .ok]

/-- The first `k` transactions of a page of a refresh, the last of them rejected. -/
def failedPageEvents (m : Memory) (page : Nat) : Nat → List TxEvent
  | 0 => [.cmd (pageSelectByte page) .fail]
  | 1 => [.cmd (pageSelectByte page) .ok, .cmd colLowByte .fail]
  | 2 => [.cmd (pageSelectByte page) .ok, .cmd colLowByte .ok, .cmd colHighByte .fail]
  | _ => [.cmd (pageSelectByte page) .ok, .cmd colLowByte .ok, .cmd colHighByte .ok, .data (pageBytes m page) .fail]

/-- The source's stage of the k-th transaction of a page: page-select, column-select twice, data-stream (30_encoding.md
R59). -/
def stageOfTransaction : Nat → Nat
  | 0 => 0
  | 1 => 1
  | 2 => 1
  | _ => 2

end Sys2Proof.Machine
end

