-- ==== Sys2Proof/Safety.lean ====
section
/-! DEFINITION. The terms in which claims about runs are stated: the invariant, what a frame leaves alone, and what a run
may not depend on. -/

namespace Sys2Proof.Machine

/-- The invariant of the block: the framebuffer is in canonical form and within its bounds (20_memory.md R35), and the
cursor within the bounds of 10_state.md R12. -/
abbrev State.Inv (s : State) : Prop :=
  Memory.wf s.fb ∧ Memory.inBounds s.fb ∧ s.curX.toNat ≤ 144 ∧ s.curY.toNat < H

/-! ### Frames -/

/-- Every unit of the framebuffer reads as before. -/
abbrev SameFb (s t : State) : Prop := ∀ u, Memory.read t.fb u = Memory.read s.fb u

/-- The cursor is as before. -/
abbrev SameCursor (s t : State) : Prop := t.curX = s.curX ∧ t.curY = s.curY

/-- The latches are as before. -/
abbrev SameLatches (s t : State) : Prop := t.fontSel = s.fontSel ∧ t.padLatch = s.padLatch

/-- Nothing was sent and no answer used, and the block is as idle as before. -/
abbrev SameTransport (s t : State) : Prop :=
  t.tx = s.tx ∧ t.answers = s.answers ∧ t.answered = s.answered ∧ t.phase = s.phase

/-- The configuration and the inputs that wait are as before. -/
abbrev SameInputs (s t : State) : Prop := t.cfg = s.cfg ∧ t.port = s.port ∧ t.staged = s.staged

/-- Exactly this response word was delivered. -/
abbrev Answered (s t : State) (r : ResponseWord) : Prop := t.responses = s.responses ++ [r]

/-- `n` transactions were answered, in the order of the environment's answers. -/
abbrev UsedAnswers (s t : State) (n : Nat) : Prop :=
  t.answers = s.answers.drop n ∧ t.answered = s.answered + n ∧ t.phase = s.phase

/-- `LC` after the framebuffer was written (10_state.md R18). -/
def dirtied (l : Lifecycle) : Lifecycle := if l = .synchronized then .configured else l

/-- `LC` after a refresh that ended in `l` (10_state.md R18). -/
def refreshed (l : Lifecycle) (before : Lifecycle) : Lifecycle := if before = .uninitialized then before else l

/-- The next `n` answers of the transport are all `Ok`. -/
def AnswersOk (s : State) (n : Nat) : Prop := ∀ k < n, s.answerAt k = some .ok

/-- The number of transactions among events: the reset line events are none (20_memory.md R42). -/
def transactions (es : List TxEvent) : Nat :=
  (es.filter fun e => match e with
    | .cmd _ _ => true
    | .data _ _ => true
    | .rstAssert => false
    | .rstRelease => false).length

/-! ### Where a glyph goes -/

/-- The characters of a glyph table (41_rasterizer.md R92). -/
def Printable (ch : Byte) : Prop := 0x20 ≤ ch.toNat ∧ ch.toNat ≤ 0x7E

/-- The total advance of one character: the width, and 2 more with padding (41_rasterizer.md R94). -/
def charAdvance (f : Font) (pad : Bool) : Nat := f.width + 2 * pad.toNat

/-- The colour a glyph gives to row `r`, column `c` of its cell (30_encoding.md R60, 20_memory.md R36). -/
def cellColor (f : Font) (ch : Byte) (r c : Nat) (fg bg : Color) : Color :=
  if (f.rows.getD ((ch.toNat - 0x20) * f.height + r) 0#16).getLsbD (15 - c) then fg else bg

/-- A pixel lies in the box of given corner, width and height. -/
def InBox (x y x0 y0 w h : Nat) : Prop := x0 ≤ x ∧ x < x0 + w ∧ y0 ≤ y ∧ y < y0 + h

/-- A pixel of a box comes before row `r`, column `c` in row-major order. -/
def InBoxBefore (x y x0 y0 w r c : Nat) : Prop :=
  x0 ≤ x ∧ x < x0 + w ∧ y0 ≤ y ∧ (y < y0 + r ∨ (y = y0 + r ∧ x < x0 + c))

/-- A text of `n` characters drawn from column `x0` passes every layout check and fits: the last character does
(41_rasterizer.md R90, 70_reset_and_hazards.md R153). -/
def TextFits (f : Font) (pad : Bool) (n x0 y0 : Nat) : Prop :=
  n = 0 ∨ (y0 + f.height ≤ H ∧ x0 + (n - 1) * charAdvance f pad + f.height < W ∧
    x0 + (n - 1) * charAdvance f pad + pad.toNat + f.width ≤ W)

/-- Only the listed pixels may differ: every other pixel of the frame, and every unit that holds none of them, is as
before. -/
def OnlyDraws (drawn : Nat → Nat → Prop) (s t : State) : Prop :=
  (∀ x y, x < W → y < H → ¬drawn x y → pixel t.fb x y = pixel s.fb x y) ∧
  ∀ u, (∀ x y, drawn x y → (decodeXY x y).unit ≠ u) → Memory.read t.fb u = Memory.read s.fb u

/-- The place of a stage of the script tail (42_controller.md R104, column Order). -/
def stageOrder : TailStage → Nat
  | .startLine => 1
  | .verticalFlip => 2
  | .horizontalFlip => 3
  | .multiplexRatio => 4
  | .verticalOffset => 5
  | .comPins => 6
  | .clockDivider => 7
  | .preCharge => 8
  | .vcomhLevel => 9
  | .displayOn => 10

/-! ### What a run may not depend on -/

/-- An outcome with its next state seen through `g`. -/
def mapNext (g : State → State) : Host.Outcome State Fault Refusal → Host.Outcome State Fault Refusal
  | .next s => .next (g s)
  | .fault r => .fault r
  | .refused r => .refused r

/-- A state with `LC` blotted out. -/
def State.forgetLc (s : State) : State := s.setLc .uninitialized

/-- A state with the latches blotted out. -/
def State.forgetLatches (s : State) : State := s.latch 0#4 false

/-- A state with events put before its trace. -/
def State.withPast (s : State) (past : List TxEvent) : State := { s with tx := past ++ s.tx }

/-- Two fonts of one size whose rows agree on the bits of the pixel mask (30_encoding.md R60). -/
def Font.SameMask (f g : Font) : Prop :=
  f.width = g.width ∧ f.height = g.height ∧
  ∀ i c, c < f.width → (f.rows.getD i 0#16).getLsbD (15 - c) = (g.rows.getD i 0#16).getLsbD (15 - c)

end Sys2Proof.Machine
end

