-- ==== Sys2Proof/Certificates/Slice0/Obligations.lean ====
section
/-! DEFINITION. The statements for the provers. Each docstring names the rules it formalises; where a rule records the
spec's own decision or a choice of the model, the docstring says so. -/

open Sys2Proof Sys2Proof.Machine

/-! ### Reset -/

/-- 10_state.md R26: after reset every storage unit is `0x00`, every pixel Black. -/
def Obligations.ResetFramebufferBlack : Prop :=
  (∀ u, u < NUNITS → Memory.read State.reset.fb u = 0x00#8) ∧
  ∀ x y, x < W → y < H → pixel State.reset.fb x y = .black

/-- 10_state.md R27, R28, R29 and 70_reset_and_hazards.md R146, which rest on the spec's decisions D7, D9, D10: cursor
(0,0), `LC` uninitialized, `TX` empty, idle. That the latches are 0 and the channels empty is the model's choice (log 4, 8,
9). -/
def Obligations.ResetRegistersAndIdle : Prop :=
  State.reset.curX = 0#8 ∧ State.reset.curY = 0#8 ∧ State.reset.lc = .uninitialized ∧ State.reset.tx = [] ∧
  State.reset.phase = .idle ∧ State.reset.fontSel = 0#4 ∧ State.reset.padLatch = false ∧
  State.reset.port = [] ∧ State.reset.staged = [] ∧ State.reset.responses = [] ∧ State.reset.answers = []

/-- The invariant of `StepKeepsInvariant` holds after reset. -/
def Obligations.ResetMeetsInvariant : Prop := State.reset.Inv

/-- 70_reset_and_hazards.md R146, R147, 10_state.md R26 to R30 (the cursor, `LC` and `TX` are the spec's decisions D9 and
D10): a reset of the block from any state blacks the frame, puts the cursor at (0,0), makes `LC` uninitialized and `TX`
empty, sends nothing, leaves the block idle, and keeps the configuration. What happens to the channels, the answers of the
transport among them, is the model's choice (log 13). -/
def Obligations.BlockResetFromAnyState : Prop :=
  ∀ s : State, (∀ u, u < NUNITS → Memory.read s.blockReset.fb u = 0x00#8) ∧
    s.blockReset.curX = 0#8 ∧ s.blockReset.curY = 0#8 ∧ s.blockReset.lc = .uninitialized ∧ s.blockReset.tx = [] ∧
    s.blockReset.phase = .idle ∧ s.blockReset.cfg = s.cfg ∧ s.blockReset.responses = s.responses ∧
    s.blockReset.answers = s.answers ∧ s.blockReset.Inv ∧ step s.blockReset = .fault .awaitingRequest

/-! ### The address decoder and the framebuffer -/

/-- 20_memory.md R33 and 40_framebuffer.md R76: the decoder maps the frame one to one onto the bits of the units, with
the inverse the rule gives, and with `W = 128` it is the wiring `page = y[5:3]`, `bit = y[2:0]`, `u = {y[5:3], x[6:0]}`. -/
def Obligations.DecoderIsBijection : Prop :=
  (∀ x y, x < W → y < H →
    (decodeXY x y).page < NPAGES ∧ (decodeXY x y).unit < NUNITS ∧ (decodeXY x y).bit < 8 ∧
    (decodeXY x y).unit % W = x ∧ 8 * ((decodeXY x y).unit / W) + (decodeXY x y).bit = y) ∧
  (∀ u n, u < NUNITS → n < 8 →
    u % W < W ∧ 8 * (u / W) + n < H ∧ decodeXY (u % W) (8 * (u / W) + n) = ⟨u / W, u, n⟩) ∧
  ∀ (x : BitVec 7) (y : BitVec 6),
    decodeXY x.toNat y.toNat =
      ⟨(y.extractLsb' 3 3).toNat, (y.extractLsb' 3 3 ++ x).toNat, (y.extractLsb' 0 3).toNat⟩

/-- 40_framebuffer.md R78: `PixelWrite` in range sets one pixel, leaves every other pixel and every other unit alone and
keeps the form and bounds of the framebuffer; out of range it writes nothing and raises. -/
def Obligations.PixelWriteChangesOneBit : Prop :=
  ∀ (m : Memory) (x y : Nat) (c : Color), Memory.wf m → Memory.inBounds m →
    (x < W → y < H → ∃ m', pixelWrite x y c m = some m' ∧ Memory.wf m' ∧ Memory.inBounds m' ∧
      pixel m' x y = c ∧
      (∀ x' y', x' < W → y' < H → ¬(x' = x ∧ y' = y) → pixel m' x' y' = pixel m x' y') ∧
      ∀ u, u ≠ (decodeXY x y).unit → Memory.read m' u = Memory.read m u) ∧
    (W ≤ x ∨ H ≤ y → pixelWrite x y c m = none)

/-- 40_framebuffer.md R80: `SETPX` with both coordinates in range answers `Ok(0)`; the pixel reads back as the colour,
every other pixel and every unit but the decoded one is unchanged, `LC` goes from Synchronized to Configured, and nothing
else changes. -/
def Obligations.SetpxPaintsOnePixel : Prop :=
  ∀ (s : State) (x y : Byte) (c : Color), Memory.wf s.fb → x.toNat < W → y.toNat < H →
    ∃ t, exec (.setpx x y c) s = .next t ∧ Answered s t 0x00000000#32 ∧
      pixel t.fb x.toNat y.toNat = c ∧
      (∀ x' y', x' < W → y' < H → ¬(x' = x.toNat ∧ y' = y.toNat) → pixel t.fb x' y' = pixel s.fb x' y') ∧
      (∀ u, u ≠ (decodeXY x.toNat y.toNat).unit → Memory.read t.fb u = Memory.read s.fb u) ∧
      t.lc = dirtied s.lc ∧ SameCursor s t ∧ SameLatches s t ∧ SameTransport s t ∧ SameInputs s t

/-- 40_framebuffer.md R80, 60_exceptions.md R127: `SETPX` with a coordinate out of range answers `OutOfBounds` and no
state changes. -/
def Obligations.SetpxOutOfBoundsChangesNothing : Prop :=
  ∀ (s : State) (x y : Byte) (c : Color), W ≤ x.toNat ∨ H ≤ y.toNat →
    exec (.setpx x y c) s = .next { s with responses := s.responses ++ [0x10000000#32] }

/-- 40_framebuffer.md R81: `FILL` answers `Ok(0)`, every unit and every pixel of the frame has the colour, the cursor
does not move, and nothing else but `LC` changes. -/
def Obligations.FillSetsEveryPixel : Prop :=
  ∀ (s : State) (c : Color),
    ∃ t, exec (.fill c) s = .next t ∧ Answered s t 0x00000000#32 ∧
      (∀ u, u < NUNITS → Memory.read t.fb u = if c = .white then 0xFF#8 else 0x00#8) ∧
      (∀ x y, x < W → y < H → pixel t.fb x y = c) ∧
      t.lc = dirtied s.lc ∧ SameCursor s t ∧ SameLatches s t ∧ SameTransport s t ∧ SameInputs s t

/-- 40_framebuffer.md R81: the fill equals the loop of `MemWrite` over all units that the rule writes out, from any
framebuffer. -/
def Obligations.FillEqualsUnitLoop : Prop :=
  ∀ (m : Memory) (c : Color), Memory.wf m → Memory.inBounds m →
    (List.range NUNITS).foldl (fun m u => Memory.write m u (fillByte c)) m = Memory.fill (fillByte c)

/-! ### The rasterizer -/

/-- 41_rasterizer.md R87 (the error kind and the unchanged cursor are the spec's decision D18): `SETCUR` in range moves
the cursor and nothing else; out of range it answers `OutOfBounds` and changes nothing. -/
def Obligations.SetcurMovesCursorInRange : Prop :=
  ∀ (s : State) (x y : Byte),
    (x.toNat < W → y.toNat < H →
      exec (.setcur x y) s =
        .next { s with curX := x, curY := y, responses := s.responses ++ [0x00000000#32] }) ∧
    (W ≤ x.toNat ∨ H ≤ y.toNat →
      exec (.setcur x y) s = .next { s with responses := s.responses ++ [0x10000000#32] })

/-- 41_rasterizer.md R90: a glyph write is refused with `LayoutFull` exactly when `CUR_X + height >= W` or
`CUR_Y + height >= W`, whatever the character; then only the latches change. -/
def Obligations.LayoutFullExactlyOnQuirk : Prop :=
  ∀ (s : State) (ch : Byte) (fsel : BitVec 4) (f : Font) (fg bg : Color) (pad : Bool), fontOf s.cfg fsel = some f →
    ((W ≤ s.curX.toNat + f.height ∨ W ≤ s.curY.toNat + f.height) →
      exec (.wrchar ch fsel fg bg pad) s =
        .next { s with fontSel := fsel, padLatch := pad, responses := s.responses ++ [0x20000000#32] }) ∧
    ((∃ t, exec (.wrchar ch fsel fg bg pad) s = .next t ∧ Answered s t 0x20000000#32) →
      W ≤ s.curX.toNat + f.height ∨ W ≤ s.curY.toNat + f.height)

/-- 41_rasterizer.md R94, R95, with the cell of R93 and the padding column of R91: a printable character at a position
that passes the layout check and fits is drawn whole: `Ok(ch)`, every pixel of its cell is foreground or background as the
glyph says, the padding column is background, every other pixel is unchanged, the cursor advances by the width, and by 2
more with padding. -/
def Obligations.WrcharDrawsWholeCell : Prop :=
  ∀ (s : State) (ch : Byte) (fsel : BitVec 4) (f : Font) (fg bg : Color) (pad : Bool), Memory.wf s.fb →
    fontOf s.cfg fsel = some f → Printable ch →
    s.curX.toNat + f.height < W → s.curY.toNat + f.height ≤ H → s.curX.toNat + pad.toNat + f.width ≤ W →
    ∃ t, exec (.wrchar ch fsel fg bg pad) s = .next t ∧ Answered s t (ch.setWidth 32) ∧
      (∀ r c, r < f.height → c < f.width →
        pixel t.fb (s.curX.toNat + pad.toNat + c) (s.curY.toNat + r) = cellColor f ch r c fg bg) ∧
      (pad = true → ∀ n, n < f.height → pixel t.fb s.curX.toNat (s.curY.toNat + n) = bg) ∧
      OnlyDraws (fun x y => InBox x y s.curX.toNat s.curY.toNat (f.width + pad.toNat) f.height) s t ∧
      t.curX.toNat = s.curX.toNat + charAdvance f pad ∧ t.curY = s.curY ∧
      t.fontSel = fsel ∧ t.padLatch = pad ∧ t.lc = dirtied s.lc ∧ SameTransport s t ∧ SameInputs s t

/-- 41_rasterizer.md R92, R98: a character outside 0x20..0x7E that passes the layout check (and whose padding column,
if any, fits) is answered `GlyphLookupFailed`; no glyph pixel is written; with padding the column has been drawn and the
cursor has moved by 1. -/
def Obligations.WrcharLookupFailureKeepsPadding : Prop :=
  ∀ (s : State) (ch : Byte) (fsel : BitVec 4) (f : Font) (fg bg : Color) (pad : Bool), Memory.wf s.fb →
    fontOf s.cfg fsel = some f → ¬Printable ch →
    s.curX.toNat + f.height < W → s.curY.toNat + f.height < W → (pad = true → s.curY.toNat + f.height ≤ H) →
    ∃ t, exec (.wrchar ch fsel fg bg pad) s = .next t ∧ Answered s t 0x30000000#32 ∧
      (pad = false → t.fb = s.fb ∧ t.curX = s.curX ∧ t.lc = s.lc) ∧
      (pad = true →
        (∀ n, n < f.height → pixel t.fb s.curX.toNat (s.curY.toNat + n) = bg) ∧
        OnlyDraws (fun x y => InBox x y s.curX.toNat s.curY.toNat 1 f.height) s t ∧
        t.curX.toNat = s.curX.toNat + 1 ∧ t.lc = dirtied s.lc) ∧
      t.curY = s.curY ∧ t.fontSel = fsel ∧ t.padLatch = pad ∧ SameTransport s t ∧ SameInputs s t

/-- 41_rasterizer.md R91, R98: a padding column that runs past the bottom edge ends the glyph write with `OutOfBounds`
before any glyph pixel; the pixels above the edge stay, the cursor does not move. -/
def Obligations.PaddingOverrunKeepsUpperPixels : Prop :=
  ∀ (s : State) (ch : Byte) (fsel : BitVec 4) (f : Font) (fg bg : Color), Memory.wf s.fb →
    fontOf s.cfg fsel = some f → s.curX.toNat + f.height < W → s.curY.toNat + f.height < W →
    s.curY.toNat < H → H < s.curY.toNat + f.height →
    ∃ t, exec (.wrchar ch fsel fg bg true) s = .next t ∧ Answered s t 0x10000000#32 ∧
      (∀ y, s.curY.toNat ≤ y → y < H → pixel t.fb s.curX.toNat y = bg) ∧
      OnlyDraws (fun x y => x = s.curX.toNat ∧ s.curY.toNat ≤ y ∧ y < H) s t ∧
      SameCursor s t ∧ t.fontSel = fsel ∧ t.padLatch = true ∧ t.lc = dirtied s.lc ∧
      SameTransport s t ∧ SameInputs s t

/-- 41_rasterizer.md R93, R98: a printable glyph (whose padding column, if any, fits) whose first pixel out of range is
at row `r`, column `c` (the right edge in row 0, or the bottom edge) ends there with `OutOfBounds`: exactly the pixels
before it in row-major order are drawn, after the padding column; the cursor has moved by 1 with padding and not at all
without. -/
def Obligations.GlyphOverrunKeepsDrawnPart : Prop :=
  ∀ (s : State) (ch : Byte) (fsel : BitVec 4) (f : Font) (fg bg : Color) (pad : Bool) (r c : Nat), Memory.wf s.fb →
    fontOf s.cfg fsel = some f → Printable ch → s.curX.toNat + f.height < W → s.curY.toNat + f.height < W →
    s.curY.toNat < H → (pad = true → s.curY.toNat + f.height ≤ H) → r < f.height → c < f.width →
    ((r = 0 ∧ s.curX.toNat + pad.toNat + c = W) ∨
      (s.curX.toNat + pad.toNat + f.width ≤ W ∧ s.curY.toNat + r = H ∧ c = 0)) →
    ∃ t, exec (.wrchar ch fsel fg bg pad) s = .next t ∧ Answered s t 0x10000000#32 ∧
      (∀ r' c', c' < f.width → (r' < r ∨ (r' = r ∧ c' < c)) →
        pixel t.fb (s.curX.toNat + pad.toNat + c') (s.curY.toNat + r') = cellColor f ch r' c' fg bg) ∧
      (pad = true → ∀ n, n < f.height → pixel t.fb s.curX.toNat (s.curY.toNat + n) = bg) ∧
      OnlyDraws (fun x y => InBoxBefore x y (s.curX.toNat + pad.toNat) s.curY.toNat f.width r c ∨
        InBox x y s.curX.toNat s.curY.toNat pad.toNat f.height) s t ∧
      t.curX.toNat = s.curX.toNat + pad.toNat ∧ t.curY = s.curY ∧ t.fontSel = fsel ∧ t.padLatch = pad ∧
      t.lc = dirtied s.lc ∧ SameTransport s t ∧ SameInputs s t

/-- 30_encoding.md R60: bits below the pixel mask are never examined, so two fonts that agree on the mask draw the same
glyph from the same state. -/
def Obligations.GlyphIgnoresBitsBelowMask : Prop :=
  ∀ (f g : Font) (fsel : BitVec 4) (ch : Byte) (fg bg : Color) (pad : Bool) (s : State), Font.SameMask f g →
    writeGlyph fsel f ch fg bg pad s = writeGlyph fsel g ch fg bg pad s

/-- 41_rasterizer.md R97, R96, R94: a string of printable characters that fits is written whole: `Ok(0)`, each glyph in
its cell, the cursor advanced by `n * width`, or `n * (width + 2)` with padding, and `CUR_Y` kept. -/
def Obligations.WrstrDrawsTextAndAdvances : Prop :=
  ∀ (s : State) (text : List Byte) (fsel : BitVec 4) (f : Font) (fg bg : Color) (pad : Bool), Memory.wf s.fb →
    fontOf s.cfg fsel = some f → (∀ ch ∈ text, Printable ch) →
    TextFits f pad text.length s.curX.toNat s.curY.toNat →
    ∃ t, exec (.wrstr text fsel fg bg pad) s = .next t ∧ Answered s t 0x00000000#32 ∧
      (∀ k r c, (hk : k < text.length) → r < f.height → c < f.width →
        pixel t.fb (s.curX.toNat + k * charAdvance f pad + pad.toNat + c) (s.curY.toNat + r) =
          cellColor f text[k] r c fg bg) ∧
      (pad = true → ∀ k r, k < text.length → r < f.height →
        pixel t.fb (s.curX.toNat + k * charAdvance f pad) (s.curY.toNat + r) = bg) ∧
      OnlyDraws (fun x y => ∃ k < text.length,
        InBox x y (s.curX.toNat + k * charAdvance f pad) s.curY.toNat (f.width + pad.toNat) f.height) s t ∧
      t.curX.toNat = s.curX.toNat + text.length * charAdvance f pad ∧ t.curY = s.curY ∧
      t.fontSel = fsel ∧ t.padLatch = pad ∧
      (t.lc = if text = [] then s.lc else dirtied s.lc) ∧ SameTransport s t ∧ SameInputs s t

/-- 41_rasterizer.md R96: a string stops at the first character that fails: what is drawn and where the cursor stands is
what the characters before it and then that character, written on its own, leave; its error is answered with `idx` its
position, and the characters after it are not attempted. -/
def Obligations.WrstrStopsAtFirstFailure : Prop :=
  ∀ (s t u : State) (before after : List Byte) (ch : Byte) (fsel : BitVec 4) (fg bg : Color) (pad : Bool)
    (kind : ErrKind), before.length + 1 + after.length ≤ 255 →
    fsel.toNat < s.cfg.fonts.length →
    exec (.wrstr before fsel fg bg pad) s = .next t → Answered s t 0x00000000#32 →
    exec (.wrchar ch fsel fg bg pad) t = .next u → Answered t u (packResponse (statusCode kind) 0#4 0#8 0#8 0#8) →
    ∃ v, exec (.wrstr (before ++ ch :: after) fsel fg bg pad) s = .next v ∧
      Answered s v (packResponse (statusCode kind) 0#4 (BitVec.ofNat 8 before.length) 0#8 0#8) ∧
      v.fb = u.fb ∧ SameCursor u v ∧ SameLatches u v ∧ v.lc = u.lc ∧ SameTransport s v ∧ SameInputs s v

/-- 41_rasterizer.md R97, R94: a string that is written whole advances the cursor by exactly `n * width` columns without
padding, and by `n * (width + 2)` with padding (the spec's own inference from R94, marked derived in R97), in its row; and
writing a second string continues from that cursor, so two strings that are both written whole give what their
concatenation gives. -/
def Obligations.WrstrContinuesFromCursor : Prop :=
  ∀ (s t : State) (a : List Byte) (fsel : BitVec 4) (fg bg : Color) (pad : Bool),
    exec (.wrstr a fsel fg bg pad) s = .next t → Answered s t 0x00000000#32 →
    (∃ f, fontOf s.cfg fsel = some f ∧ t.curX.toNat = s.curX.toNat + a.length * charAdvance f pad ∧ t.curY = s.curY) ∧
    ∀ (u : State) (b : List Byte), exec (.wrstr b fsel fg bg pad) t = .next u → Answered t u 0x00000000#32 →
      exec (.wrstr (a ++ b) fsel fg bg pad) s = .next { u with responses := s.responses ++ [0x00000000#32] }

/-- 30_encoding.md R60 (its example): in the font State.reset carries, row 0 of 'A' has columns 0,0,1,0,0 set. That
this font is there is the model's choice (log 6). -/
def Obligations.ResetFontRowZeroOfA : Prop :=
  ∃ f, fontOf State.reset.cfg 0#4 = some f ∧ f.width = 5 ∧ f.height = 7 ∧
    ∀ fg bg : Color, (List.range 5).map (fun c => cellColor f 0x41#8 0 c fg bg) = [bg, bg, fg, bg, bg]

/-! ### The public surface -/

/-- 43_public_surface.md R115 and R116: the words `9000000000000000` and `A000000000000000` are `GETW` and `GETH`; `GETW`
answers 128 and `GETH` answers 64, and nothing else changes. -/
def Obligations.SizeReadsAreConstant : Prop :=
  (∀ rest, decodeRequest (bytesOfHeader 0x9000000000000000#64 ++ rest) = .instr .getw rest ∧
    decodeRequest (bytesOfHeader 0xA000000000000000#64 ++ rest) = .instr .geth rest) ∧
  ∀ s : State,
    exec .getw s = .next { s with responses := s.responses ++ [0x00000080#32] } ∧
    exec .geth s = .next { s with responses := s.responses ++ [0x00000040#32] }

/-- 43_public_surface.md R113 (the order of the parts is the spec's decision D24): with the coordinates in range and a
text that fits, `WRITE` answers `Ok(0)`; the text stands at its place on a background that fills the rest of the frame,
the cursor stands after it; without commit nothing is sent, and with commit and every answer `Ok` the finished framebuffer
is streamed. -/
def Obligations.WriteClearsDrawsAndCommits : Prop :=
  ∀ (s : State) (text : List Byte) (fsel : BitVec 4) (f : Font) (x y : Byte) (fg bg : Color) (pad commit : Bool),
    fontOf s.cfg fsel = some f → (∀ ch ∈ text, Printable ch) → x.toNat < W → y.toNat < H →
    TextFits f pad text.length x.toNat y.toNat →
    (commit = true → AnswersOk s (4 * NPAGES)) →
    ∃ t, exec (.write text fsel x y bg fg pad commit) s = .next t ∧ Answered s t 0x00000000#32 ∧
      (∀ k r c, (hk : k < text.length) → r < f.height → c < f.width →
        pixel t.fb (x.toNat + k * charAdvance f pad + pad.toNat + c) (y.toNat + r) =
          cellColor f text[k] r c fg bg) ∧
      (∀ x' y', x' < W → y' < H →
        (∀ k < text.length,
          ¬InBox x' y' (x.toNat + k * charAdvance f pad + pad.toNat) y.toNat f.width f.height) →
        pixel t.fb x' y' = bg) ∧
      t.curX.toNat = x.toNat + text.length * charAdvance f pad ∧ t.curY = y ∧
      t.fontSel = fsel ∧ t.padLatch = pad ∧ SameInputs s t ∧
      (commit = false → SameTransport s t ∧ t.lc = dirtied s.lc) ∧
      (commit = true → UsedAnswers s t (4 * NPAGES) ∧
        t.tx = s.tx ++ (List.range NPAGES).flatMap (pageEvents t.fb) ∧
        t.lc = refreshed .synchronized s.lc)

/-- 43_public_surface.md R114, first row: `WRITE` with a coordinate out of range answers `OutOfBounds` with phase 1; the
frame has been filled with the background, the cursor is (0,0), nothing is sent. -/
def Obligations.WriteOutOfRangeLeavesBackground : Prop :=
  ∀ (s : State) (text : List Byte) (fsel : BitVec 4) (x y : Byte) (fg bg : Color) (pad commit : Bool),
    fsel.toNat < s.cfg.fonts.length → W ≤ x.toNat ∨ H ≤ y.toNat →
    ∃ t, exec (.write text fsel x y bg fg pad commit) s = .next t ∧ Answered s t 0x11000000#32 ∧
      (∀ x' y', x' < W → y' < H → pixel t.fb x' y' = bg) ∧ t.curX = 0#8 ∧ t.curY = 0#8 ∧
      t.fontSel = fsel ∧ t.padLatch = pad ∧ t.lc = dirtied s.lc ∧ SameTransport s t ∧ SameInputs s t

/-- 43_public_surface.md R113, R114, second row: where the text of a `WRITE` fails, what is left is what `FILL`, `SETCUR`
and `WRSTR` in turn leave, the error carries phase 2 and the character's index, and nothing is sent, commit or not. -/
def Obligations.WriteTextFailureSendsNothing : Prop :=
  ∀ (s a b c : State) (text : List Byte) (fsel : BitVec 4) (x y : Byte) (fg bg : Color) (pad commit : Bool)
    (kind : ErrKind) (k : Byte), fsel.toNat < s.cfg.fonts.length → x.toNat < W → y.toNat < H →
    exec (.fill bg) s = .next a → exec (.setcur x y) a = .next b →
    exec (.wrstr text fsel fg bg pad) b = .next c →
    Answered b c (packResponse (statusCode kind) 0#4 k 0#8 0#8) →
    ∃ t, exec (.write text fsel x y bg fg pad commit) s = .next t ∧
      Answered s t (packResponse (statusCode kind) 2#4 k 0#8 0#8) ∧
      t.fb = c.fb ∧ SameCursor c t ∧ SameLatches c t ∧ t.lc = c.lc ∧ SameTransport s t ∧ SameInputs s t

/-- 43_public_surface.md R113, R114, third row: where the refresh of a committed `WRITE` is rejected, the text is fully
drawn, and the trace, the stage and `LC` are those of `REFRESH` after `FILL`, `SETCUR` and `WRSTR`; the error carries
phase 3. -/
def Obligations.WriteRefreshFailureReportsStage : Prop :=
  ∀ (s a b c d : State) (text : List Byte) (fsel : BitVec 4) (x y : Byte) (fg bg : Color) (pad : Bool) (stage : Byte),
    fsel.toNat < s.cfg.fonts.length → x.toNat < W → y.toNat < H →
    exec (.fill bg) s = .next a → exec (.setcur x y) a = .next b →
    exec (.wrstr text fsel fg bg pad) b = .next c → Answered b c 0x00000000#32 →
    exec .refresh c = .next d → Answered c d (packResponse 5#4 0#4 0#8 stage 0#8) →
    ∃ t, exec (.write text fsel x y bg fg pad true) s = .next t ∧
      Answered s t (packResponse 5#4 3#4 0#8 stage 0#8) ∧
      t.fb = c.fb ∧ SameCursor c t ∧ SameLatches c t ∧ t.lc = d.lc ∧ SameTransport d t ∧ SameInputs s t

/-! ### The controller engine -/

/-- 42_controller.md R101, R102, R103, 10_state.md R18 (the reset pulse is the spec's decision D21): with every answer
`Ok`, `INIT` appends the reset pulse and the whole script, the ten fixed bytes and then the tail, and answers `Ok(0)`; `LC`
is Configured and nothing else changes. -/
def Obligations.InitSendsWholeScript : Prop :=
  ∀ s : State, AnswersOk s (10 + s.cfg.tail.bytes.length) →
    ∃ t, exec .init s = .next t ∧ Answered s t 0x00000000#32 ∧
      t.tx = s.tx ++ [.rstAssert, .rstRelease] ++
        ([0xAE#8, 0xA4#8, 0xA6#8, 0x81#8, 0xFF#8, 0x20#8, 0x02#8, 0xB0#8, 0x00#8, 0x10#8] ++
          s.cfg.tail.bytes).map (fun b => TxEvent.cmd b .ok) ∧
      UsedAnswers s t (10 + s.cfg.tail.bytes.length) ∧ t.lc = .configured ∧
      t.fb = s.fb ∧ SameCursor s t ∧ SameLatches s t ∧ SameInputs s t

/-- 42_controller.md R102, R110: where the transport rejects script byte `i` first, `INIT` ends there with
`ProtocolStageFailure(stage = i)`, the bytes after it are not sent, and `LC` is Uninitialized. -/
def Obligations.InitStopsAtRejectedByte : Prop :=
  ∀ (s : State) (i : Nat), (hi : i < (script s.cfg).length) → AnswersOk s i → s.answerAt i = some .fail →
    ∃ t, exec .init s = .next t ∧
      Answered s t (packResponse 5#4 0#4 0#8 (BitVec.ofNat 8 i) 0#8) ∧
      t.tx = s.tx ++ [.rstAssert, .rstRelease] ++
        ((script s.cfg).take i).map (fun b => TxEvent.cmd b .ok) ++ [.cmd (script s.cfg)[i] .fail] ∧
      UsedAnswers s t (i + 1) ∧ t.lc = .uninitialized ∧
      t.fb = s.fb ∧ SameCursor s t ∧ SameLatches s t ∧ SameInputs s t

/-- 42_controller.md R104: the tags of the tail are non-decreasing in the order of the stages, every stage is present,
the last byte is a display-on byte, and the tagged bytes are the bytes sent. -/
def Obligations.ScriptTailKeepsStageOrder : Prop :=
  ∀ t : ScriptTail,
    (t.tagged.map fun p => p.2) = t.bytes ∧
    (t.tagged.map fun p => p.1).Pairwise (fun a b => stageOrder a ≤ stageOrder b) ∧
    (∀ st : TailStage, ∃ b, (st, b) ∈ t.tagged) ∧
    ∃ b, t.tagged.getLast? = some (.displayOn, b)

/-- 42_controller.md R106 to R109 (the bytes for pages 1 to 7 and the page order are the spec's decisions D22, D23): with
every answer `Ok`, `REFRESH` appends for pages 0 to 7 in turn the page-select byte `0xB0 + p`, `0x00`, `0x10`, and one
burst of the 128 units of the page in column order, 24 commands and 8 bursts in all, and answers `Ok(0)`; nothing else but
`LC` changes. -/
def Obligations.RefreshStreamsWholeFrame : Prop :=
  ∀ s : State, AnswersOk s 32 →
    ∃ t, exec .refresh s = .next t ∧ Answered s t 0x00000000#32 ∧
      t.tx = s.tx ++ (List.range 8).flatMap (fun p =>
        [.cmd (0xB0#8 + BitVec.ofNat 8 p) .ok, .cmd 0x00#8 .ok, .cmd 0x10#8 .ok,
         .data ((List.range 128).map fun c => Memory.read s.fb (p * 128 + c)) .ok]) ∧
      UsedAnswers s t 32 ∧ t.lc = refreshed .synchronized s.lc ∧
      t.fb = s.fb ∧ SameCursor s t ∧ SameLatches s t ∧ SameInputs s t

/-- 42_controller.md R108, 30_encoding.md R59: where the transport rejects transaction `k` of page `p` first, `REFRESH`
ends there; the pages before are complete, the pages after are not attempted, and the stage is `4*p` plus 0 for
page-select, 1 for either column-select byte, 2 for the data. -/
def Obligations.RefreshStopsAtRejectedTransaction : Prop :=
  ∀ (s : State) (p k : Nat), p < NPAGES → k < 4 → AnswersOk s (4 * p + k) → s.answerAt (4 * p + k) = some .fail →
    ∃ t, exec .refresh s = .next t ∧
      Answered s t (packResponse 5#4 0#4 0#8 (BitVec.ofNat 8 (4 * p + stageOfTransaction k)) 0#8) ∧
      t.tx = s.tx ++ (List.range p).flatMap (pageEvents s.fb) ++ failedPageEvents s.fb p k ∧
      UsedAnswers s t (4 * p + k + 1) ∧ t.lc = refreshed .configured s.lc ∧
      t.fb = s.fb ∧ SameCursor s t ∧ SameLatches s t ∧ SameInputs s t

/-- 20_memory.md R38 (derived there): after a `REFRESH` whose every answer is `Ok`, a controller that obeys
page-addressing mode holds at page `p`, column `c` the unit `FB[p*W + c]`, whatever it held before. The view of the
controller is the model's (log 14), and that it obeys the page-select bytes of pages 1 to 7 rests on log 10. -/
def Obligations.RefreshBringsFrameToPanel : Prop :=
  ∀ (s t : State) (delivered : Nat → Nat) (fresh : Nat → Panel) (v : Panel), AnswersOk s (4 * NPAGES) →
    exec .refresh s = .next t →
    ∀ p c, p < NPAGES → c < W →
      (Panel.replay delivered fresh v (t.tx.drop s.tx.length)).mem p c = Memory.read s.fb (p * W + c)

/-- 42_controller.md R112 (derived there): after a `REFRESH` rejected at page `p`, the pages before `p` of such a
controller hold the new contents and the pages after `p` what they held before, however much of a rejected burst
arrived. The view of the controller is the model's (log 14), and that it obeys the page-select bytes of pages 1 to 7 rests
on log 10. -/
def Obligations.FailedRefreshSplitsPanel : Prop :=
  ∀ (s t : State) (delivered : Nat → Nat) (fresh : Nat → Panel) (v : Panel) (p k : Nat), p < NPAGES → k < 4 →
    AnswersOk s (4 * p + k) → s.answerAt (4 * p + k) = some .fail → exec .refresh s = .next t →
    ∀ q c, c < W →
      (q < p → (Panel.replay delivered fresh v (t.tx.drop s.tx.length)).mem q c = Memory.read s.fb (q * W + c)) ∧
      (p < q → (Panel.replay delivered fresh v (t.tx.drop s.tx.length)).mem q c = v.mem q c)

/-- 70_reset_and_hazards.md R157: where the transport never answers transaction `n` of an `INIT` or a `REFRESH`, the
block is stuck inside it: the operation gives no response and no later step has a successor (log 5). -/
def Obligations.SilentTransportStopsForEver : Prop :=
  ∀ (s : State) (n : Nat), AnswersOk s n → s.answerAt n = none →
    (n < (script s.cfg).length → ∃ t, exec .init s = .next t ∧ t.phase = .awaitingTransport ∧
      t.responses = s.responses ∧ t.fb = s.fb ∧ ∀ bytes, step (t.setPort bytes) = .fault .transportSilent) ∧
    (n < 4 * NPAGES → ∃ t, exec .refresh s = .next t ∧ t.phase = .awaitingTransport ∧
      t.responses = s.responses ∧ t.fb = s.fb ∧ ∀ bytes, step (t.setPort bytes) = .fault .transportSilent)

/-- 30_encoding.md R67, 20_memory.md R39, R41 (that a command byte may stand alone is the model's choice, log 9): each
controller command byte of the opcode table is one `Cmd` transaction with that byte, answered as the environment answers,
and nothing else changes, whether it is accepted or rejected. -/
def Obligations.CommandByteIsOneTransaction : Prop :=
  ∀ (s : State) (i : Instr) (b : Byte) (a : Reply), encodeCommand i = some b → s.answerAt 0 = some a →
    ∃ t, exec i s = .next t ∧ t.tx = s.tx ++ [.cmd b a] ∧ UsedAnswers s t 1 ∧
      t.responses = s.responses ∧ t.fb = s.fb ∧ t.lc = s.lc ∧ SameCursor s t ∧ SameLatches s t ∧ SameInputs s t

/-! ### Encoding -/

/-- 30_encoding.md R57, R63, R64: a request encoded and followed by any bytes is decoded to itself, with those bytes
left over, every operand at every value. -/
def Obligations.RequestDecodeEncode : Prop :=
  ∀ (i : Instr) (rest : List Byte), i.isRequest = true → i.payloadFits = true →
    decodeRequest (encode i ++ rest) = .instr i rest

/-- 30_encoding.md R57, R64, R65: whatever bytes decode to an instruction are that instruction's encoding and the bytes
left over, so no two words mean the same request and no unused field is ignored. -/
def Obligations.RequestEncodeDecode : Prop :=
  ∀ (bytes rest : List Byte) (i : Instr), decodeRequest bytes = .instr i rest →
    bytes = encode i ++ rest ∧ i.isRequest = true ∧ i.payloadFits = true

/-- 30_encoding.md R64: a header of eight bytes whose payload is there decodes to the operation of an opcode-map row
exactly when `header AND mask = match` for that row, no header matches two rows, and a header that matches no row is
illegal. -/
def Obligations.HeaderSelectsByMask : Prop :=
  (∀ (h : Header) (r q : OpcodeRow), r ∈ requestRows → q ∈ requestRows →
    h &&& r.mask = r.pattern → h &&& q.mask = q.pattern → r = q) ∧
  ∀ (h : Header) (after : List Byte), payloadLength h ≤ after.length →
    (∀ r ∈ requestRows, h &&& r.mask = r.pattern →
      decodeRequest (bytesOfHeader h ++ after) =
        .instr (assemble r.op h (after.take (payloadLength h))) (after.drop (payloadLength h))) ∧
    ((∀ r ∈ requestRows, h &&& r.mask ≠ r.pattern) →
      decodeRequest (bytesOfHeader h ++ after) = .illegal (rejectReason h) (after.drop (payloadLength h)))

/-- 30_encoding.md R67, 42_controller.md R106: a command byte decodes to a table row exactly when it is that row's
encoding. -/
def Obligations.CommandByteDecodeEncode : Prop :=
  ∀ (b : Byte) (i : Instr), decodeCommand b = some i ↔ encodeCommand i = some b

/-- Headers of the example table of 30_encoding.md section 8 and words of the opcode table decode to their operations and
operands. That a header is given a payload of zeros (the `0` bytes of the WRSTR and WRITE clauses, where the example table
has `41 49` and `41`) is the model's choice (log 15), the byte order on the port log 1, and that `B5` is page-select 5
rests on log 10. -/
def Obligations.SpecWordsDecode : Prop :=
  decodeTableWord 64 0x1050900000000001 = some (.setpx 5#8 9#8 .white) ∧
  decodeTableWord 64 0x17F3F00000000000 = some (.setpx 127#8 63#8 .black) ∧
  decodeTableWord 64 0x2000000000000001 = some (.fill .white) ∧
  decodeTableWord 64 0x3020300000000000 = some (.setcur 2#8 3#8) ∧
  decodeTableWord 64 0x4000041000000005 = some (.wrchar 0x41#8 0#4 .white .black true) ∧
  decodeTableWord 64 0x5000000020000002 = some (.wrstr [0#8, 0#8] 0#4 .black .white false) ∧
  decodeTableWord 64 0x6020300010000009 = some (.write [0#8] 0#4 2#8 3#8 .black .white false true) ∧
  decodeTableWord 64 0x7000000000000000 = some .init ∧ decodeTableWord 64 0x8000000000000000 = some .refresh ∧
  decodeTableWord 64 0x9000000000000000 = some .getw ∧ decodeTableWord 64 0xA000000000000000 = some .geth ∧
  decodeTableWord 8 0xAE = some .cbSleep ∧ decodeTableWord 8 0xB5 = some (.cbPageSelect 5#3) ∧
  decodeTableWord 64 0xB000000000000000 = none ∧ decodeTableWord 64 0x9000000000000001 = none

/-- 30_encoding.md R58, R59, 60_exceptions.md R121: the fields of the response word of an outcome. -/
def Obligations.ResponseFieldsOfOutcome : Prop :=
  (∀ v : Byte, encodeResult (.ok v) = v.setWidth 32) ∧
  ∀ (k : ErrKind) (i : ErrInfo),
    (encodeResult (.err k i)).extractLsb' 28 4 = statusCode k ∧
    (encodeResult (.err k i)).extractLsb' 24 4 = i.phase ∧
    (encodeResult (.err k i)).extractLsb' 16 8 = i.idx ∧
    (encodeResult (.err k i)).extractLsb' 8 8 = i.stage ∧
    (encodeResult (.err k i)).extractLsb' 0 8 = 0#8

/-! ### Steps -/

/-- A step runs the instruction its channels hold (20_memory.md R49): an idle block with no staged byte runs the request
the port decodes to, with its bytes taken; a staged command byte that decodes runs first (log 9). -/
def Obligations.StepRunsDecodedInstruction : Prop :=
  (∀ (s : State) (i : Instr) (rest : List Byte), s.phase = .idle → s.staged = [] →
    decodeRequest s.port = .instr i rest → step s = exec i { s with port := rest }) ∧
  ∀ (s : State) (i : Instr) (b : Byte) (rest : List Byte), s.phase = .idle → s.staged = b :: rest →
    decodeCommand b = some i → step s = exec i { s with staged := rest }

/-- A word placed for the next step is the instruction that step runs (log 15). -/
def Obligations.PlacedWordRunsNext : Prop :=
  ∀ (s : State) (nbits w : Nat) (i : Instr), decodeTableWord nbits w = some i →
    (8 < nbits → step (s.withFetchWord nbits w) = exec i { s with staged := [], phase := .idle }) ∧
    (nbits ≤ 8 → step (s.withFetchWord nbits w) = exec i { s with phase := .idle })

/-- 30_encoding.md R65 (the spec's decision D14): a request whose header matches no row of the opcode map is answered
`F0000000`; its payload, if `op` is 5 or 6, is consumed, and nothing else changes. -/
def Obligations.IllegalHeaderAnswered : Prop :=
  ∀ (s : State) (h : Header) (after : List Byte), s.phase = .idle → s.staged = [] →
    s.port = bytesOfHeader h ++ after → payloadLength h ≤ after.length →
    (∀ r ∈ requestRows, h &&& r.mask ≠ r.pattern) →
    step s = .next { s with port := after.drop (payloadLength h), responses := s.responses ++ [0xF0000000#32] }

/-- 30_encoding.md R65 (the spec's decision D14): a text operation whose `fsel` is not below `NFONTS` is answered
`F0000000` and changes nothing. -/
def Obligations.MissingFontAnswered : Prop :=
  ∀ (s : State) (ch : Byte) (text : List Byte) (fsel : BitVec 4) (x y : Byte) (fg bg : Color) (pad commit : Bool),
    s.cfg.fonts.length ≤ fsel.toNat →
    exec (.wrchar ch fsel fg bg pad) s = .next { s with responses := s.responses ++ [0xF0000000#32] } ∧
    exec (.wrstr text fsel fg bg pad) s = .next { s with responses := s.responses ++ [0xF0000000#32] } ∧
    exec (.write text fsel x y bg fg pad commit) s = .next { s with responses := s.responses ++ [0xF0000000#32] }

/-- 10_state.md R29, 30_encoding.md R66: with no whole header at the port the block waits for a request, and with a
header whose payload has not all arrived it is stuck until it has. -/
def Obligations.ShortRequestWaits : Prop :=
  (∀ s : State, s.phase = .idle → s.staged = [] → s.port.length < 8 → step s = .fault .awaitingRequest) ∧
  ∀ (s : State) (h : Header) (after : List Byte), s.phase = .idle → s.staged = [] →
    s.port = bytesOfHeader h ++ after → after.length < payloadLength h → step s = .fault .awaitingPayload

/-! ### The whole machine -/

/-- 20_memory.md R35, 10_state.md R12: every step keeps the framebuffer in canonical form and within its bounds, `CUR_X`
at most 144 and `CUR_Y` below `H`, from every state that has this. -/
def Obligations.StepKeepsInvariant : Prop := ∀ s t : State, s.Inv → step s = .next t → t.Inv

/-- 20_memory.md R37, 10_state.md R30: no step and no reset of the block changes the fonts or the script. -/
def Obligations.StepKeepsConfiguration : Prop :=
  (∀ s t : State, step s = .next t → t.cfg = s.cfg) ∧ ∀ s : State, s.blockReset.cfg = s.cfg

/-- 30_encoding.md R58, 60_exceptions.md R121, R122: a request is answered by exactly one response word, whose status is
one of 0, 1, 2, 3, 5 and 0xF and never 4, and the block is idle again; or it is stuck in the transport and gives none. -/
def Obligations.RequestGivesOneResponse : Prop :=
  ∀ (s t : State) (i : Instr), s.phase = .idle → i.isRequest = true → exec i s = .next t →
    (t.phase = .idle ∧ ∃ r : ResponseWord, Answered s t r ∧
      r.extractLsb' 28 4 ∈ [0#4, 1#4, 2#4, 3#4, 5#4, 0xF#4]) ∨
    (t.phase = .awaitingTransport ∧ t.responses = s.responses)

/-- 20_memory.md R34, R39, R40: the trace only grows, by exactly one transaction event for each answer used, and only
INIT, REFRESH and a committed WRITE add to it, besides the controller command bytes, which stand alone as instructions by
the model's choice (log 9). -/
def Obligations.TraceGrowsByAnswers : Prop :=
  ∀ (s t : State) (i : Instr), exec i s = .next t →
    (∃ es, t.tx = s.tx ++ es ∧ t.answered = s.answered + transactions es ∧
      t.answers = s.answers.drop (transactions es)) ∧
    (t.tx ≠ s.tx → i = .init ∨ i = .refresh ∨ encodeCommand i ≠ none ∨
      ∃ text fsel x y bg fg pad, i = .write text fsel x y bg fg pad true)

/-- 10_state.md R18: the drawing operations move `LC` at most from Synchronized to Configured. -/
def Obligations.DrawingOnlyMarksStale : Prop :=
  ∀ (s t : State) (i : Instr), i ≠ .init → i ≠ .refresh →
    (∀ text fsel x y bg fg pad, i ≠ .write text fsel x y bg fg pad true) → exec i s = .next t →
    t.lc = s.lc ∨ (s.lc = .synchronized ∧ t.lc = .configured)

/-- 10_state.md R19: no rule reads `LC`: two states that differ in it alone step to states that differ in it alone. -/
def Obligations.LifecycleIsNeverRead : Prop :=
  ∀ (s : State) (l : Lifecycle), mapNext State.forgetLc (step (s.setLc l)) = mapNext State.forgetLc (step s)

/-- 10_state.md R13: the latches are unobservable: two states that differ in them alone step to states that differ in
them alone. -/
def Obligations.LatchesAreNeverRead : Prop :=
  ∀ (s : State) (fsel : BitVec 4) (pad : Bool),
    mapNext State.forgetLatches (step (s.latch fsel pad)) = mapNext State.forgetLatches (step s)

/-- 10_state.md R10, R25: no rule reads `TX`: a state with a longer past steps as the one without it. -/
def Obligations.TraceIsNeverRead : Prop :=
  ∀ (s : State) (past : List TxEvent),
    step (s.withPast past) = mapNext (fun t => t.withPast past) (step s)
end

