-- ==== Sys2Proof/Laws/State.lean ====
section
/-! SUPPORT. One lemma for each field of State under each update, so that no proof unfolds a record update. -/

namespace Sys2Proof.Machine

@[simp] theorem State.setFb_cfg (s : State) (m : Memory) : (s.setFb m).cfg = s.cfg := rfl
@[simp] theorem State.setFb_fb (s : State) (m : Memory) : (s.setFb m).fb = m := rfl
@[simp] theorem State.setFb_curX (s : State) (m : Memory) : (s.setFb m).curX = s.curX := rfl
@[simp] theorem State.setFb_curY (s : State) (m : Memory) : (s.setFb m).curY = s.curY := rfl
@[simp] theorem State.setFb_fontSel (s : State) (m : Memory) : (s.setFb m).fontSel = s.fontSel := rfl
@[simp] theorem State.setFb_padLatch (s : State) (m : Memory) : (s.setFb m).padLatch = s.padLatch := rfl
@[simp] theorem State.setFb_lc (s : State) (m : Memory) : (s.setFb m).lc = s.lc := rfl
@[simp] theorem State.setFb_tx (s : State) (m : Memory) : (s.setFb m).tx = s.tx := rfl
@[simp] theorem State.setFb_port (s : State) (m : Memory) : (s.setFb m).port = s.port := rfl
@[simp] theorem State.setFb_staged (s : State) (m : Memory) : (s.setFb m).staged = s.staged := rfl
@[simp] theorem State.setFb_responses (s : State) (m : Memory) : (s.setFb m).responses = s.responses := rfl
@[simp] theorem State.setFb_answers (s : State) (m : Memory) : (s.setFb m).answers = s.answers := rfl
@[simp] theorem State.setFb_answered (s : State) (m : Memory) : (s.setFb m).answered = s.answered := rfl
@[simp] theorem State.setFb_phase (s : State) (m : Memory) : (s.setFb m).phase = s.phase := rfl

@[simp] theorem State.setCurX_cfg (s : State) (v : Byte) : (s.setCurX v).cfg = s.cfg := rfl
@[simp] theorem State.setCurX_fb (s : State) (v : Byte) : (s.setCurX v).fb = s.fb := rfl
@[simp] theorem State.setCurX_curX (s : State) (v : Byte) : (s.setCurX v).curX = v := rfl
@[simp] theorem State.setCurX_curY (s : State) (v : Byte) : (s.setCurX v).curY = s.curY := rfl
@[simp] theorem State.setCurX_fontSel (s : State) (v : Byte) : (s.setCurX v).fontSel = s.fontSel := rfl
@[simp] theorem State.setCurX_padLatch (s : State) (v : Byte) : (s.setCurX v).padLatch = s.padLatch := rfl
@[simp] theorem State.setCurX_lc (s : State) (v : Byte) : (s.setCurX v).lc = s.lc := rfl
@[simp] theorem State.setCurX_tx (s : State) (v : Byte) : (s.setCurX v).tx = s.tx := rfl
@[simp] theorem State.setCurX_port (s : State) (v : Byte) : (s.setCurX v).port = s.port := rfl
@[simp] theorem State.setCurX_staged (s : State) (v : Byte) : (s.setCurX v).staged = s.staged := rfl
@[simp] theorem State.setCurX_responses (s : State) (v : Byte) : (s.setCurX v).responses = s.responses := rfl
@[simp] theorem State.setCurX_answers (s : State) (v : Byte) : (s.setCurX v).answers = s.answers := rfl
@[simp] theorem State.setCurX_answered (s : State) (v : Byte) : (s.setCurX v).answered = s.answered := rfl
@[simp] theorem State.setCurX_phase (s : State) (v : Byte) : (s.setCurX v).phase = s.phase := rfl

@[simp] theorem State.setCurY_cfg (s : State) (v : Byte) : (s.setCurY v).cfg = s.cfg := rfl
@[simp] theorem State.setCurY_fb (s : State) (v : Byte) : (s.setCurY v).fb = s.fb := rfl
@[simp] theorem State.setCurY_curX (s : State) (v : Byte) : (s.setCurY v).curX = s.curX := rfl
@[simp] theorem State.setCurY_curY (s : State) (v : Byte) : (s.setCurY v).curY = v := rfl
@[simp] theorem State.setCurY_fontSel (s : State) (v : Byte) : (s.setCurY v).fontSel = s.fontSel := rfl
@[simp] theorem State.setCurY_padLatch (s : State) (v : Byte) : (s.setCurY v).padLatch = s.padLatch := rfl
@[simp] theorem State.setCurY_lc (s : State) (v : Byte) : (s.setCurY v).lc = s.lc := rfl
@[simp] theorem State.setCurY_tx (s : State) (v : Byte) : (s.setCurY v).tx = s.tx := rfl
@[simp] theorem State.setCurY_port (s : State) (v : Byte) : (s.setCurY v).port = s.port := rfl
@[simp] theorem State.setCurY_staged (s : State) (v : Byte) : (s.setCurY v).staged = s.staged := rfl
@[simp] theorem State.setCurY_responses (s : State) (v : Byte) : (s.setCurY v).responses = s.responses := rfl
@[simp] theorem State.setCurY_answers (s : State) (v : Byte) : (s.setCurY v).answers = s.answers := rfl
@[simp] theorem State.setCurY_answered (s : State) (v : Byte) : (s.setCurY v).answered = s.answered := rfl
@[simp] theorem State.setCurY_phase (s : State) (v : Byte) : (s.setCurY v).phase = s.phase := rfl

@[simp] theorem State.latch_cfg (s : State) (fsel : BitVec 4) (pad : Bool) : (s.latch fsel pad).cfg = s.cfg := rfl
@[simp] theorem State.latch_fb (s : State) (fsel : BitVec 4) (pad : Bool) : (s.latch fsel pad).fb = s.fb := rfl
@[simp] theorem State.latch_curX (s : State) (fsel : BitVec 4) (pad : Bool) : (s.latch fsel pad).curX = s.curX := rfl
@[simp] theorem State.latch_curY (s : State) (fsel : BitVec 4) (pad : Bool) : (s.latch fsel pad).curY = s.curY := rfl
@[simp] theorem State.latch_fontSel (s : State) (fsel : BitVec 4) (pad : Bool) : (s.latch fsel pad).fontSel = fsel := rfl
@[simp] theorem State.latch_padLatch (s : State) (fsel : BitVec 4) (pad : Bool) : (s.latch fsel pad).padLatch = pad := rfl
@[simp] theorem State.latch_lc (s : State) (fsel : BitVec 4) (pad : Bool) : (s.latch fsel pad).lc = s.lc := rfl
@[simp] theorem State.latch_tx (s : State) (fsel : BitVec 4) (pad : Bool) : (s.latch fsel pad).tx = s.tx := rfl
@[simp] theorem State.latch_port (s : State) (fsel : BitVec 4) (pad : Bool) : (s.latch fsel pad).port = s.port := rfl
@[simp] theorem State.latch_staged (s : State) (fsel : BitVec 4) (pad : Bool) : (s.latch fsel pad).staged = s.staged := rfl
@[simp] theorem State.latch_responses (s : State) (fsel : BitVec 4) (pad : Bool) : (s.latch fsel pad).responses = s.responses := rfl
@[simp] theorem State.latch_answers (s : State) (fsel : BitVec 4) (pad : Bool) : (s.latch fsel pad).answers = s.answers := rfl
@[simp] theorem State.latch_answered (s : State) (fsel : BitVec 4) (pad : Bool) : (s.latch fsel pad).answered = s.answered := rfl
@[simp] theorem State.latch_phase (s : State) (fsel : BitVec 4) (pad : Bool) : (s.latch fsel pad).phase = s.phase := rfl

@[simp] theorem State.setLc_cfg (s : State) (l : Lifecycle) : (s.setLc l).cfg = s.cfg := rfl
@[simp] theorem State.setLc_fb (s : State) (l : Lifecycle) : (s.setLc l).fb = s.fb := rfl
@[simp] theorem State.setLc_curX (s : State) (l : Lifecycle) : (s.setLc l).curX = s.curX := rfl
@[simp] theorem State.setLc_curY (s : State) (l : Lifecycle) : (s.setLc l).curY = s.curY := rfl
@[simp] theorem State.setLc_fontSel (s : State) (l : Lifecycle) : (s.setLc l).fontSel = s.fontSel := rfl
@[simp] theorem State.setLc_padLatch (s : State) (l : Lifecycle) : (s.setLc l).padLatch = s.padLatch := rfl
@[simp] theorem State.setLc_lc (s : State) (l : Lifecycle) : (s.setLc l).lc = l := rfl
@[simp] theorem State.setLc_tx (s : State) (l : Lifecycle) : (s.setLc l).tx = s.tx := rfl
@[simp] theorem State.setLc_port (s : State) (l : Lifecycle) : (s.setLc l).port = s.port := rfl
@[simp] theorem State.setLc_staged (s : State) (l : Lifecycle) : (s.setLc l).staged = s.staged := rfl
@[simp] theorem State.setLc_responses (s : State) (l : Lifecycle) : (s.setLc l).responses = s.responses := rfl
@[simp] theorem State.setLc_answers (s : State) (l : Lifecycle) : (s.setLc l).answers = s.answers := rfl
@[simp] theorem State.setLc_answered (s : State) (l : Lifecycle) : (s.setLc l).answered = s.answered := rfl
@[simp] theorem State.setLc_phase (s : State) (l : Lifecycle) : (s.setLc l).phase = s.phase := rfl

@[simp] theorem State.pushTx_cfg (s : State) (es : List TxEvent) : (s.pushTx es).cfg = s.cfg := rfl
@[simp] theorem State.pushTx_fb (s : State) (es : List TxEvent) : (s.pushTx es).fb = s.fb := rfl
@[simp] theorem State.pushTx_curX (s : State) (es : List TxEvent) : (s.pushTx es).curX = s.curX := rfl
@[simp] theorem State.pushTx_curY (s : State) (es : List TxEvent) : (s.pushTx es).curY = s.curY := rfl
@[simp] theorem State.pushTx_fontSel (s : State) (es : List TxEvent) : (s.pushTx es).fontSel = s.fontSel := rfl
@[simp] theorem State.pushTx_padLatch (s : State) (es : List TxEvent) : (s.pushTx es).padLatch = s.padLatch := rfl
@[simp] theorem State.pushTx_lc (s : State) (es : List TxEvent) : (s.pushTx es).lc = s.lc := rfl
@[simp] theorem State.pushTx_tx (s : State) (es : List TxEvent) : (s.pushTx es).tx = s.tx ++ es := rfl
@[simp] theorem State.pushTx_port (s : State) (es : List TxEvent) : (s.pushTx es).port = s.port := rfl
@[simp] theorem State.pushTx_staged (s : State) (es : List TxEvent) : (s.pushTx es).staged = s.staged := rfl
@[simp] theorem State.pushTx_responses (s : State) (es : List TxEvent) : (s.pushTx es).responses = s.responses := rfl
@[simp] theorem State.pushTx_answers (s : State) (es : List TxEvent) : (s.pushTx es).answers = s.answers := rfl
@[simp] theorem State.pushTx_answered (s : State) (es : List TxEvent) : (s.pushTx es).answered = s.answered := rfl
@[simp] theorem State.pushTx_phase (s : State) (es : List TxEvent) : (s.pushTx es).phase = s.phase := rfl

@[simp] theorem State.pushResponse_cfg (s : State) (r : ResponseWord) : (s.pushResponse r).cfg = s.cfg := rfl
@[simp] theorem State.pushResponse_fb (s : State) (r : ResponseWord) : (s.pushResponse r).fb = s.fb := rfl
@[simp] theorem State.pushResponse_curX (s : State) (r : ResponseWord) : (s.pushResponse r).curX = s.curX := rfl
@[simp] theorem State.pushResponse_curY (s : State) (r : ResponseWord) : (s.pushResponse r).curY = s.curY := rfl
@[simp] theorem State.pushResponse_fontSel (s : State) (r : ResponseWord) : (s.pushResponse r).fontSel = s.fontSel := rfl
@[simp] theorem State.pushResponse_padLatch (s : State) (r : ResponseWord) : (s.pushResponse r).padLatch = s.padLatch := rfl
@[simp] theorem State.pushResponse_lc (s : State) (r : ResponseWord) : (s.pushResponse r).lc = s.lc := rfl
@[simp] theorem State.pushResponse_tx (s : State) (r : ResponseWord) : (s.pushResponse r).tx = s.tx := rfl
@[simp] theorem State.pushResponse_port (s : State) (r : ResponseWord) : (s.pushResponse r).port = s.port := rfl
@[simp] theorem State.pushResponse_staged (s : State) (r : ResponseWord) : (s.pushResponse r).staged = s.staged := rfl
@[simp] theorem State.pushResponse_responses (s : State) (r : ResponseWord) : (s.pushResponse r).responses = s.responses ++ [r] := rfl
@[simp] theorem State.pushResponse_answers (s : State) (r : ResponseWord) : (s.pushResponse r).answers = s.answers := rfl
@[simp] theorem State.pushResponse_answered (s : State) (r : ResponseWord) : (s.pushResponse r).answered = s.answered := rfl
@[simp] theorem State.pushResponse_phase (s : State) (r : ResponseWord) : (s.pushResponse r).phase = s.phase := rfl

@[simp] theorem State.takeAnswer_cfg (s : State) : (s.takeAnswer).cfg = s.cfg := rfl
@[simp] theorem State.takeAnswer_fb (s : State) : (s.takeAnswer).fb = s.fb := rfl
@[simp] theorem State.takeAnswer_curX (s : State) : (s.takeAnswer).curX = s.curX := rfl
@[simp] theorem State.takeAnswer_curY (s : State) : (s.takeAnswer).curY = s.curY := rfl
@[simp] theorem State.takeAnswer_fontSel (s : State) : (s.takeAnswer).fontSel = s.fontSel := rfl
@[simp] theorem State.takeAnswer_padLatch (s : State) : (s.takeAnswer).padLatch = s.padLatch := rfl
@[simp] theorem State.takeAnswer_lc (s : State) : (s.takeAnswer).lc = s.lc := rfl
@[simp] theorem State.takeAnswer_tx (s : State) : (s.takeAnswer).tx = s.tx := rfl
@[simp] theorem State.takeAnswer_port (s : State) : (s.takeAnswer).port = s.port := rfl
@[simp] theorem State.takeAnswer_staged (s : State) : (s.takeAnswer).staged = s.staged := rfl
@[simp] theorem State.takeAnswer_responses (s : State) : (s.takeAnswer).responses = s.responses := rfl
@[simp] theorem State.takeAnswer_answers (s : State) : (s.takeAnswer).answers = s.answers.tail := rfl
@[simp] theorem State.takeAnswer_answered (s : State) : (s.takeAnswer).answered = s.answered + 1 := rfl
@[simp] theorem State.takeAnswer_phase (s : State) : (s.takeAnswer).phase = s.phase := rfl

@[simp] theorem State.setPhase_cfg (s : State) (p : Phase) : (s.setPhase p).cfg = s.cfg := rfl
@[simp] theorem State.setPhase_fb (s : State) (p : Phase) : (s.setPhase p).fb = s.fb := rfl
@[simp] theorem State.setPhase_curX (s : State) (p : Phase) : (s.setPhase p).curX = s.curX := rfl
@[simp] theorem State.setPhase_curY (s : State) (p : Phase) : (s.setPhase p).curY = s.curY := rfl
@[simp] theorem State.setPhase_fontSel (s : State) (p : Phase) : (s.setPhase p).fontSel = s.fontSel := rfl
@[simp] theorem State.setPhase_padLatch (s : State) (p : Phase) : (s.setPhase p).padLatch = s.padLatch := rfl
@[simp] theorem State.setPhase_lc (s : State) (p : Phase) : (s.setPhase p).lc = s.lc := rfl
@[simp] theorem State.setPhase_tx (s : State) (p : Phase) : (s.setPhase p).tx = s.tx := rfl
@[simp] theorem State.setPhase_port (s : State) (p : Phase) : (s.setPhase p).port = s.port := rfl
@[simp] theorem State.setPhase_staged (s : State) (p : Phase) : (s.setPhase p).staged = s.staged := rfl
@[simp] theorem State.setPhase_responses (s : State) (p : Phase) : (s.setPhase p).responses = s.responses := rfl
@[simp] theorem State.setPhase_answers (s : State) (p : Phase) : (s.setPhase p).answers = s.answers := rfl
@[simp] theorem State.setPhase_answered (s : State) (p : Phase) : (s.setPhase p).answered = s.answered := rfl
@[simp] theorem State.setPhase_phase (s : State) (p : Phase) : (s.setPhase p).phase = p := rfl

@[simp] theorem State.setPort_cfg (s : State) (bytes : List Byte) : (s.setPort bytes).cfg = s.cfg := rfl
@[simp] theorem State.setPort_fb (s : State) (bytes : List Byte) : (s.setPort bytes).fb = s.fb := rfl
@[simp] theorem State.setPort_curX (s : State) (bytes : List Byte) : (s.setPort bytes).curX = s.curX := rfl
@[simp] theorem State.setPort_curY (s : State) (bytes : List Byte) : (s.setPort bytes).curY = s.curY := rfl
@[simp] theorem State.setPort_fontSel (s : State) (bytes : List Byte) : (s.setPort bytes).fontSel = s.fontSel := rfl
@[simp] theorem State.setPort_padLatch (s : State) (bytes : List Byte) : (s.setPort bytes).padLatch = s.padLatch := rfl
@[simp] theorem State.setPort_lc (s : State) (bytes : List Byte) : (s.setPort bytes).lc = s.lc := rfl
@[simp] theorem State.setPort_tx (s : State) (bytes : List Byte) : (s.setPort bytes).tx = s.tx := rfl
@[simp] theorem State.setPort_port (s : State) (bytes : List Byte) : (s.setPort bytes).port = bytes := rfl
@[simp] theorem State.setPort_staged (s : State) (bytes : List Byte) : (s.setPort bytes).staged = s.staged := rfl
@[simp] theorem State.setPort_responses (s : State) (bytes : List Byte) : (s.setPort bytes).responses = s.responses := rfl
@[simp] theorem State.setPort_answers (s : State) (bytes : List Byte) : (s.setPort bytes).answers = s.answers := rfl
@[simp] theorem State.setPort_answered (s : State) (bytes : List Byte) : (s.setPort bytes).answered = s.answered := rfl
@[simp] theorem State.setPort_phase (s : State) (bytes : List Byte) : (s.setPort bytes).phase = s.phase := rfl

@[simp] theorem State.setStaged_cfg (s : State) (bytes : List Byte) : (s.setStaged bytes).cfg = s.cfg := rfl
@[simp] theorem State.setStaged_fb (s : State) (bytes : List Byte) : (s.setStaged bytes).fb = s.fb := rfl
@[simp] theorem State.setStaged_curX (s : State) (bytes : List Byte) : (s.setStaged bytes).curX = s.curX := rfl
@[simp] theorem State.setStaged_curY (s : State) (bytes : List Byte) : (s.setStaged bytes).curY = s.curY := rfl
@[simp] theorem State.setStaged_fontSel (s : State) (bytes : List Byte) : (s.setStaged bytes).fontSel = s.fontSel := rfl
@[simp] theorem State.setStaged_padLatch (s : State) (bytes : List Byte) : (s.setStaged bytes).padLatch = s.padLatch := rfl
@[simp] theorem State.setStaged_lc (s : State) (bytes : List Byte) : (s.setStaged bytes).lc = s.lc := rfl
@[simp] theorem State.setStaged_tx (s : State) (bytes : List Byte) : (s.setStaged bytes).tx = s.tx := rfl
@[simp] theorem State.setStaged_port (s : State) (bytes : List Byte) : (s.setStaged bytes).port = s.port := rfl
@[simp] theorem State.setStaged_staged (s : State) (bytes : List Byte) : (s.setStaged bytes).staged = bytes := rfl
@[simp] theorem State.setStaged_responses (s : State) (bytes : List Byte) : (s.setStaged bytes).responses = s.responses := rfl
@[simp] theorem State.setStaged_answers (s : State) (bytes : List Byte) : (s.setStaged bytes).answers = s.answers := rfl
@[simp] theorem State.setStaged_answered (s : State) (bytes : List Byte) : (s.setStaged bytes).answered = s.answered := rfl
@[simp] theorem State.setStaged_phase (s : State) (bytes : List Byte) : (s.setStaged bytes).phase = s.phase := rfl

@[simp] theorem State.setCursor_cfg (s : State) (x y : Byte) : (s.setCursor x y).cfg = s.cfg := rfl
@[simp] theorem State.setCursor_fb (s : State) (x y : Byte) : (s.setCursor x y).fb = s.fb := rfl
@[simp] theorem State.setCursor_curX (s : State) (x y : Byte) : (s.setCursor x y).curX = x := rfl
@[simp] theorem State.setCursor_curY (s : State) (x y : Byte) : (s.setCursor x y).curY = y := rfl
@[simp] theorem State.setCursor_fontSel (s : State) (x y : Byte) : (s.setCursor x y).fontSel = s.fontSel := rfl
@[simp] theorem State.setCursor_padLatch (s : State) (x y : Byte) : (s.setCursor x y).padLatch = s.padLatch := rfl
@[simp] theorem State.setCursor_lc (s : State) (x y : Byte) : (s.setCursor x y).lc = s.lc := rfl
@[simp] theorem State.setCursor_tx (s : State) (x y : Byte) : (s.setCursor x y).tx = s.tx := rfl
@[simp] theorem State.setCursor_port (s : State) (x y : Byte) : (s.setCursor x y).port = s.port := rfl
@[simp] theorem State.setCursor_staged (s : State) (x y : Byte) : (s.setCursor x y).staged = s.staged := rfl
@[simp] theorem State.setCursor_responses (s : State) (x y : Byte) : (s.setCursor x y).responses = s.responses := rfl
@[simp] theorem State.setCursor_answers (s : State) (x y : Byte) : (s.setCursor x y).answers = s.answers := rfl
@[simp] theorem State.setCursor_answered (s : State) (x y : Byte) : (s.setCursor x y).answered = s.answered := rfl
@[simp] theorem State.setCursor_phase (s : State) (x y : Byte) : (s.setCursor x y).phase = s.phase := rfl

@[simp] theorem State.dirty_cfg (s : State) : s.dirty.cfg = s.cfg := by unfold State.dirty; split <;> rfl
@[simp] theorem State.dirty_fb (s : State) : s.dirty.fb = s.fb := by unfold State.dirty; split <;> rfl
@[simp] theorem State.dirty_curX (s : State) : s.dirty.curX = s.curX := by unfold State.dirty; split <;> rfl
@[simp] theorem State.dirty_curY (s : State) : s.dirty.curY = s.curY := by unfold State.dirty; split <;> rfl
@[simp] theorem State.dirty_fontSel (s : State) : s.dirty.fontSel = s.fontSel := by unfold State.dirty; split <;> rfl
@[simp] theorem State.dirty_padLatch (s : State) : s.dirty.padLatch = s.padLatch := by unfold State.dirty; split <;> rfl
@[simp] theorem State.dirty_tx (s : State) : s.dirty.tx = s.tx := by unfold State.dirty; split <;> rfl
@[simp] theorem State.dirty_port (s : State) : s.dirty.port = s.port := by unfold State.dirty; split <;> rfl
@[simp] theorem State.dirty_staged (s : State) : s.dirty.staged = s.staged := by unfold State.dirty; split <;> rfl
@[simp] theorem State.dirty_responses (s : State) : s.dirty.responses = s.responses := by unfold State.dirty; split <;> rfl
@[simp] theorem State.dirty_answers (s : State) : s.dirty.answers = s.answers := by unfold State.dirty; split <;> rfl
@[simp] theorem State.dirty_answered (s : State) : s.dirty.answered = s.answered := by unfold State.dirty; split <;> rfl
@[simp] theorem State.dirty_phase (s : State) : s.dirty.phase = s.phase := by unfold State.dirty; split <;> rfl
@[simp] theorem State.dirty_lc (s : State) : s.dirty.lc = dirtied s.lc := by
  unfold State.dirty dirtied; split <;> rfl

@[simp] theorem State.lcAfterRefresh_cfg (s : State) (l : Lifecycle) : (s.lcAfterRefresh l).cfg = s.cfg := by
  unfold State.lcAfterRefresh; split <;> rfl
@[simp] theorem State.lcAfterRefresh_fb (s : State) (l : Lifecycle) : (s.lcAfterRefresh l).fb = s.fb := by
  unfold State.lcAfterRefresh; split <;> rfl
@[simp] theorem State.lcAfterRefresh_curX (s : State) (l : Lifecycle) : (s.lcAfterRefresh l).curX = s.curX := by
  unfold State.lcAfterRefresh; split <;> rfl
@[simp] theorem State.lcAfterRefresh_curY (s : State) (l : Lifecycle) : (s.lcAfterRefresh l).curY = s.curY := by
  unfold State.lcAfterRefresh; split <;> rfl
@[simp] theorem State.lcAfterRefresh_fontSel (s : State) (l : Lifecycle) : (s.lcAfterRefresh l).fontSel = s.fontSel := by
  unfold State.lcAfterRefresh; split <;> rfl
@[simp] theorem State.lcAfterRefresh_padLatch (s : State) (l : Lifecycle) : (s.lcAfterRefresh l).padLatch = s.padLatch := by
  unfold State.lcAfterRefresh; split <;> rfl
@[simp] theorem State.lcAfterRefresh_tx (s : State) (l : Lifecycle) : (s.lcAfterRefresh l).tx = s.tx := by
  unfold State.lcAfterRefresh; split <;> rfl
@[simp] theorem State.lcAfterRefresh_port (s : State) (l : Lifecycle) : (s.lcAfterRefresh l).port = s.port := by
  unfold State.lcAfterRefresh; split <;> rfl
@[simp] theorem State.lcAfterRefresh_staged (s : State) (l : Lifecycle) : (s.lcAfterRefresh l).staged = s.staged := by
  unfold State.lcAfterRefresh; split <;> rfl
@[simp] theorem State.lcAfterRefresh_responses (s : State) (l : Lifecycle) : (s.lcAfterRefresh l).responses = s.responses := by
  unfold State.lcAfterRefresh; split <;> rfl
@[simp] theorem State.lcAfterRefresh_answers (s : State) (l : Lifecycle) : (s.lcAfterRefresh l).answers = s.answers := by
  unfold State.lcAfterRefresh; split <;> rfl
@[simp] theorem State.lcAfterRefresh_answered (s : State) (l : Lifecycle) : (s.lcAfterRefresh l).answered = s.answered := by
  unfold State.lcAfterRefresh; split <;> rfl
@[simp] theorem State.lcAfterRefresh_phase (s : State) (l : Lifecycle) : (s.lcAfterRefresh l).phase = s.phase := by
  unfold State.lcAfterRefresh; split <;> rfl
@[simp] theorem State.lcAfterRefresh_lc (s : State) (l : Lifecycle) : (s.lcAfterRefresh l).lc = refreshed l s.lc := by
  unfold State.lcAfterRefresh refreshed; split <;> rfl

end Sys2Proof.Machine
end

