-- ==== Sys2Proof/Laws/Blind.lean ====
section
/-! SUPPORT. What an operation does not read, said once: a relation between states that every update keeps and whose
states agree on what the operations read is kept by every instruction. -/

namespace Sys2Proof.Machine

/-- Related states agree on what operations read, and every update keeps the relation. -/
structure Blind (R : State → State → Prop) : Prop where
  cfg : ∀ s t, R s t → s.cfg = t.cfg
  fb : ∀ s t, R s t → s.fb = t.fb
  curX : ∀ s t, R s t → s.curX = t.curX
  curY : ∀ s t, R s t → s.curY = t.curY
  answers : ∀ s t, R s t → s.answers = t.answers
  answered : ∀ s t, R s t → s.answered = t.answered
  setFb_dirty : ∀ s t m, R s t → R (s.setFb m).dirty (t.setFb m).dirty
  setCurX : ∀ s t v, R s t → R (s.setCurX v) (t.setCurX v)
  setCurY : ∀ s t v, R s t → R (s.setCurY v) (t.setCurY v)
  latch : ∀ s t fsel pad, R s t → R (s.latch fsel pad) (t.latch fsel pad)
  setLc : ∀ s t l, R s t → R (s.setLc l) (t.setLc l)
  lcAfterRefresh : ∀ s t l, R s t → R (s.lcAfterRefresh l) (t.lcAfterRefresh l)
  pushTx : ∀ s t es, R s t → R (s.pushTx es) (t.pushTx es)
  takeAnswer : ∀ s t, R s t → R s.takeAnswer t.takeAnswer
  setPhase : ∀ s t p, R s t → R (s.setPhase p) (t.setPhase p)
  pushResponse : ∀ s t r, R s t → R (s.pushResponse r) (t.pushResponse r)

/-- Two sub-operations end alike in related states. -/
def Alike (R : State → State → Prop) (a b : State × Option Halt) : Prop := R a.1 b.1 ∧ a.2 = b.2

variable {R : State → State → Prop}

theorem Alike.andThen {a b : State × Option Halt} {c d : State → State × Option Halt} (h : Alike R a b)
    (hcd : ∀ s t, R s t → Alike R (c s) (d t)) : Alike R (andThen a c) (Machine.andThen b d) := by
  obtain ⟨s, o⟩ := a
  obtain ⟨t, o'⟩ := b
  obtain ⟨hst, ho⟩ := h
  simp only at hst ho
  subst ho
  cases o with
  | none => exact hcd s t hst
  | some o => exact ⟨hst, rfl⟩

theorem Blind.paint (hR : Blind R) (dots : List Dot) {s t : State} (h : R s t) :
    Alike R (paint dots s) (Machine.paint dots t) := by
  induction dots generalizing s t with
  | nil => exact ⟨h, rfl⟩
  | cons d rest ih =>
    simp only [Machine.paint, hR.fb s t h]
    split
    · exact ih (hR.setFb_dirty s t _ h)
    · exact ⟨h, rfl⟩

theorem Blind.padColumn (hR : Blind R) (f : Font) (bg : Color) {s t : State} (h : R s t) :
    Alike R (padColumn f bg s) (Machine.padColumn f bg t) := by
  unfold Machine.padColumn
  rw [hR.curX s t h, hR.curY s t h]
  exact (hR.paint _ h).andThen fun s t h => ⟨by rw [hR.curX s t h]; exact hR.setCurX s t _ h, rfl⟩

theorem Blind.glyphRows (hR : Blind R) (f : Font) (ch : Byte) (fg bg : Color) (rows : List Nat) {s t : State}
    (h : R s t) : Alike R (glyphRows f ch fg bg rows s) (Machine.glyphRows f ch fg bg rows t) := by
  induction rows generalizing s t with
  | nil => exact ⟨h, rfl⟩
  | cons r rest ih =>
    simp only [Machine.glyphRows, hR.curX s t h, hR.curY s t h]
    split
    · exact ⟨h, rfl⟩
    · exact (hR.paint _ h).andThen fun s t h => ih h

theorem Blind.writeGlyph (hR : Blind R) (fsel : BitVec 4) (f : Font) (ch : Byte) (fg bg : Color) (pad : Bool)
    {s t : State} (h : R s t) :
    Alike R (writeGlyph fsel f ch fg bg pad s) (Machine.writeGlyph fsel f ch fg bg pad t) := by
  have hl := hR.latch s t fsel pad h
  unfold Machine.writeGlyph
  rw [hR.curX s t h, hR.curY s t h]
  split
  · exact ⟨hl, rfl⟩
  · refine Alike.andThen ?_ fun s t h => (hR.glyphRows f ch fg bg _ h).andThen fun s t h => ⟨?_, rfl⟩
    · split
      · exact hR.padColumn f bg hl
      · exact ⟨hl, rfl⟩
    · unfold advanceCursor
      rw [hR.curX s t h]
      exact hR.setCurX s t _ h

theorem Blind.writeChars (hR : Blind R) (fsel : BitVec 4) (f : Font) (fg bg : Color) (pad : Bool) (k : Nat)
    (text : List Byte) {s t : State} (h : R s t) :
    Alike R (writeChars fsel f fg bg pad k text s) (Machine.writeChars fsel f fg bg pad k text t) := by
  induction text generalizing k s t with
  | nil => exact ⟨h, rfl⟩
  | cons c rest ih =>
    simp only [Machine.writeChars]
    have hg := hR.writeGlyph fsel f c fg bg pad h
    revert hg
    generalize Machine.writeGlyph fsel f c fg bg pad s = a
    generalize Machine.writeGlyph fsel f c fg bg pad t = b
    obtain ⟨u, o⟩ := a
    obtain ⟨v, o'⟩ := b
    rintro ⟨huv, ho⟩
    simp only at huv ho
    subst ho
    cases o with
    | none => exact ih (k + 1) huv
    | some o => exact ⟨huv, rfl⟩

theorem Blind.writeText (hR : Blind R) (fsel : BitVec 4) (f : Font) (text : List Byte) (fg bg : Color) (pad : Bool)
    {s t : State} (h : R s t) :
    Alike R (writeText fsel f text fg bg pad s) (Machine.writeText fsel f text fg bg pad t) :=
  hR.writeChars fsel f fg bg pad 0 text (hR.latch s t fsel pad h)

theorem Blind.placeCursor (hR : Blind R) (x y : Byte) {s t : State} (h : R s t) :
    Alike R (placeCursor x y s) (Machine.placeCursor x y t) := by
  unfold Machine.placeCursor
  split
  · exact ⟨hR.setCurY _ _ y (hR.setCurX s t x h), rfl⟩
  · exact ⟨h, rfl⟩

theorem Blind.fillFrame (hR : Blind R) (c : Color) {s t : State} (h : R s t) :
    R (fillFrame c s) (Machine.fillFrame c t) := hR.setFb_dirty s t _ h

theorem Blind.answerAt (hR : Blind R) {s t : State} (h : R s t) (k : Nat) : s.answerAt k = t.answerAt k := by
  simp only [State.answerAt, hR.answers s t h, hR.answered s t h]

theorem Blind.transact (hR : Blind R) (e : Reply → TxEvent) {s t : State} (h : R s t) :
    R (transact e s).1 (Machine.transact e t).1 ∧ (Machine.transact e s).2 = (Machine.transact e t).2 := by
  unfold Machine.transact
  rw [hR.answerAt h]
  split
  · exact ⟨hR.pushTx _ _ _ (hR.takeAnswer s t h), rfl⟩
  · exact ⟨hR.setPhase s t _ h, rfl⟩

theorem Blind.orFailStage (hR : Blind R) (stage : Nat) (e : Reply → TxEvent) {s t : State} (h : R s t) :
    Alike R (orFailStage stage (Machine.transact e s)) (Machine.orFailStage stage (Machine.transact e t)) := by
  have hg := hR.transact e h
  revert hg
  generalize Machine.transact e s = a
  generalize Machine.transact e t = b
  obtain ⟨u, o⟩ := a
  obtain ⟨v, o'⟩ := b
  rintro ⟨huv, ho⟩
  simp only at huv ho
  subst ho
  rcases o with _ | (_ | _) <;> exact ⟨huv, rfl⟩

theorem Blind.sendScript (hR : Blind R) (i : Nat) (bytes : List Byte) {s t : State} (h : R s t) :
    Alike R (sendScript i bytes s) (Machine.sendScript i bytes t) := by
  induction bytes generalizing i s t with
  | nil => exact ⟨h, rfl⟩
  | cons b rest ih => exact (hR.orFailStage i _ h).andThen fun s t h => ih (i + 1) h

theorem Blind.refreshPage (hR : Blind R) (p : Nat) {s t : State} (h : R s t) :
    Alike R (refreshPage p s) (Machine.refreshPage p t) := by
  unfold Machine.refreshPage
  refine (hR.orFailStage _ _ h).andThen fun s t h => (hR.orFailStage _ _ h).andThen fun s t h =>
    (hR.orFailStage _ _ h).andThen fun s t h => ?_
  rw [hR.fb s t h]
  exact hR.orFailStage _ _ h

theorem Blind.refreshPages (hR : Blind R) (pages : List Nat) {s t : State} (h : R s t) :
    Alike R (refreshPages pages s) (Machine.refreshPages pages t) := by
  induction pages generalizing s t with
  | nil => exact ⟨h, rfl⟩
  | cons p rest ih => exact (hR.refreshPage p h).andThen fun s t h => ih h

theorem Blind.refreshAll (hR : Blind R) {s t : State} (h : R s t) :
    Alike R (refreshAll s) (Machine.refreshAll t) := by
  have hg := hR.refreshPages (List.range NPAGES) h
  unfold Machine.refreshAll
  revert hg
  generalize Machine.refreshPages (List.range NPAGES) s = a
  generalize Machine.refreshPages (List.range NPAGES) t = b
  obtain ⟨u, o⟩ := a
  obtain ⟨v, o'⟩ := b
  rintro ⟨huv, ho⟩
  simp only at huv ho
  subst ho
  rcases o with _ | (_ | _)
  · exact ⟨hR.lcAfterRefresh u v _ huv, rfl⟩
  · exact ⟨hR.lcAfterRefresh u v _ huv, rfl⟩
  · exact ⟨huv, rfl⟩

theorem Blind.lcAfterInit (hR : Blind R) {a b : State × Option Halt} (h : Alike R a b) :
    Alike R (lcAfterInit a) (Machine.lcAfterInit b) := by
  obtain ⟨u, o⟩ := a
  obtain ⟨v, o'⟩ := b
  obtain ⟨huv, ho⟩ := h
  simp only at huv ho
  subst ho
  rcases o with _ | (_ | _)
  · exact ⟨hR.setLc u v _ huv, rfl⟩
  · exact ⟨hR.setLc u v _ huv, rfl⟩
  · exact ⟨huv, rfl⟩

theorem Blind.inPart {a b : State × Option Halt} (p : BitVec 4) (h : Alike R a b) :
    Alike R (inPart p a) (Machine.inPart p b) := by
  obtain ⟨u, o⟩ := a
  obtain ⟨v, o'⟩ := b
  obtain ⟨huv, ho⟩ := h
  simp only at huv ho
  subst ho
  cases o <;> exact ⟨huv, rfl⟩

theorem Blind.writeParts (hR : Blind R) (text : List Byte) (fsel : BitVec 4) (f : Font) (x y : Byte) (bg fg : Color)
    (pad commit : Bool) {s t : State} (h : R s t) :
    Alike R (writeParts text fsel f x y bg fg pad commit s)
      (Machine.writeParts text fsel f x y bg fg pad commit t) := by
  have h0 := hR.setCurY _ _ 0#8 (hR.setCurX _ _ 0#8 (hR.fillFrame bg (hR.latch s t fsel pad h)))
  refine (Blind.inPart _ (hR.placeCursor x y h0)).andThen fun s t h =>
    (Blind.inPart _ (hR.writeText fsel f text fg bg pad h)).andThen fun s t h => ?_
  split
  · exact Blind.inPart _ (hR.refreshAll h)
  · exact ⟨h, rfl⟩

theorem Blind.finish (hR : Blind R) (v : Byte) {a b : State × Option Halt} (h : Alike R a b) :
    R (finish v a) (Machine.finish v b) := by
  obtain ⟨u, o⟩ := a
  obtain ⟨w, o'⟩ := b
  obtain ⟨huw, ho⟩ := h
  simp only at huw ho
  subst ho
  rcases o with _ | (_ | _)
  · exact hR.pushResponse u w _ huw
  · exact hR.pushResponse u w _ huw
  · exact huw

theorem Blind.withFont (hR : Blind R) (fsel : BitVec 4) {s t : State} {c d : Font → State} (h : R s t)
    (hcd : ∀ f, R (c f) (d f)) : R (withFont fsel s c) (Machine.withFont fsel t d) := by
  unfold Machine.withFont
  rw [hR.cfg s t h]
  split
  · exact hcd _
  · exact hR.pushResponse s t _ h

/-- Every instruction takes related states to related states. -/
theorem Blind.exec (hR : Blind R) (i : Instr) {s t : State} (h : R s t) :
    ∃ s' t', exec i s = .next s' ∧ Machine.exec i t = .next t' ∧ R s' t' := by
  cases i with
  | setpx x y c => exact ⟨_, _, rfl, rfl, hR.finish _ (hR.paint _ h)⟩
  | fill c => exact ⟨_, _, rfl, rfl, hR.pushResponse _ _ _ (hR.fillFrame c h)⟩
  | setcur x y => exact ⟨_, _, rfl, rfl, hR.finish _ (hR.placeCursor x y h)⟩
  | wrchar ch fsel fg bg pad =>
    exact ⟨_, _, rfl, rfl, hR.withFont fsel h fun f => hR.finish _ (hR.writeGlyph fsel f ch fg bg pad h)⟩
  | wrstr text fsel fg bg pad =>
    exact ⟨_, _, rfl, rfl, hR.withFont fsel h fun f => hR.finish _ (hR.writeText fsel f text fg bg pad h)⟩
  | write text fsel x y bg fg pad commit =>
    exact ⟨_, _, rfl, rfl, hR.withFont fsel h fun f =>
      hR.finish _ (hR.writeParts text fsel f x y bg fg pad commit h)⟩
  | init =>
    refine ⟨_, _, rfl, rfl, ?_⟩
    rw [hR.cfg s t h]
    exact hR.finish _ (hR.lcAfterInit (hR.sendScript 0 _ (hR.pushTx s t _ h)))
  | refresh => exact ⟨_, _, rfl, rfl, hR.finish _ (hR.refreshAll h)⟩
  | getw => exact ⟨_, _, rfl, rfl, hR.pushResponse s t _ h⟩
  | geth => exact ⟨_, _, rfl, rfl, hR.pushResponse s t _ h⟩
  | cbSleep => exact ⟨_, _, rfl, rfl, (hR.transact _ h).1⟩
  | cbRamFollow => exact ⟨_, _, rfl, rfl, (hR.transact _ h).1⟩
  | cbInverseOff => exact ⟨_, _, rfl, rfl, (hR.transact _ h).1⟩
  | cbContrast => exact ⟨_, _, rfl, rfl, (hR.transact _ h).1⟩
  | cbMemoryMode => exact ⟨_, _, rfl, rfl, (hR.transact _ h).1⟩
  | cbPageSelect n => exact ⟨_, _, rfl, rfl, (hR.transact _ h).1⟩
  | cbColLow0 => exact ⟨_, _, rfl, rfl, (hR.transact _ h).1⟩
  | cbColHigh0 => exact ⟨_, _, rfl, rfl, (hR.transact _ h).1⟩

end Sys2Proof.Machine
end

