-- ==== Sys2Proof/Laws/Encoding.lean ====
section
/-! SUPPORT. The bit fields of a header: taking one out of a concatenation, and the header's fields and bytes. -/

namespace Sys2Proof

/-- A field that lies wholly in the upper part of a concatenation. -/
theorem extract_append_hi {v w : Nat} (a : BitVec v) (b : BitVec w) (start len : Nat) (h : w ≤ start) :
    (a ++ b).extractLsb' start len = a.extractLsb' (start - w) len := by
  ext i hi
  simp only [BitVec.getElem_extractLsb', BitVec.getLsbD_append]
  rw [if_neg (by omega)]
  congr 1
  omega

/-- A field that lies wholly in the lower part of a concatenation. -/
theorem extract_append_lo {v w : Nat} (a : BitVec v) (b : BitVec w) (start len : Nat) (h : start + len ≤ w) :
    (a ++ b).extractLsb' start len = b.extractLsb' start len := by
  ext i hi
  simp only [BitVec.getElem_extractLsb', BitVec.getLsbD_append]
  rw [if_pos (by omega)]

/-- A field that is the whole word. -/
theorem extract_all {w : Nat} (a : BitVec w) : a.extractLsb' 0 w = a := by
  ext i hi
  simp

/-- Two words joined, each masked. -/
theorem and_append_append {v w : Nat} (a c : BitVec v) (b d : BitVec w) : (a ++ b) &&& (c ++ d) = (a &&& c) ++ (b &&& d) := by
  ext i hi
  simp only [BitVec.getElem_and, BitVec.getElem_append]
  split <;> rfl

@[simp] theorem flagOfBit_bitOfFlag (b : Bool) : flagOfBit (bitOfFlag b) = b := by cases b <;> rfl

@[simp] theorem ofBit_bit (c : Color) : Color.ofBit c.bit = c := by cases c <;> rfl

theorem bitOfFlag_flagOfBit (b : BitVec 1) : bitOfFlag (flagOfBit b) = b := by revert b; decide

theorem bit_ofBit (b : BitVec 1) : (Color.ofBit b).bit = b := by revert b; decide

/-- Two adjacent fields of a word joined are the field that covers both. -/
theorem extract_join {w : Nat} (h : BitVec w) (start mid n k : Nat) (hm : mid = start + k) :
    h.extractLsb' mid n ++ h.extractLsb' start k = h.extractLsb' start (n + k) := by
  subst hm
  ext i hi
  simp only [BitVec.getElem_append, BitVec.getElem_extractLsb']
  split
  · rfl
  · congr 1
    omega

/-- The bytes of a header put together again. -/
theorem headerOfBytes_bytesOfHeader (h : Header) :
    headerOfBytes (h.extractLsb' 56 8) (h.extractLsb' 48 8) (h.extractLsb' 40 8) (h.extractLsb' 32 8)
      (h.extractLsb' 24 8) (h.extractLsb' 16 8) (h.extractLsb' 8 8) (h.extractLsb' 0 8) = h := by
  unfold headerOfBytes
  rw [extract_join h 48 56 8 8 rfl, extract_join h 40 48 _ 8 rfl, extract_join h 32 40 _ 8 rfl,
    extract_join h 24 32 _ 8 rfl, extract_join h 16 24 _ 8 rfl, extract_join h 8 16 _ 8 rfl,
    extract_join h 0 8 _ 8 rfl]
  exact extract_all h

/-- The header of eight bytes taken apart again. -/
theorem bytesOfHeader_headerOfBytes (b7 b6 b5 b4 b3 b2 b1 b0 : Byte) :
    bytesOfHeader (headerOfBytes b7 b6 b5 b4 b3 b2 b1 b0) = [b7, b6, b5, b4, b3, b2, b1, b0] := by
  simp (disch := omega) only [bytesOfHeader, headerOfBytes, extract_append_lo, extract_append_hi, extract_all,
    Nat.reduceSub, Nat.sub_self]

section fields
variable (op : BitVec 4) (x y ch len : Byte) (fsel : BitVec 4) (commit pad : Bool) (bg fg : Color)

@[simp] theorem hdrOp_packHeader : hdrOp (packHeader op x y ch len fsel commit pad bg fg) = op := by
  simp (disch := omega) only [hdrOp, packHeader, extract_append_hi, extract_all, Nat.reduceSub]
@[simp] theorem hdrX_packHeader : hdrX (packHeader op x y ch len fsel commit pad bg fg) = x := by
  simp (disch := omega) only [hdrX, packHeader, extract_append_lo, extract_append_hi, extract_all, Nat.reduceSub]
@[simp] theorem hdrY_packHeader : hdrY (packHeader op x y ch len fsel commit pad bg fg) = y := by
  simp (disch := omega) only [hdrY, packHeader, extract_append_lo, extract_append_hi, extract_all, Nat.reduceSub]
@[simp] theorem hdrCh_packHeader : hdrCh (packHeader op x y ch len fsel commit pad bg fg) = ch := by
  simp (disch := omega) only [hdrCh, packHeader, extract_append_lo, extract_append_hi, extract_all, Nat.reduceSub]
@[simp] theorem hdrLen_packHeader : hdrLen (packHeader op x y ch len fsel commit pad bg fg) = len := by
  simp (disch := omega) only [hdrLen, packHeader, extract_append_lo, extract_append_hi, extract_all, Nat.reduceSub]
@[simp] theorem hdrFsel_packHeader : hdrFsel (packHeader op x y ch len fsel commit pad bg fg) = fsel := by
  simp (disch := omega) only [hdrFsel, packHeader, extract_append_lo, extract_append_hi, extract_all, Nat.reduceSub]
@[simp] theorem hdrCommit_packHeader : hdrCommit (packHeader op x y ch len fsel commit pad bg fg) = commit := by
  simp (disch := omega) only [hdrCommit, packHeader, extract_append_lo, extract_append_hi, extract_all, Nat.reduceSub,
    flagOfBit_bitOfFlag]
@[simp] theorem hdrPad_packHeader : hdrPad (packHeader op x y ch len fsel commit pad bg fg) = pad := by
  simp (disch := omega) only [hdrPad, packHeader, extract_append_lo, extract_append_hi, extract_all, Nat.reduceSub,
    flagOfBit_bitOfFlag]
@[simp] theorem hdrBg_packHeader : hdrBg (packHeader op x y ch len fsel commit pad bg fg) = bg := by
  simp (disch := omega) only [hdrBg, packHeader, extract_append_lo, extract_append_hi, extract_all, Nat.reduceSub,
    ofBit_bit]
@[simp] theorem hdrFg_packHeader : hdrFg (packHeader op x y ch len fsel commit pad bg fg) = fg := by
  simp (disch := omega) only [hdrFg, packHeader, extract_append_lo, extract_all, ofBit_bit]

end fields

/-- Any header whose bits 23:4 are zero is the packing of its fields (30_encoding.md R57). -/
theorem packHeader_fields (h : Header) (hz : h.extractLsb' 4 20 = 0#20) :
    packHeader (hdrOp h) (hdrX h) (hdrY h) (hdrCh h) (hdrLen h) (hdrFsel h) (hdrCommit h) (hdrPad h) (hdrBg h)
      (hdrFg h) = h := by
  simp only [packHeader, hdrOp, hdrX, hdrY, hdrCh, hdrLen, hdrFsel, hdrCommit, hdrPad, hdrBg, hdrFg,
    bitOfFlag_flagOfBit, bit_ofBit, ← hz]
  rw [extract_join h 52 60 4 8 rfl, extract_join h 44 52 _ 8 rfl, extract_join h 36 44 _ 8 rfl,
    extract_join h 28 36 _ 8 rfl, extract_join h 24 28 _ 4 rfl, extract_join h 4 24 _ 20 rfl,
    extract_join h 3 4 _ 1 rfl, extract_join h 2 3 _ 1 rfl, extract_join h 1 2 _ 1 rfl, extract_join h 0 1 _ 1 rfl]
  exact extract_all h

end Sys2Proof
end

