-- ==== Sys2Proof/Laws/Memory.lean ====
section
/-! SUPPORT. The laws of the framebuffer memory: read after write, the canonical form, and equality by reading. -/

namespace Sys2Proof.Machine

/-- A unit below every unit held reads as unlisted. -/
theorem Memory.read_of_all_gt {m : Memory} {u : Nat} (h : ∀ c ∈ m, u < c.1) : Memory.read m u = Memory.unlisted := by
  induction m with
  | nil => rfl
  | cons c rest ih =>
    have hc : c.1 ≠ u := Nat.ne_of_gt (h c List.mem_cons_self)
    simp only [Memory.read, hc, if_false]
    exact ih fun d hd => h d (List.mem_cons_of_mem c hd)

theorem Memory.wf_nil : Memory.wf [] := ⟨List.Pairwise.nil, by simp⟩

theorem Memory.wf_cons {c : Host.Cell} {m : Memory} :
    Memory.wf (c :: m) ↔ c.2 ≠ Memory.unlisted ∧ (∀ d ∈ m, c.1 < d.1) ∧ Memory.wf m := by
  simp only [Memory.wf, List.pairwise_cons, List.forall_mem_cons]
  tauto

/-- A canonical memory reads unlisted below its first unit. -/
theorem Memory.read_below {c : Host.Cell} {m : Memory} {u : Nat} (hm : Memory.wf (c :: m)) (h : u < c.1) :
    Memory.read (c :: m) u = Memory.unlisted :=
  Memory.read_of_all_gt fun d hd => by
    rcases List.mem_cons.mp hd with rfl | hd
    · exact h
    · exact h.trans ((Memory.wf_cons.mp hm).2.1 d hd)

@[simp] theorem Memory.read_consCell_same (m : Memory) (u : Nat) (v : Byte)
    (h : Memory.read m u = Memory.unlisted) : Memory.read (Memory.consCell u v m) u = v := by
  unfold Memory.consCell
  split
  · next hv => rw [h, hv]
  · simp [Memory.read]

theorem Memory.read_consCell_other (m : Memory) {u a : Nat} (v : Byte) (h : a ≠ u) :
    Memory.read (Memory.consCell u v m) a = Memory.read m a := by
  unfold Memory.consCell
  split
  · rfl
  · simp [Memory.read, Ne.symm h]

/-- A read of the unit just written gives the value written. -/
theorem Memory.read_write_same {m : Memory} (hm : Memory.wf m) (u : Nat) (v : Byte) :
    Memory.read (Memory.write m u v) u = v := by
  induction m with
  | nil => exact Memory.read_consCell_same [] u v rfl
  | cons c rest ih =>
    have hrest := Memory.wf_cons.mp hm
    unfold Memory.write
    split
    · next h => exact Memory.read_consCell_same _ u v (Memory.read_below hm h)
    · split
      · next h =>
        exact Memory.read_consCell_same _ u v (Memory.read_of_all_gt fun d hd => h ▸ hrest.2.1 d hd)
      · next h =>
        simp only [Memory.read, Ne.symm h, if_false]
        exact ih hrest.2.2

/-- A write leaves every other unit alone. -/
theorem Memory.read_write_other (m : Memory) {u a : Nat} (v : Byte) (h : a ≠ u) :
    Memory.read (Memory.write m u v) a = Memory.read m a := by
  induction m with
  | nil => exact Memory.read_consCell_other [] v h
  | cons c rest ih =>
    unfold Memory.write
    split
    · exact Memory.read_consCell_other _ v h
    · split
      · next hu =>
        rw [Memory.read_consCell_other _ v h]
        have hc : c.1 ≠ a := fun hca => h (hca ▸ hu.symm)
        simp [Memory.read, hc]
      · simp only [Memory.read]
        rw [ih]

theorem Memory.read_write {m : Memory} (hm : Memory.wf m) (u a : Nat) (v : Byte) :
    Memory.read (Memory.write m u v) a = if a = u then v else Memory.read m a := by
  split
  · next h => rw [h, Memory.read_write_same hm]
  · next h => exact Memory.read_write_other m v h

/-- A cell of a written memory is the written one or an old one. -/
theorem Memory.mem_write {m : Memory} {u : Nat} {v : Byte} {c : Host.Cell} (h : c ∈ Memory.write m u v) :
    c = (u, v) ∨ c ∈ m := by
  induction m with
  | nil =>
    simp only [Memory.write, Memory.consCell] at h
    split at h
    · simp at h
    · exact .inl (by simpa using h)
  | cons d rest ih =>
    unfold Memory.write Memory.consCell at h
    split at h
    · split at h
      · exact .inr h
      · rcases List.mem_cons.mp h with h | h
        · exact .inl h
        · exact .inr h
    · split at h
      · split at h
        · exact .inr (by simp [h])
        · rcases List.mem_cons.mp h with h | h
          · exact .inl h
          · exact .inr (by simp [h])
      · rcases List.mem_cons.mp h with h | h
        · exact .inr (by simp [h])
        · rcases ih h with h | h
          · exact .inl h
          · exact .inr (by simp [h])

theorem Memory.wf_consCell {m : Memory} {u : Nat} (v : Byte) (hm : Memory.wf m) (h : ∀ c ∈ m, u < c.1) :
    Memory.wf (Memory.consCell u v m) := by
  unfold Memory.consCell
  split
  · exact hm
  · next hv => exact Memory.wf_cons.mpr ⟨hv, h, hm⟩

/-- A write keeps the canonical form. -/
theorem Memory.wf_write {m : Memory} (hm : Memory.wf m) (u : Nat) (v : Byte) : Memory.wf (Memory.write m u v) := by
  induction m with
  | nil => exact Memory.wf_consCell v hm (by simp)
  | cons c rest ih =>
    have hc := Memory.wf_cons.mp hm
    unfold Memory.write
    split
    · next h =>
      refine Memory.wf_consCell v hm fun d hd => ?_
      rcases List.mem_cons.mp hd with rfl | hd
      · exact h
      · exact h.trans (hc.2.1 d hd)
    · split
      · next h => exact Memory.wf_consCell v hc.2.2 fun d hd => h ▸ hc.2.1 d hd
      · refine Memory.wf_cons.mpr ⟨hc.1, fun d hd => ?_, ih hc.2.2⟩
        rcases Memory.mem_write hd with rfl | hd
        · show c.1 < u
          omega
        · exact hc.2.1 d hd

/-- A write at a unit in bounds keeps the bounds. -/
theorem Memory.inBounds_write {m : Memory} {u : Nat} (hm : Memory.inBounds m) (hu : u < NUNITS) (v : Byte) :
    Memory.inBounds (Memory.write m u v) := fun c hc => by
  rcases Memory.mem_write hc with rfl | hc
  · exact hu
  · exact hm c hc

/-- Consecutive cells of one value read as that value. -/
theorem Memory.read_map_range (v : Byte) (n k u : Nat) (hu : k ≤ u) (hn : u < k + n) :
    Memory.read ((List.range' k n).map fun a => (a, v)) u = v := by
  induction n generalizing k with
  | zero => omega
  | succ n ih =>
    simp only [List.range'_succ, List.map_cons, Memory.read]
    split
    · rfl
    · next h => exact ih (k + 1) (by omega) (by omega)

/-- A filled memory reads as the fill value at every unit of the framebuffer. -/
theorem Memory.read_fill (v : Byte) {u : Nat} (hu : u < NUNITS) : Memory.read (Memory.fill v) u = v := by
  unfold Memory.fill
  split
  · next h => rw [h]; rfl
  · rw [List.range_eq_range']
    exact Memory.read_map_range v NUNITS 0 u (Nat.zero_le u) (by omega)

theorem Memory.wf_fill (v : Byte) : Memory.wf (Memory.fill v) := by
  unfold Memory.fill
  split
  · exact Memory.wf_nil
  · next h =>
    refine ⟨?_, fun c hc => ?_⟩
    · exact List.pairwise_map.mpr (List.pairwise_lt_range)
    · obtain ⟨u, -, rfl⟩ := List.mem_map.mp hc
      exact h

theorem Memory.inBounds_fill (v : Byte) : Memory.inBounds (Memory.fill v) := by
  unfold Memory.fill
  split
  · simp
  · intro c hc
    obtain ⟨u, hu, rfl⟩ := List.mem_map.mp hc
    exact List.mem_range.mp hu

theorem Memory.read_cons (c : Host.Cell) (m : Memory) (u : Nat) :
    Memory.read (c :: m) u = if c.1 = u then c.2 else Memory.read m u := rfl

/-- Canonical memories that read alike are the same data. -/
theorem Memory.ext_read {m n : Memory} (hm : Memory.wf m) (hn : Memory.wf n)
    (h : ∀ u, Memory.read m u = Memory.read n u) : m = n := by
  induction m generalizing n with
  | nil =>
    cases n with
    | nil => rfl
    | cons d rest =>
      have hd := h d.1
      simp only [Memory.read_cons, if_true] at hd
      exact absurd hd.symm (Memory.wf_cons.mp hn).1
  | cons c m ih =>
    have hc := Memory.wf_cons.mp hm
    cases n with
    | nil =>
      have := h c.1
      simp only [Memory.read_cons, if_true] at this
      exact absurd this hc.1
    | cons d n =>
      have hd := Memory.wf_cons.mp hn
      have h1 := h c.1
      have h2 := h d.1
      have hcd : c.1 = d.1 := by
        rcases Nat.lt_trichotomy c.1 d.1 with hlt | heq | hgt
        · rw [Memory.read_below hn hlt, Memory.read_cons, if_pos rfl] at h1
          exact absurd h1 hc.1
        · exact heq
        · rw [Memory.read_below hm hgt, Memory.read_cons, if_pos rfl] at h2
          exact absurd h2.symm hd.1
      have hv : c.2 = d.2 := by simpa [Memory.read_cons, hcd] using h1
      have hrest : m = n := ih hc.2.2 hd.2.2 fun u => by
        by_cases hu : c.1 = u
        · rw [Memory.read_of_all_gt fun e he => hu ▸ hc.2.1 e he,
            Memory.read_of_all_gt fun e he => hu ▸ hcd ▸ hd.2.1 e he]
        · have := h u
          simpa [Memory.read_cons, hu, hcd ▸ hu] using this
      rw [hrest, Prod.ext hcd hv]

end Sys2Proof.Machine
end

