-- ==== Sys2Proof/Laws/Pixels.lean ====
section
/-! SUPPORT. The address decoder, the pixel path and painting: what each can do, said once. -/

namespace Sys2Proof.Machine

@[simp] theorem inFrame_iff {x y : Nat} : inFrame x y = true ↔ x < W ∧ y < H := by simp [inFrame]

theorem NUNITS_eq : NUNITS = 1024 := rfl

/-- The decoder stays within the framebuffer (40_framebuffer.md R83). -/
theorem decodeXY_unit_lt {x y : Nat} (hx : x < W) (hy : y < H) : (decodeXY x y).unit < NUNITS := by
  simp only [decodeXY, W, H, NUNITS_eq] at *
  omega

theorem decodeXY_bit_lt (x y : Nat) : (decodeXY x y).bit < 8 := Nat.mod_lt _ (by decide)

/-- Two pixels of the frame never share a bit (20_memory.md R33). -/
theorem decodeXY_injective {x y x' y' : Nat} (hx : x < W) (hx' : x' < W)
    (hu : (decodeXY x y).unit = (decodeXY x' y').unit) (hb : (decodeXY x y).bit = (decodeXY x' y').bit) :
    x = x' ∧ y = y' := by
  simp only [decodeXY, W] at *
  omega

/-- Painting one bit of a unit decides that bit alone. -/
theorem colorOfUnit_paintBit (old : Byte) {b n : Nat} (c : Color) (hn : n < 8) :
    colorOfUnit (paintBit old b c) n = if n = b then c else colorOfUnit old n := by
  have h1 : (1#8 <<< b).getLsbD n = decide (n = b) := by
    simp only [BitVec.getLsbD_shiftLeft, BitVec.getLsbD_one, hn]
    by_cases h : n = b
    · simp [h]
    · simp only [h, decide_false]
      simp
      omega
  cases c
  · simp only [colorOfUnit, paintBit, BitVec.getLsbD_and, BitVec.getLsbD_not, hn, h1]
    by_cases h : n = b <;> simp [h]
  · simp only [colorOfUnit, paintBit, BitVec.getLsbD_or, h1]
    by_cases h : n = b <;> simp [h]

/-! ### One pixel write -/

theorem pixelWrite_eq_some {x y : Nat} {c : Color} {m m' : Memory} :
    pixelWrite x y c m = some m' ↔ (x < W ∧ y < H) ∧ m' = Memory.write m (decodeXY x y).unit
      (paintBit (Memory.read m (decodeXY x y).unit) (decodeXY x y).bit c) := by
  simp only [pixelWrite]
  split
  · next h => simp [inFrame_iff.mp h, eq_comm]
  · next h => simp [mt inFrame_iff.mpr h]

theorem pixelWrite_eq_none {x y : Nat} {c : Color} {m : Memory} :
    pixelWrite x y c m = none ↔ ¬(x < W ∧ y < H) := by
  simp only [pixelWrite]
  split
  · next h => simp [inFrame_iff.mp h]
  · next h => simp [mt inFrame_iff.mpr h]

theorem pixelWrite_wf {x y : Nat} {c : Color} {m m' : Memory} (hm : Memory.wf m) (h : pixelWrite x y c m = some m') :
    Memory.wf m' := by
  rw [(pixelWrite_eq_some.mp h).2]
  exact Memory.wf_write hm _ _

theorem pixelWrite_inBounds {x y : Nat} {c : Color} {m m' : Memory} (hm : Memory.inBounds m)
    (h : pixelWrite x y c m = some m') : Memory.inBounds m' := by
  obtain ⟨⟨hx, hy⟩, rfl⟩ := pixelWrite_eq_some.mp h
  exact Memory.inBounds_write hm (decodeXY_unit_lt hx hy) _

/-- Units other than the decoded one are not written. -/
theorem pixelWrite_read {x y u : Nat} {c : Color} {m m' : Memory} (h : pixelWrite x y c m = some m')
    (hu : u ≠ (decodeXY x y).unit) : Memory.read m' u = Memory.read m u := by
  rw [(pixelWrite_eq_some.mp h).2, Memory.read_write_other _ _ hu]

/-- A pixel write decides one pixel and leaves every other alone. -/
theorem pixelWrite_pixel {x y x' y' : Nat} {c : Color} {m m' : Memory} (hm : Memory.wf m)
    (h : pixelWrite x y c m = some m') (hx : x' < W) :
    pixel m' x' y' = if x' = x ∧ y' = y then c else pixel m x' y' := by
  obtain ⟨⟨hx0, -⟩, rfl⟩ := pixelWrite_eq_some.mp h
  simp only [pixel, Memory.read_write hm]
  by_cases hu : (decodeXY x' y').unit = (decodeXY x y).unit
  · rw [if_pos hu, colorOfUnit_paintBit _ _ (decodeXY_bit_lt x' y')]
    by_cases hb : (decodeXY x' y').bit = (decodeXY x y).bit
    · rw [if_pos hb, if_pos (decodeXY_injective hx hx0 hu hb)]
    · rw [if_neg hb, hu, if_neg]
      rintro ⟨rfl, rfl⟩
      exact hb rfl
  · rw [if_neg hu, if_neg]
    rintro ⟨rfl, rfl⟩
    exact hu rfl

/-! ### Painting a list of pixels -/

/-- A pixel to be written lies in the frame. -/
def Dot.ok (d : Dot) : Prop := d.x < W ∧ d.y < H

/-- Painting touches the framebuffer and `LC` alone. -/
theorem paint_state (dots : List Dot) (s : State) : ∃ m l, (paint dots s).1 = (s.setFb m).setLc l := by
  induction dots generalizing s with
  | nil => exact ⟨s.fb, s.lc, rfl⟩
  | cons d rest ih =>
    simp only [paint]
    split
    · next m _ =>
      obtain ⟨m', l', h⟩ := ih (s.setFb m).dirty
      refine ⟨m', l', ?_⟩
      rw [h]
      unfold State.dirty
      split <;> rfl
    · exact ⟨s.fb, s.lc, rfl⟩

theorem paint_nil (s : State) : paint [] s = (s, none) := rfl

/-- Painting falls through exactly when every pixel lies in the frame, and raises `OutOfBounds` otherwise. -/
theorem paint_snd (dots : List Dot) (s : State) :
    ((∀ d ∈ dots, d.ok) → (paint dots s).2 = none) ∧
    ((∃ d ∈ dots, ¬d.ok) → (paint dots s).2 = some (.raised .outOfBounds noInfo)) := by
  induction dots generalizing s with
  | nil => simp [paint]
  | cons d rest ih =>
    simp only [paint]
    split
    · next m hm =>
      have hd : d.ok := (pixelWrite_eq_some.mp hm).1
      refine ⟨fun h => (ih _).1 fun e he => h e (by simp [he]), fun ⟨e, he, hne⟩ => (ih _).2 ?_⟩
      rcases List.mem_cons.mp he with rfl | he
      · exact absurd hd hne
      · exact ⟨e, he, hne⟩
    · next hm =>
      have hd : ¬d.ok := pixelWrite_eq_none.mp hm
      exact ⟨fun h => absurd (h d (by simp)) hd, fun _ => rfl⟩

/-- Painting a list that begins in the frame: the part in the frame is painted first. -/
theorem paint_append (a b : List Dot) (s : State) (h : ∀ d ∈ a, d.ok) :
    paint (a ++ b) s = paint b (paint a s).1 := by
  induction a generalizing s with
  | nil => rfl
  | cons d rest ih =>
    obtain ⟨m, hm⟩ : ∃ m, pixelWrite d.x d.y d.color s.fb = some m := by
      cases hm : pixelWrite d.x d.y d.color s.fb with
      | some m => exact ⟨m, rfl⟩
      | none => exact absurd (h d (by simp)) (pixelWrite_eq_none.mp hm)
    simp only [List.cons_append, paint, hm]
    exact ih _ fun e he => h e (by simp [he])

/-- A list whose first pixel is out of the frame paints nothing. -/
theorem paint_cons_out {d : Dot} (rest : List Dot) (s : State) (h : ¬d.ok) :
    paint (d :: rest) s = (s, some (.raised .outOfBounds noInfo)) := by
  have hn : pixelWrite d.x d.y d.color s.fb = none := pixelWrite_eq_none.mpr h
  simp only [paint, hn]

theorem paint_wf {dots : List Dot} {s : State} (h : Memory.wf s.fb) : Memory.wf (paint dots s).1.fb := by
  induction dots generalizing s with
  | nil => exact h
  | cons d rest ih =>
    simp only [paint]
    split
    · next m hm => exact ih (by simpa using pixelWrite_wf h hm)
    · exact h

theorem paint_inBounds {dots : List Dot} {s : State} (h : Memory.inBounds s.fb) :
    Memory.inBounds (paint dots s).1.fb := by
  induction dots generalizing s with
  | nil => exact h
  | cons d rest ih =>
    simp only [paint]
    split
    · next m hm => exact ih (by simpa using pixelWrite_inBounds h hm)
    · exact h

/-- A unit that holds none of the pixels in the frame is not written. -/
theorem paint_read {dots : List Dot} {s : State} {u : Nat}
    (h : ∀ d ∈ dots, d.ok → u ≠ (decodeXY d.x d.y).unit) :
    Memory.read (paint dots s).1.fb u = Memory.read s.fb u := by
  induction dots generalizing s with
  | nil => rfl
  | cons d rest ih =>
    simp only [paint]
    split
    · next m hm =>
      rw [ih fun e he => h e (by simp [he])]
      simpa using pixelWrite_read hm (h d (by simp) (pixelWrite_eq_some.mp hm).1)
    · rfl

/-- A pixel that is none of those painted keeps its colour. -/
theorem paint_pixel_other {dots : List Dot} {s : State} {x y : Nat} (hs : Memory.wf s.fb) (hx : x < W)
    (h : ∀ d ∈ dots, ¬(x = d.x ∧ y = d.y)) : pixel (paint dots s).1.fb x y = pixel s.fb x y := by
  induction dots generalizing s with
  | nil => rfl
  | cons d rest ih =>
    simp only [paint]
    split
    · next m hm =>
      rw [ih (by simpa using pixelWrite_wf hs hm) fun e he => h e (by simp [he])]
      simp only [State.dirty_fb, State.setFb_fb]
      rw [pixelWrite_pixel hs hm hx, if_neg (h d (by simp))]
    · rfl

/-- A painted pixel has the colour painted, when all pixels lie in the frame and none is painted in two colours. -/
theorem paint_pixel_mem {dots : List Dot} {s : State} {x y : Nat} {c : Color} (hs : Memory.wf s.fb)
    (hin : ∀ d ∈ dots, d.ok) (hmem : ∃ d ∈ dots, x = d.x ∧ y = d.y)
    (hc : ∀ d ∈ dots, x = d.x → y = d.y → d.color = c) : pixel (paint dots s).1.fb x y = c := by
  induction dots generalizing s with
  | nil => obtain ⟨d, hd, -⟩ := hmem; simp at hd
  | cons d rest ih =>
    obtain ⟨m, hm⟩ : ∃ m, pixelWrite d.x d.y d.color s.fb = some m := by
      cases hm : pixelWrite d.x d.y d.color s.fb with
      | some m => exact ⟨m, rfl⟩
      | none => exact absurd (hin d (by simp)) (pixelWrite_eq_none.mp hm)
    have hwf : Memory.wf (s.setFb m).dirty.fb := by simpa using pixelWrite_wf hs hm
    simp only [paint, hm]
    by_cases hrest : ∃ e ∈ rest, x = e.x ∧ y = e.y
    · exact ih hwf (fun e he => hin e (by simp [he])) hrest fun e he => hc e (by simp [he])
    · obtain ⟨e, he, hxe, hye⟩ := hmem
      have hed : e = d := by
        rcases List.mem_cons.mp he with h | h
        · exact h
        · exact absurd ⟨e, h, hxe, hye⟩ hrest
      subst hed
      have hx : x < W := hxe ▸ (hin e (by simp)).1
      rw [paint_pixel_other hwf hx fun e' he' hxy => hrest ⟨e', he', hxy⟩]
      simp only [State.dirty_fb, State.setFb_fb]
      rw [pixelWrite_pixel hs hm hx, if_pos ⟨hxe, hye⟩]
      exact hc e (by simp) hxe hye

/-- `LC` after painting: unchanged when no pixel was written, marked stale when one was. -/
theorem paint_lc (dots : List Dot) (s : State) :
    (paint dots s).1.lc = s.lc ∨ (paint dots s).1.lc = dirtied s.lc := by
  induction dots generalizing s with
  | nil => exact .inl rfl
  | cons d rest ih =>
    simp only [paint]
    split
    · next m _ =>
      have := ih (s.setFb m).dirty
      simp only [State.dirty_lc, State.setFb_lc, dirtied] at *
      cases hl : s.lc <;> simp_all
    · exact .inl rfl

theorem paint_lc_cons {d : Dot} (rest : List Dot) (s : State) (h : d.ok) :
    (paint (d :: rest) s).1.lc = dirtied s.lc := by
  obtain ⟨m, hm⟩ : ∃ m, pixelWrite d.x d.y d.color s.fb = some m := by
    cases hm : pixelWrite d.x d.y d.color s.fb with
    | some m => exact ⟨m, rfl⟩
    | none => exact absurd h (pixelWrite_eq_none.mp hm)
  simp only [paint, hm]
  have := paint_lc rest (s.setFb m).dirty
  simp only [dirtied, State.dirty_lc, State.setFb_lc] at *
  cases hl : s.lc <;> simp_all

@[simp] theorem dirtied_dirtied (l : Lifecycle) : dirtied (dirtied l) = dirtied l := by cases l <;> rfl

/-! ### Sequencing -/

@[simp] theorem andThen_none (s : State) (b : State → State × Option Halt) : andThen (s, none) b = b s := rfl

@[simp] theorem andThen_some (s : State) (h : Halt) (b : State → State × Option Halt) :
    andThen (s, some h) b = (s, some h) := rfl

end Sys2Proof.Machine
end

