-- ==== Sys2Proof/Laws/Glyph.lean ====
section
/-! SUPPORT. The glyph write as painting: lookup, rows, padding column and the four ways a glyph write can go. -/

namespace Sys2Proof.Machine

/-- A printable character is found in every row of its font (41_rasterizer.md R92). -/
theorem glyphIndex_printable {f : Font} {ch : Byte} {r : Nat} (hch : Printable ch) (hr : r < f.height) :
    glyphIndex f ch r = some ((ch.toNat - 0x20) * f.height + r) := by
  have hlt : ¬ ch.toNat < 0x20 := Nat.not_lt.mpr hch.1
  have hle : ch.toNat - 0x20 ≤ 94 := by have := hch.2; omega
  have hmul : (ch.toNat - 0x20) * f.height ≤ 94 * f.height := Nat.mul_le_mul_right _ hle
  have hin : ¬ NCHARS * f.height ≤ (ch.toNat - 0x20) * f.height + r := by
    simp only [NCHARS]
    omega
  simp only [glyphIndex, hlt, hin, if_false]

/-- Any other character is found in no row (41_rasterizer.md R92). -/
theorem glyphIndex_unprintable {f : Font} {ch : Byte} (r : Nat) (hch : ¬Printable ch) :
    glyphIndex f ch r = none := by
  simp only [glyphIndex]
  split
  · rfl
  · next h =>
    have hge : 95 ≤ ch.toNat - 0x20 := by
      simp only [Printable] at hch
      omega
    have hmul : 95 * f.height ≤ (ch.toNat - 0x20) * f.height := Nat.mul_le_mul_right _ hge
    rw [if_pos]
    simp only [NCHARS]
    omega

/-- The pixels of the rows listed of a glyph, in the order they are written (41_rasterizer.md R93). -/
def glyphDots (f : Font) (ch : Byte) (fg bg : Color) (rows : List Nat) (x0 y0 : Nat) : List Dot :=
  rows.flatMap fun r => rowDots f (glyphRead f ((ch.toNat - 0x20) * f.height + r)) x0 (y0 + r) fg bg

/-- Painting two lists is painting the first, then the second. -/
theorem paint_append_andThen (a b : List Dot) (s : State) : paint (a ++ b) s = andThen (paint a s) (paint b) := by
  induction a generalizing s with
  | nil => rfl
  | cons d rest ih =>
    simp only [List.cons_append, paint]
    split
    · exact ih _
    · rfl

@[simp] theorem paint_curX (dots : List Dot) (s : State) : (paint dots s).1.curX = s.curX := by
  obtain ⟨m, l, h⟩ := paint_state dots s
  rw [h]; rfl

@[simp] theorem paint_curY (dots : List Dot) (s : State) : (paint dots s).1.curY = s.curY := by
  obtain ⟨m, l, h⟩ := paint_state dots s
  rw [h]; rfl

/-- The rows of a printable glyph are one painting. -/
theorem glyphRows_eq_paint {f : Font} {ch : Byte} (fg bg : Color) {rows : List Nat} (s : State) (hch : Printable ch)
    (hr : ∀ r ∈ rows, r < f.height) :
    glyphRows f ch fg bg rows s = paint (glyphDots f ch fg bg rows s.curX.toNat s.curY.toNat) s := by
  induction rows generalizing s with
  | nil => rfl
  | cons r rest ih =>
    simp only [glyphRows, glyphIndex_printable hch (hr r (by simp)), glyphDots, List.flatMap_cons,
      paint_append_andThen]
    have hx := paint_curX (rowDots f (glyphRead f ((ch.toNat - 0x20) * f.height + r)) s.curX.toNat
      (s.curY.toNat + r) fg bg) s
    have hy := paint_curY (rowDots f (glyphRead f ((ch.toNat - 0x20) * f.height + r)) s.curX.toNat
      (s.curY.toNat + r) fg bg) s
    revert hx hy
    generalize paint (rowDots f (glyphRead f ((ch.toNat - 0x20) * f.height + r)) s.curX.toNat
      (s.curY.toNat + r) fg bg) s = a
    intro hx hy
    obtain ⟨t, h⟩ := a
    cases h with
    | none =>
      simp only [andThen_none]
      rw [ih t fun q hq => hr q (by simp [hq]), hx, hy]
      rfl
    | some h => rfl

/-- The rows of any other character fail at the first row, with nothing written (41_rasterizer.md R92). -/
theorem glyphRows_unprintable {f : Font} {ch : Byte} (fg bg : Color) (s : State) (hch : ¬Printable ch) :
    glyphRows f ch fg bg (List.range f.height) s = (s, some (.raised .glyphLookupFailed noInfo)) := by
  obtain ⟨n, hn⟩ : ∃ n, f.height = n + 1 := ⟨f.height - 1, by have := f.height_ok; omega⟩
  rw [hn, List.range_succ_eq_map]
  simp only [glyphRows, glyphIndex_unprintable 0 hch]

theorem mem_rowDots {f : Font} {word : GlyphWord} {x0 y : Nat} {fg bg : Color} {d : Dot} :
    d ∈ rowDots f word x0 y fg bg ↔ ∃ c < f.width, d = ⟨x0 + c, y, glyphColor word c fg bg⟩ := by
  simp only [rowDots, List.mem_map, List.mem_range, eq_comm]

theorem mem_columnDots {h x y0 : Nat} {bg : Color} {d : Dot} :
    d ∈ columnDots h x y0 bg ↔ ∃ n < h, d = ⟨x, y0 + n, bg⟩ := by
  simp only [columnDots, List.mem_map, List.mem_range, eq_comm]

theorem mem_glyphDots {f : Font} {ch : Byte} {fg bg : Color} {rows : List Nat} {x0 y0 : Nat} {d : Dot} :
    d ∈ glyphDots f ch fg bg rows x0 y0 ↔
      ∃ r ∈ rows, ∃ c < f.width, d = ⟨x0 + c, y0 + r, cellColor f ch r c fg bg⟩ := by
  simp only [glyphDots, List.mem_flatMap, mem_rowDots]
  rfl

/-- The padding step, where the column fits: painted whole, one column to the right (41_rasterizer.md R91). -/
theorem padColumn_fits {f : Font} {bg : Color} {s : State} (hx : s.curX.toNat < W)
    (hy : s.curY.toNat + f.height ≤ H) :
    padColumn f bg s =
      ((paint (columnDots f.height s.curX.toNat s.curY.toNat bg) s).1.setCurX (BitVec.ofNat 8 (s.curX.toNat + 1)),
        none) := by
  have hok : (paint (columnDots f.height s.curX.toNat s.curY.toNat bg) s).2 = none :=
    (paint_snd _ s).1 fun d hd => by
      obtain ⟨n, hn, rfl⟩ := mem_columnDots.mp hd
      exact ⟨hx, show s.curY.toNat + n < H by omega⟩
  have hcx := paint_curX (columnDots f.height s.curX.toNat s.curY.toNat bg) s
  unfold padColumn
  revert hok hcx
  generalize paint (columnDots f.height s.curX.toNat s.curY.toNat bg) s = a
  intro hok hcx
  obtain ⟨t, h⟩ := a
  cases hok
  simp only [andThen_none]
  simp only at hcx
  rw [hcx]

/-- The padding step, where the column runs past the bottom edge (41_rasterizer.md R91, R98). -/
theorem padColumn_overrun {f : Font} {bg : Color} {s : State} (hy : H < s.curY.toNat + f.height)
    (hs : s.curY.toNat ≤ H) :
    padColumn f bg s = ((paint (columnDots f.height s.curX.toNat s.curY.toNat bg) s).1,
      some (.raised .outOfBounds noInfo)) := by
  have hbad : (paint (columnDots f.height s.curX.toNat s.curY.toNat bg) s).2 =
      some (.raised .outOfBounds noInfo) :=
    (paint_snd _ s).2 ⟨⟨s.curX.toNat, s.curY.toNat + (H - s.curY.toNat), bg⟩,
      mem_columnDots.mpr ⟨H - s.curY.toNat, by omega, rfl⟩, fun h => by
        have := h.2
        simp only at this
        omega⟩
  unfold padColumn
  revert hbad
  generalize paint (columnDots f.height s.curX.toNat s.curY.toNat bg) s = a
  intro hbad
  obtain ⟨t, h⟩ := a
  cases hbad
  rfl

theorem layoutFull_iff {f : Font} {x y : Byte} :
    layoutFull f x y = true ↔ W ≤ x.toNat + f.height ∨ W ≤ y.toNat + f.height := by
  simp [layoutFull]

/-- The state of a glyph write touches the framebuffer, `CUR_X`, `LC` and the latches alone. -/
theorem glyphRows_state (f : Font) (ch : Byte) (fg bg : Color) (rows : List Nat) (s : State) :
    ∃ m l, (glyphRows f ch fg bg rows s).1 = (s.setFb m).setLc l := by
  induction rows generalizing s with
  | nil => exact ⟨s.fb, s.lc, rfl⟩
  | cons r rest ih =>
    unfold glyphRows
    split
    · exact ⟨s.fb, s.lc, rfl⟩
    · next i _ =>
      obtain ⟨m, l, h⟩ := paint_state (rowDots f (glyphRead f i) s.curX.toNat (s.curY.toNat + r) fg bg) s
      revert h
      generalize paint (rowDots f (glyphRead f i) s.curX.toNat (s.curY.toNat + r) fg bg) s = a
      intro h
      obtain ⟨t, o⟩ := a
      simp only at h
      cases o with
      | none =>
        obtain ⟨m', l', h'⟩ := ih t
        exact ⟨m', l', by simp only [andThen_none]; rw [h', h]; rfl⟩
      | some o => exact ⟨m, l, h⟩

theorem padColumn_state (f : Font) (bg : Color) (s : State) :
    ∃ m l v, (padColumn f bg s).1 = ((s.setFb m).setLc l).setCurX v := by
  unfold padColumn
  obtain ⟨m, l, h⟩ := paint_state (columnDots f.height s.curX.toNat s.curY.toNat bg) s
  revert h
  generalize paint (columnDots f.height s.curX.toNat s.curY.toNat bg) s = a
  intro h
  obtain ⟨t, o⟩ := a
  simp only at h
  cases o with
  | none => exact ⟨m, l, _, by simp only [andThen_none]; rw [h]⟩
  | some o => exact ⟨m, l, s.curX, by simp only [andThen_some]; rw [h]; rfl⟩

/-- A glyph write touches the latches, the framebuffer, `LC` and `CUR_X` alone, whatever its end. -/
theorem writeGlyph_state (fsel : BitVec 4) (f : Font) (ch : Byte) (fg bg : Color) (pad : Bool) (s : State) :
    ∃ m l v, (writeGlyph fsel f ch fg bg pad s).1 = (((s.latch fsel pad).setFb m).setLc l).setCurX v := by
  unfold writeGlyph
  split
  · exact ⟨s.fb, s.lc, s.curX, rfl⟩
  · have hpad : ∃ m l v, (if pad then padColumn f bg (s.latch fsel pad) else (s.latch fsel pad, none)).1 =
        (((s.latch fsel pad).setFb m).setLc l).setCurX v := by
      split
      · exact padColumn_state f bg _
      · exact ⟨s.fb, s.lc, s.curX, rfl⟩
    revert hpad
    generalize (if pad then padColumn f bg (s.latch fsel pad) else (s.latch fsel pad, none)) = a
    intro hpad
    obtain ⟨t, o⟩ := a
    obtain ⟨m, l, v, h⟩ := hpad
    simp only at h
    cases o with
    | some o => exact ⟨m, l, v, h⟩
    | none =>
      simp only [andThen_none]
      obtain ⟨m', l', h'⟩ := glyphRows_state f ch fg bg (List.range f.height) t
      revert h'
      generalize glyphRows f ch fg bg (List.range f.height) t = b
      intro h'
      obtain ⟨u, o⟩ := b
      simp only at h'
      cases o with
      | some o => exact ⟨m', l', v, by simp only [andThen_some]; rw [h', h]; rfl⟩
      | none => exact ⟨m', l', _, by simp only [andThen_none, advanceCursor]; rw [h', h]; rfl⟩

/-- A sub-operation that can only raise certain errors, followed by another of the same kind. -/
theorem andThen_end {P : Option Halt → Prop} {a : State × Option Halt} {b : State → State × Option Halt}
    (ha : P a.2) (hb : ∀ t, P (b t).2) : P (andThen a b).2 := by
  obtain ⟨t, o⟩ := a
  cases o with
  | none => exact hb t
  | some o => exact ha

/-- The ends a glyph write has after its layout check (41_rasterizer.md R88). -/
def AfterLayoutEnd (o : Option Halt) : Prop :=
  o = none ∨ o = some (.raised .outOfBounds noInfo) ∨ o = some (.raised .glyphLookupFailed noInfo)

theorem paint_end (dots : List Dot) (s : State) : AfterLayoutEnd (paint dots s).2 := by
  by_cases h : ∀ d ∈ dots, d.ok
  · exact .inl ((paint_snd dots s).1 h)
  · exact .inr (.inl ((paint_snd dots s).2 (by simpa using h)))

theorem glyphRows_end (f : Font) (ch : Byte) (fg bg : Color) (rows : List Nat) (s : State) :
    AfterLayoutEnd (glyphRows f ch fg bg rows s).2 := by
  induction rows generalizing s with
  | nil => exact .inl rfl
  | cons r rest ih =>
    unfold glyphRows
    split
    · exact .inr (.inr rfl)
    · exact andThen_end (paint_end _ _) ih

theorem padColumn_end (f : Font) (bg : Color) (s : State) : AfterLayoutEnd (padColumn f bg s).2 :=
  andThen_end (paint_end _ _) fun _ => .inl rfl

/-- How a glyph write can end: `LayoutFull` exactly on the layout check, else through, `OutOfBounds` or
`GlyphLookupFailed` (41_rasterizer.md R88, R90). -/
theorem writeGlyph_end (fsel : BitVec 4) (f : Font) (ch : Byte) (fg bg : Color) (pad : Bool) (s : State) :
    (layoutFull f s.curX s.curY = true ∧
      writeGlyph fsel f ch fg bg pad s = (s.latch fsel pad, some (.raised .layoutFull noInfo))) ∨
    (layoutFull f s.curX s.curY = false ∧ AfterLayoutEnd (writeGlyph fsel f ch fg bg pad s).2) := by
  unfold writeGlyph
  split
  · next h => exact .inl ⟨h, rfl⟩
  · next h =>
    refine .inr ⟨by simpa using h, andThen_end ?_ fun t => andThen_end (glyphRows_end ..) fun _ => .inl rfl⟩
    split
    · exact padColumn_end ..
    · exact .inl rfl

/-! ### Strings -/

/-- A string of two parts is the first part, then the second, with the indices going on (41_rasterizer.md R97). -/
theorem writeChars_append (fsel : BitVec 4) (f : Font) (fg bg : Color) (pad : Bool) (k : Nat) (a b : List Byte)
    (s : State) : writeChars fsel f fg bg pad k (a ++ b) s =
      andThen (writeChars fsel f fg bg pad k a s) (writeChars fsel f fg bg pad (k + a.length) b) := by
  induction a generalizing k s with
  | nil => rfl
  | cons c rest ih =>
    simp only [List.cons_append, writeChars]
    split
    · rw [ih]
      simp [Nat.add_assoc, Nat.add_comm 1]
    · rfl

/-- A string touches the framebuffer, `LC` and `CUR_X` alone, once the latches hold its operands. -/
theorem writeChars_state (fsel : BitVec 4) (f : Font) (fg bg : Color) (pad : Bool) (k : Nat) (text : List Byte)
    (s : State) : ∃ m l v, (writeChars fsel f fg bg pad k text (s.latch fsel pad)).1 =
      (((s.latch fsel pad).setFb m).setLc l).setCurX v := by
  induction text generalizing k s with
  | nil => exact ⟨s.fb, s.lc, s.curX, rfl⟩
  | cons c rest ih =>
    simp only [writeChars]
    obtain ⟨m, l, v, h⟩ := writeGlyph_state fsel f c fg bg pad (s.latch fsel pad)
    revert h
    generalize writeGlyph fsel f c fg bg pad (s.latch fsel pad) = a
    obtain ⟨t, o⟩ := a
    intro h
    simp only at h
    cases o with
    | none =>
      obtain ⟨m', l', v', h'⟩ := ih (k + 1) t
      have ht : t.latch fsel pad = t := by rw [h]; rfl
      rw [ht] at h'
      exact ⟨m', l', v', by simp only; rw [h', h]; rfl⟩
    | some o => exact ⟨m, l, v, by simp only; rw [h]; rfl⟩

/-- The kinds a glyph write raises. -/
def GlyphKind (k : ErrKind) : Prop := k = .layoutFull ∨ k = .outOfBounds ∨ k = .glyphLookupFailed

/-- A glyph write falls through or raises one of three kinds, without information. -/
theorem writeGlyph_kind (fsel : BitVec 4) (f : Font) (ch : Byte) (fg bg : Color) (pad : Bool) (s : State) :
    (writeGlyph fsel f ch fg bg pad s).2 = none ∨
    ∃ k, GlyphKind k ∧ (writeGlyph fsel f ch fg bg pad s).2 = some (.raised k noInfo) := by
  rcases writeGlyph_end fsel f ch fg bg pad s with ⟨-, h⟩ | ⟨-, h | h | h⟩
  · exact .inr ⟨.layoutFull, .inl rfl, by rw [h]⟩
  · exact .inl h
  · exact .inr ⟨.outOfBounds, .inr (.inl rfl), h⟩
  · exact .inr ⟨.glyphLookupFailed, .inr (.inr rfl), h⟩

/-- A string falls through, or raises one of three kinds with the index of a character (41_rasterizer.md R96). -/
theorem writeChars_kind (fsel : BitVec 4) (f : Font) (fg bg : Color) (pad : Bool) (k : Nat) (text : List Byte)
    (s : State) : (writeChars fsel f fg bg pad k text s).2 = none ∨
      ∃ e j, GlyphKind e ∧ k ≤ j ∧ j < k + text.length ∧
        (writeChars fsel f fg bg pad k text s).2 = some (.raised e { noInfo with idx := BitVec.ofNat 8 j }) := by
  induction text generalizing k s with
  | nil => exact .inl rfl
  | cons c rest ih =>
    simp only [writeChars]
    have h := writeGlyph_kind fsel f c fg bg pad s
    revert h
    generalize writeGlyph fsel f c fg bg pad s = a
    obtain ⟨t, o⟩ := a
    intro h
    cases o with
    | none =>
      rcases ih (k + 1) t with h' | ⟨e, j, he, h1, h2, h'⟩
      · exact .inl h'
      · exact .inr ⟨e, j, he, by omega, by simp only [List.length_cons]; omega, h'⟩
    | some o =>
      obtain ⟨e, he, h'⟩ := h.resolve_left (by simp)
      simp only [Option.some.injEq] at h'
      subst h'
      exact .inr ⟨e, k, he, le_rfl, by simp, rfl⟩

end Sys2Proof.Machine
end

