-- ==== Sys2Proof/Laws/Panel.lean ====
section
/-! SUPPORT. The view of a page-mode controller over a list of events. -/

namespace Sys2Proof.Machine

variable (delivered : Nat → Nat) (fresh : Nat → Panel) (v : Panel)

@[simp] theorem Panel.replay_nil : Panel.replay delivered fresh v [] = v := rfl

theorem Panel.replay_cons (e : TxEvent) (es : List TxEvent) : Panel.replay delivered fresh v (e :: es) =
    Panel.replay (fun n => delivered (n + 1)) (fun n => fresh (n + 1))
      (Panel.after (delivered 0) (fresh 0) v e) es := rfl

/-- The events of a second list are those that come after the first. -/
theorem Panel.replay_append (es fs : List TxEvent) : Panel.replay delivered fresh v (es ++ fs) =
    Panel.replay (fun n => delivered (n + es.length)) (fun n => fresh (n + es.length))
      (Panel.replay delivered fresh v es) fs := by
  induction es generalizing delivered fresh v with
  | nil => rfl
  | cons e rest ih => exact ih _ _ _

/-- A command byte moves the page or the column, and writes nothing. -/
@[simp] theorem Panel.command_mem (b : Byte) : (v.command b).mem = v.mem := by
  unfold Panel.command
  split
  · rfl
  · split
    · rfl
    · split <;> rfl

end Sys2Proof.Machine
end

