-- ==== Sys2Proof/Laws/Transport.lean ====
section
/-! SUPPORT. The transport: one transaction, and a list of transactions the first rejection of which ends the operation.
INIT's script and REFRESH's pages are such lists, so what each can do is said once, for lists. -/

namespace Sys2Proof.Machine

/-- The state after `n` answered transactions whose events are `es`. -/
def State.sent (s : State) (es : List TxEvent) (n : Nat) : State :=
  { s with tx := s.tx ++ es, answers := s.answers.drop n, answered := s.answered + n }

@[simp] theorem State.sent_cfg (s : State) (es : List TxEvent) (n : Nat) : (s.sent es n).cfg = s.cfg := rfl
@[simp] theorem State.sent_fb (s : State) (es : List TxEvent) (n : Nat) : (s.sent es n).fb = s.fb := rfl
@[simp] theorem State.sent_curX (s : State) (es : List TxEvent) (n : Nat) : (s.sent es n).curX = s.curX := rfl
@[simp] theorem State.sent_curY (s : State) (es : List TxEvent) (n : Nat) : (s.sent es n).curY = s.curY := rfl
@[simp] theorem State.sent_fontSel (s : State) (es : List TxEvent) (n : Nat) : (s.sent es n).fontSel = s.fontSel := rfl
@[simp] theorem State.sent_padLatch (s : State) (es : List TxEvent) (n : Nat) :
    (s.sent es n).padLatch = s.padLatch := rfl
@[simp] theorem State.sent_lc (s : State) (es : List TxEvent) (n : Nat) : (s.sent es n).lc = s.lc := rfl
@[simp] theorem State.sent_tx (s : State) (es : List TxEvent) (n : Nat) : (s.sent es n).tx = s.tx ++ es := rfl
@[simp] theorem State.sent_port (s : State) (es : List TxEvent) (n : Nat) : (s.sent es n).port = s.port := rfl
@[simp] theorem State.sent_staged (s : State) (es : List TxEvent) (n : Nat) : (s.sent es n).staged = s.staged := rfl
@[simp] theorem State.sent_responses (s : State) (es : List TxEvent) (n : Nat) :
    (s.sent es n).responses = s.responses := rfl
@[simp] theorem State.sent_answers (s : State) (es : List TxEvent) (n : Nat) :
    (s.sent es n).answers = s.answers.drop n := rfl
@[simp] theorem State.sent_answered (s : State) (es : List TxEvent) (n : Nat) :
    (s.sent es n).answered = s.answered + n := rfl
@[simp] theorem State.sent_phase (s : State) (es : List TxEvent) (n : Nat) : (s.sent es n).phase = s.phase := rfl

theorem State.sent_zero (s : State) : s.sent [] 0 = s := by
  simp [State.sent]

theorem State.sent_sent (s : State) (es fs : List TxEvent) (n k : Nat) :
    (s.sent es n).sent fs k = s.sent (es ++ fs) (n + k) := by
  simp [State.sent, List.drop_drop, Nat.add_assoc]

/-- After `n` answers the stream of answers goes on where it was. -/
@[simp] theorem State.answerAt_sent (s : State) (es : List TxEvent) (n k : Nat) :
    (s.sent es n).answerAt k = s.answerAt (n + k) := by
  simp only [State.answerAt, State.sent, List.getElem?_drop, Nat.add_assoc]

@[simp] theorem State.answerAt_pushTx (s : State) (es : List TxEvent) (k : Nat) :
    (s.pushTx es).answerAt k = s.answerAt k := rfl

/-- One answered transaction. -/
theorem transact_some {e : Reply → TxEvent} {s : State} {a : Reply} (h : s.answerAt 0 = some a) :
    transact e s = (s.sent [e a] 1, some a) := by
  simp only [transact, h, State.sent, State.takeAnswer, State.pushTx, List.drop_one]

/-- A transaction never answered. -/
theorem transact_none {e : Reply → TxEvent} {s : State} (h : s.answerAt 0 = none) :
    transact e s = (s.setPhase .awaitingTransport, none) := by
  simp only [transact, h]

/-- A list of transactions with their stages, ended by the first rejection. -/
def runTransactions : List (Nat × (Reply → TxEvent)) → State → State × Option Halt
  | [], s => (s, none)
  | p :: rest, s => andThen (orFailStage p.1 (transact p.2 s)) (runTransactions rest)

theorem andThen_assoc (a : State × Option Halt) (b c : State → State × Option Halt) :
    andThen (andThen a b) c = andThen a fun s => andThen (b s) c := by
  obtain ⟨s, h⟩ := a
  cases h <;> rfl

theorem andThen_nil (a : State × Option Halt) : (andThen a fun s => (s, none)) = a := by
  obtain ⟨s, h⟩ := a
  cases h <;> rfl

theorem runTransactions_append (l k : List (Nat × (Reply → TxEvent))) (s : State) :
    runTransactions (l ++ k) s = andThen (runTransactions l s) (runTransactions k) := by
  induction l generalizing s with
  | nil => rfl
  | cons p rest ih =>
    simp only [List.cons_append, runTransactions, andThen_assoc]
    congr
    funext t
    exact ih t

/-- Every answer `Ok`: the list runs through. -/
theorem runTransactions_ok {l : List (Nat × (Reply → TxEvent))} {s : State} (h : AnswersOk s l.length) :
    runTransactions l s = (s.sent (l.map fun p => p.2 .ok) l.length, none) := by
  induction l generalizing s with
  | nil => exact (by rw [List.map_nil, List.length_nil, State.sent_zero]; rfl)
  | cons p rest ih =>
    have h0 : s.answerAt 0 = some .ok := h 0 (by simp)
    simp only [runTransactions, transact_some h0, orFailStage, andThen]
    rw [ih fun k hk => by
      rw [State.answerAt_sent]
      exact h (1 + k) (by simp only [List.length_cons]; omega)]
    rw [State.sent_sent]
    simp [Nat.add_comm]

/-- The first rejection ends the list with its stage. -/
theorem runTransactions_fail {l : List (Nat × (Reply → TxEvent))} {s : State} {n : Nat} (hn : n < l.length)
    (h : AnswersOk s n) (hf : s.answerAt n = some .fail) :
    runTransactions l s = (s.sent ((l.take n).map (fun p => p.2 .ok) ++ [(l[n]).2 .fail]) (n + 1),
      some (.raised .protocolStageFailure (stageInfo (l[n]).1))) := by
  induction l generalizing s n with
  | nil => simp at hn
  | cons p rest ih =>
    cases n with
    | zero => simp only [runTransactions, transact_some hf, orFailStage, andThen]; rfl
    | succ n =>
      have h0 : s.answerAt 0 = some .ok := h 0 (by omega)
      simp only [runTransactions, transact_some h0, orFailStage, andThen]
      rw [ih (n := n) (by simpa using hn) (fun k hk => by
          rw [State.answerAt_sent]
          exact h (1 + k) (by omega))
        (by rw [State.answerAt_sent, Nat.add_comm]; exact hf)]
      rw [State.sent_sent]
      simp [Nat.add_comm]

/-- A transaction never answered leaves the block stuck inside it. -/
theorem runTransactions_silent {l : List (Nat × (Reply → TxEvent))} {s : State} {n : Nat} (hn : n < l.length)
    (h : AnswersOk s n) (hf : s.answerAt n = none) :
    runTransactions l s = ((s.sent ((l.take n).map fun p => p.2 .ok) n).setPhase .awaitingTransport,
      some .hung) := by
  induction l generalizing s n with
  | nil => simp at hn
  | cons p rest ih =>
    cases n with
    | zero =>
      simp only [runTransactions, transact_none hf, orFailStage, andThen, List.take_zero, List.map_nil,
        State.sent_zero]
    | succ n =>
      have h0 : s.answerAt 0 = some .ok := h 0 (by omega)
      simp only [runTransactions, transact_some h0, orFailStage, andThen]
      rw [ih (n := n) (by simpa using hn) (fun k hk => by
          rw [State.answerAt_sent]
          exact h (1 + k) (by omega))
        (by rw [State.answerAt_sent, Nat.add_comm]; exact hf)]
      rw [State.sent_sent]
      simp [Nat.add_comm]

/-- How a list of transactions can end: through, rejected at some index, or unanswered at some index. -/
theorem answers_cases (s : State) (n : Nat) :
    AnswersOk s n ∨ (∃ k < n, AnswersOk s k ∧ s.answerAt k = some .fail) ∨
      ∃ k < n, AnswersOk s k ∧ s.answerAt k = none := by
  induction n with
  | zero => exact .inl fun k hk => absurd hk (Nat.not_lt_zero k)
  | succ n ih =>
    rcases ih with h | ⟨k, hk, h⟩ | ⟨k, hk, h⟩
    · match ha : s.answerAt n with
      | some .ok =>
        refine .inl fun k hk => ?_
        rcases Nat.lt_succ_iff_lt_or_eq.mp hk with hk | rfl
        · exact h k hk
        · exact ha
      | some .fail => exact .inr (.inl ⟨n, by omega, h, ha⟩)
      | none => exact .inr (.inr ⟨n, by omega, h, ha⟩)
    · exact .inr (.inl ⟨k, by omega, h⟩)
    · exact .inr (.inr ⟨k, by omega, h⟩)

/-! ### INIT and REFRESH as lists of transactions -/

/-- The transactions of script bytes from index `i` on. -/
def scriptTransactions (i : Nat) (bytes : List Byte) : List (Nat × (Reply → TxEvent)) :=
  (bytes.zipIdx i).map fun p => (p.2, TxEvent.cmd p.1)

theorem sendScript_eq_run (i : Nat) (bytes : List Byte) (s : State) :
    sendScript i bytes s = runTransactions (scriptTransactions i bytes) s := by
  induction bytes generalizing i s with
  | nil => rfl
  | cons b rest ih =>
    simp only [sendScript, scriptTransactions, List.zipIdx_cons, List.map_cons, runTransactions, tpCmd]
    congr
    funext t
    exact ih (i + 1) t

@[simp] theorem scriptTransactions_length (i : Nat) (bytes : List Byte) :
    (scriptTransactions i bytes).length = bytes.length := by simp [scriptTransactions]

theorem scriptTransactions_map (i : Nat) (bytes : List Byte) (a : Reply) :
    ((scriptTransactions i bytes).map fun p => p.2 a) = bytes.map fun b => TxEvent.cmd b a := by
  induction bytes generalizing i with
  | nil => rfl
  | cons b rest ih =>
    have := ih (i + 1)
    simp only [scriptTransactions, List.zipIdx_cons, List.map_cons] at *
    rw [this]

theorem scriptTransactions_getElem (i : Nat) (bytes : List Byte) (n : Nat)
    (h : n < (scriptTransactions i bytes).length) :
    (scriptTransactions i bytes)[n] = (i + n, TxEvent.cmd (bytes[n]'(by simpa using h))) := by
  simp [scriptTransactions]

/-- The four transactions of a page. -/
def pageTransactions (m : Memory) (p : Nat) : List (Nat × (Reply → TxEvent)) :=
  [(refreshStage p 0, TxEvent.cmd (pageSelectByte p)), (refreshStage p 1, TxEvent.cmd colLowByte),
   (refreshStage p 1, TxEvent.cmd colHighByte), (refreshStage p 2, TxEvent.data (pageBytes m p))]

/-- Sending changes no framebuffer. -/
theorem orFailStage_transact_fb (stage : Nat) (e : Reply → TxEvent) (s : State) :
    (orFailStage stage (transact e s)).1.fb = s.fb := by
  unfold transact
  split
  · next a _ => cases a <;> rfl
  · rfl

/-- A continuation may use what the state before sending fixes. -/
theorem andThen_congr_fb {a : State × Option Halt} {m : Memory} (h : a.1.fb = m)
    {b c : State → State × Option Halt} (hbc : ∀ t : State, t.fb = m → b t = c t) : andThen a b = andThen a c := by
  obtain ⟨t, o⟩ := a
  cases o with
  | none => exact hbc t h
  | some o => rfl

theorem refreshPage_eq_run (p : Nat) (s : State) :
    refreshPage p s = runTransactions (pageTransactions s.fb p) s := by
  simp only [refreshPage, pageTransactions, runTransactions, tpCmd, tpData]
  refine andThen_congr_fb (orFailStage_transact_fb _ _ s) fun t ht => ?_
  refine andThen_congr_fb (orFailStage_transact_fb _ _ t) fun u hu => ?_
  refine andThen_congr_fb (orFailStage_transact_fb _ _ u) fun v hv => ?_
  rw [hv, hu, ht]
  exact (andThen_nil _).symm

theorem runTransactions_fb (l : List (Nat × (Reply → TxEvent))) (s : State) : (runTransactions l s).1.fb = s.fb := by
  rcases answers_cases s l.length with h | ⟨n, hn, h, hf⟩ | ⟨n, hn, h, hf⟩
  · rw [runTransactions_ok h]; rfl
  · rw [runTransactions_fail hn h hf]; rfl
  · rw [runTransactions_silent hn h hf]; rfl

theorem refreshPages_eq_run (pages : List Nat) (s : State) :
    refreshPages pages s = runTransactions (pages.flatMap (pageTransactions s.fb)) s := by
  induction pages generalizing s with
  | nil => rfl
  | cons p rest ih =>
    simp only [refreshPages, List.flatMap_cons, runTransactions_append, refreshPage_eq_run]
    exact andThen_congr_fb (runTransactions_fb _ s) fun t ht => ht ▸ ih t

theorem pageTransactions_map (m : Memory) (p : Nat) :
    ((pageTransactions m p).map fun q => q.2 .ok) = pageEvents m p := rfl

theorem pagesTransactions_length (m : Memory) (pages : List Nat) :
    (pages.flatMap (pageTransactions m)).length = 4 * pages.length := by
  induction pages with
  | nil => rfl
  | cons p rest ih =>
    simp only [List.flatMap_cons, List.length_append, ih, List.length_cons]
    simp only [pageTransactions, List.length_cons, List.length_nil]
    omega

theorem pagesTransactions_map (m : Memory) (pages : List Nat) :
    ((pages.flatMap (pageTransactions m)).map fun q => q.2 .ok) = pages.flatMap (pageEvents m) := by
  induction pages with
  | nil => rfl
  | cons p rest ih =>
    simp only [List.flatMap_cons, List.map_append, ih, pageTransactions_map]

end Sys2Proof.Machine
end

