-- ==== Sys2Proof/Laws/Surface.lean ====
section
/-! SUPPORT. How an operation begins and ends: its font, its cursor placement, its response word, and a refresh as one
list of transactions. -/

namespace Sys2Proof.Machine

/-! ### Response words -/

section fields
variable (st ph : BitVec 4) (idx sg v : Byte)

theorem packResponse_status : (packResponse st ph idx sg v).extractLsb' 28 4 = st := by
  simp (disch := omega) only [packResponse, extract_append_hi, extract_all, Nat.reduceSub]
theorem packResponse_phase : (packResponse st ph idx sg v).extractLsb' 24 4 = ph := by
  simp (disch := omega) only [packResponse, extract_append_lo, extract_append_hi, extract_all, Nat.reduceSub]
theorem packResponse_idx : (packResponse st ph idx sg v).extractLsb' 16 8 = idx := by
  simp (disch := omega) only [packResponse, extract_append_lo, extract_append_hi, extract_all, Nat.reduceSub]
theorem packResponse_stage : (packResponse st ph idx sg v).extractLsb' 8 8 = sg := by
  simp (disch := omega) only [packResponse, extract_append_lo, extract_append_hi, extract_all, Nat.reduceSub]
theorem packResponse_val : (packResponse st ph idx sg v).extractLsb' 0 8 = v := by
  simp (disch := omega) only [packResponse, extract_append_lo, extract_all]

end fields

/-- A response word determines its fields (30_encoding.md R58). -/
theorem packResponse_inj {st ph st' ph' : BitVec 4} {idx sg v idx' sg' v' : Byte}
    (h : packResponse st ph idx sg v = packResponse st' ph' idx' sg' v') :
    st = st' ∧ ph = ph' ∧ idx = idx' ∧ sg = sg' ∧ v = v' := by
  refine ⟨?_, ?_, ?_, ?_, ?_⟩
  · rw [← packResponse_status st ph idx sg v, h, packResponse_status]
  · rw [← packResponse_phase st ph idx sg v, h, packResponse_phase]
  · rw [← packResponse_idx st ph idx sg v, h, packResponse_idx]
  · rw [← packResponse_stage st ph idx sg v, h, packResponse_stage]
  · rw [← packResponse_val st ph idx sg v, h, packResponse_val]

/-- No error has the status of success (60_exceptions.md R121). -/
theorem statusCode_ne_zero (k : ErrKind) : statusCode k ≠ 0#4 := by cases k <;> decide

/-! ### Fonts and the cursor -/

theorem withFont_some {fsel : BitVec 4} {s : State} {f : Font} (h : fontOf s.cfg fsel = some f) (body : Font → State) :
    withFont fsel s body = body f := by simp only [withFont, h]

theorem withFont_none {fsel : BitVec 4} {s : State} (h : fontOf s.cfg fsel = none) (body : Font → State) :
    withFont fsel s body = answerIllegal s := by simp only [withFont, h]

theorem placeCursor_in {x y : Byte} (s : State) (hx : x.toNat < W) (hy : y.toNat < H) :
    placeCursor x y s = (s.setCursor x y, none) := by
  unfold placeCursor
  rw [if_pos (inFrame_iff.2 ⟨hx, hy⟩)]

theorem placeCursor_out {x y : Byte} (s : State) (h : W ≤ x.toNat ∨ H ≤ y.toNat) :
    placeCursor x y s = (s, some (.raised .outOfBounds noInfo)) := by
  unfold placeCursor
  rw [if_neg (by rw [inFrame_iff]; omega)]

/-- A pixel of a filled frame. -/
theorem pixel_fill (c : Color) {x y : Nat} (hx : x < W) (hy : y < H) :
    pixel (Memory.fill (fillByte c)) x y = c := by
  unfold pixel
  rw [Memory.read_fill _ (decodeXY_unit_lt hx hy)]
  have hb := decodeXY_bit_lt x y
  revert hb
  generalize (decodeXY x y).bit = b
  intro hb
  cases c <;> interval_cases b <;> decide

/-! ### No operation reads the responses -/

/-- A state with responses put before its own. -/
def State.withAnswered (s : State) (past : List ResponseWord) : State := { s with responses := past ++ s.responses }

theorem blind_withAnswered (past : List ResponseWord) : Blind (fun s t => t = s.withAnswered past) := by
  constructor
  all_goals (intro s t; intros; rename_i h; subst h)
  all_goals (try rfl)
  · obtain ⟨_, _, _, _, _, _, l, _, _, _, _, _, _, _⟩ := s
    cases l <;> rfl
  · obtain ⟨_, _, _, _, _, _, l, _, _, _, _, _, _, _⟩ := s
    cases l <;> rfl
  · simp only [State.withAnswered, State.pushResponse, List.append_assoc]

/-- A sub-operation that delivers no response does the same after one more response. -/
theorem pushResponse_comm {op : State → State × Option Halt}
    (hop : ∀ {R : State → State → Prop}, Blind R → ∀ {s t}, R s t → Alike R (op s) (op t)) (u : State)
    (r : ResponseWord) (hr : (op u).1.responses = u.responses) :
    op (u.pushResponse r) = ((op u).1.pushResponse r, (op u).2) := by
  let z : State := { u with responses := [] }
  obtain ⟨a1, b1⟩ := hop (blind_withAnswered u.responses) (s := z) (t := u) (by simp [State.withAnswered, z])
  obtain ⟨a2, b2⟩ := hop (blind_withAnswered (u.responses ++ [r])) (s := z) (t := u.pushResponse r)
    (by simp [State.withAnswered, z, State.pushResponse])
  have hz : (op z).1.responses = [] := by
    have h := congrArg State.responses a1
    rw [hr] at h
    simpa [State.withAnswered] using h
  refine Prod.ext ?_ (b2.symm.trans b1)
  rw [a2, a1]
  simp [State.withAnswered, State.pushResponse, hz]

/-! ### A refresh -/

/-- The transactions of a refresh (42_controller.md R108, R109). -/
def frameTransactions (m : Memory) : List (Nat × (Reply → TxEvent)) :=
  (List.range NPAGES).flatMap (pageTransactions m)

theorem refreshAll_eq_run (s : State) : refreshAll s = lcAtRefreshEnd (runTransactions (frameTransactions s.fb) s) := by
  rw [refreshAll, refreshPages_eq_run, frameTransactions]

theorem frameTransactions_length (m : Memory) : (frameTransactions m).length = 4 * NPAGES := by
  rw [frameTransactions, pagesTransactions_length, List.length_range]

/-- The k-th transaction of a page is one of its four. -/
theorem frameTransactions_getElem? (m : Memory) {p k : Nat} (hp : p < NPAGES) (hk : k < 4) :
    (frameTransactions m)[4 * p + k]? = (pageTransactions m p)[k]? := by
  obtain ⟨d, hd⟩ : ∃ d, NPAGES = p + (d + 1) := ⟨NPAGES - p - 1, by omega⟩
  rw [frameTransactions, hd, List.range_add, List.flatMap_append,
    List.getElem?_append_right (by rw [pagesTransactions_length, List.length_range]; omega), pagesTransactions_length,
    List.length_range, Nat.add_sub_cancel_left, List.range_succ_eq_map, List.map_cons, List.flatMap_cons,
    List.getElem?_append_left (by simp [pageTransactions]; omega)]
  rfl

/-- The transactions before it are the whole pages before, and the earlier ones of its page. -/
theorem frameTransactions_take (m : Memory) {p k : Nat} (hp : p < NPAGES) (hk : k < 4) :
    (frameTransactions m).take (4 * p + k) =
      (List.range p).flatMap (pageTransactions m) ++ (pageTransactions m p).take k := by
  obtain ⟨d, hd⟩ : ∃ d, NPAGES = p + (d + 1) := ⟨NPAGES - p - 1, by omega⟩
  rw [frameTransactions, hd, List.range_add, List.flatMap_append, List.take_append, pagesTransactions_length,
    List.length_range, Nat.add_sub_cancel_left,
    List.take_of_length_le (by rw [pagesTransactions_length, List.length_range]; omega)]
  congr 1
  rw [List.range_succ_eq_map, List.map_cons, List.flatMap_cons,
    List.take_append_of_le_length (by simp [pageTransactions]; omega)]
  rfl

end Sys2Proof.Machine
end

