-- ==== Sys2Proof/Tests/Slice0.lean ====
section
/-! SUPPORT. Tests on the vectors of 95_test_vectors.md (its fixture fonts, the candidate script tail of 42_controller.md
R105), and a witness for every statement that has hypotheses. -/

namespace Sys2Proof.Machine.Tests

open Sys2Proof Sys2Proof.Machine

/-! ### Fixtures (95_test_vectors.md section 1) -/

/-- `TF57`: 5 wide, 7 high, blank but for 'A' and 'I'. -/
def tf57 : Font where
  width := 5
  height := 7
  rows := List.replicate 231 0#16 ++
    [0x2000#16, 0x5000#16, 0x8800#16, 0x8800#16, 0xF800#16, 0x8800#16, 0x8800#16] ++ List.replicate 49 0#16 ++
    [0xF800#16, 0x2000#16, 0x2000#16, 0x2000#16, 0x2000#16, 0x2000#16, 0xF800#16] ++ List.replicate 371 0#16
  width_ok := by decide
  height_ok := by decide
  rows_ok := by
    simp only [List.length_append, List.length_replicate, List.length_cons, List.length_nil, NCHARS]

/-- `TF16x2`: 16 wide, 2 high, every row `0x8001`. -/
def tf16x2 : Font where
  width := 16
  height := 2
  rows := List.replicate 190 0x8001#16
  width_ok := by decide
  height_ok := by decide
  rows_ok := by simp only [List.length_replicate, NCHARS]

/-- `SCRIPT_TAIL_candidate` (42_controller.md R105). -/
def tailCandidate : ScriptTail where
  startLine := ⟨0x40#8, []⟩
  verticalFlip := ⟨0xC8#8, []⟩
  horizontalFlip := ⟨0xA1#8, []⟩
  multiplexRatio := ⟨0xA8#8, [0x3F#8]⟩
  verticalOffset := ⟨0xD3#8, [0x00#8]⟩
  comPins := ⟨0xDA#8, [0x12#8]⟩
  clockDivider := ⟨0xD5#8, [0xF0#8]⟩
  preCharge := ⟨0xD9#8, [0x22#8]⟩
  vcomhLevel := ⟨0xDB#8, [0x20#8]⟩
  displayOn := ⟨0xAF#8, []⟩

/-- The configuration of the vectors. -/
def fixtures : Sys2Proof.Config where
  fonts := [tf57, tf16x2]
  tail := tailCandidate
  fonts_ok := by decide
  tail_fits := by decide

/-- Reset, with the fixtures. -/
def start : State := { State.reset with cfg := fixtures }

/-- `start` with a white frame. -/
def white : State := { start with fb := Memory.fill 0xFF#8 }

/-- A cursor position. -/
def at_ (x y : Byte) (s : State) : State := s.setCursor x y

/-- The next `n` transactions are answered `Ok`, and the one after them `a`. -/
def answering (n : Nat) (a : Option Reply) (s : State) : State :=
  { s with answers := List.replicate n (some Reply.ok) ++ [a] }

/-- The state after an instruction. -/
def after (i : Instr) (s : State) : State :=
  match exec i s with
  | .next t => t
  | .fault _ => s
  | .refused _ => s

/-- What an instruction leaves in the framebuffer's listed units, the cursor, and the response words. -/
def seen (i : Instr) (s : State) : Memory × Nat × Nat × List ResponseWord :=
  ((after i s).fb, (after i s).curX.toNat, (after i s).curY.toNat, (after i s).responses)

/-- The units read, from `u` on. -/
def units (m : Memory) (u n : Nat) : List Nat := (List.range n).map fun k => (Memory.read m (u + k)).toNat

/-! ### WellFormed: each check refuses an ill-formed term -/

theorem test_wf_accepts : Instr.wf fixtures (.write (List.replicate 255 0x41#8) 1#4 0#8 0#8 .black .white true true) = true := by
  decide +kernel
theorem test_wf_refuses_long_wrstr : Instr.payloadFits (.wrstr (List.replicate 256 0x41#8) 0#4 .white .black false) = false := by
  decide +kernel
theorem test_wf_refuses_long_write :
    Instr.payloadFits (.write (List.replicate 256 0x41#8) 0#4 0#8 0#8 .black .white false false) = false := by
  decide +kernel
theorem test_wf_refuses_missing_font :
    Instr.fontExists fixtures (.wrchar 0x41#8 2#4 .white .black false) = false ∧
    Instr.fontExists fixtures (.wrstr [] 2#4 .white .black false) = false ∧
    Instr.fontExists fixtures (.write [] 2#4 0#8 0#8 .black .white false false) = false := by decide

/-! ### Decoding: words written out from 30_encoding.md R57, R64 and 42_controller.md R103, R106, R107 -/

/-- SETPX: `op` 0001, `x` 0000_0101, `y` 0000_1001, `fg` 1. -/
theorem test_decode_setpx : decodeTableWord 64 0x1050900000000001 = some (.setpx 5#8 9#8 .white) := by decide +kernel
theorem test_decode_fill : decodeTableWord 64 0x2000000000000001 = some (.fill .white) := by decide +kernel
theorem test_decode_setcur : decodeTableWord 64 0x37F3F00000000000 = some (.setcur 127#8 63#8) := by decide +kernel
/-- WRCHAR: `ch` 0100_0001, `fsel` 0010, `pad` 1, `fg` 1. -/
theorem test_decode_wrchar : decodeTableWord 64 0x4000041002000005 = some (.wrchar 0x41#8 2#4 .white .black true) := by
  decide +kernel
theorem test_decode_wrstr :
    decodeTableWord 64 0x5000000020000006 = some (.wrstr [0#8, 0#8] 0#4 .black .white true) := by decide +kernel
/-- WRITE: `x` 2, `y` 3, `len` 1, `commit` 1, `fg` 1. -/
theorem test_decode_write :
    decodeTableWord 64 0x6020300010000009 = some (.write [0#8] 0#4 2#8 3#8 .black .white false true) := by decide +kernel
theorem test_decode_plain :
    [0x7000000000000000, 0x8000000000000000, 0x9000000000000000, 0xA000000000000000].map (decodeTableWord 64) =
      [some .init, some .refresh, some .getw, some .geth] := by decide +kernel
theorem test_decode_commands :
    [0xAE, 0xA4, 0xA6, 0x81, 0x20, 0xB0, 0xB7, 0x00, 0x10].map (decodeTableWord 8) =
      [some .cbSleep, some .cbRamFollow, some .cbInverseOff, some .cbContrast, some .cbMemoryMode,
       some (.cbPageSelect 0#3), some (.cbPageSelect 7#3), some .cbColLow0, some .cbColHigh0] := by decide +kernel
/-- The illegal words X1 to X8 and X10 of 95_test_vectors.md section 8, and bytes that are no command row. -/
theorem test_decode_rejects :
    [0x0000000000000000, 0xB000000000000000, 0xFFFFFFFFFFFFFFFF, 0x2010000000000001, 0x3020300000000001,
     0x9000000000000001, 0x7000000000000010, 0x1000001000000001, 0x5000000020000009].all
      (fun w => decodeTableWord 64 w = none) = true ∧
    [0x01, 0xAF, 0xB8, 0xFF].all (fun w => decodeTableWord 8 w = none) = true := by decide +kernel
theorem test_decode_needs_more :
    decodeRequest [0x10#8, 0x50#8] = .needHeader ∧
    decodeRequest (bytesOfHeader 0x5000000020000001#64 ++ [0x41#8]) = .needPayload := by decide +kernel
/-- X3: a reserved operation consumes no payload; X10: an illegal WRSTR consumes its own. -/
theorem test_decode_illegal_payload :
    decodeRequest (bytesOfHeader 0xFFFFFFFFFFFFFFFF#64 ++ [0x41#8]) = .illegal .reservedOp [0x41#8] ∧
    decodeRequest (bytesOfHeader 0x5000000020000009#64 ++ [0x41#8, 0x49#8, 0x90#8]) =
      .illegal .nonzeroField [0x90#8] := by decide +kernel

/-! ### Framebuffer (95_test_vectors.md sections 2 and 4) -/

/-- S1: `SETPX 10, 47, White`. -/
theorem test_setpx_white : seen (.setpx 10#8 47#8 .white) start = ([(650, 0x80#8)], 0, 0, [0#32]) := by decide +kernel
/-- F4: `SETPX 3, 10, Black` on a white frame clears one bit. -/
theorem test_setpx_black :
    units (after (.setpx 3#8 10#8 .black) white).fb 130 3 = [0xFF, 0xFB, 0xFF] := by decide +kernel
/-- F9 and F10. -/
theorem test_fill : seen (.fill .black) (at_ 7#8 9#8 white) = ([], 7, 9, [0#32]) ∧
    units (after (.fill .white) start).fb 1021 4 = [0xFF, 0xFF, 0xFF, 0x00] := by decide +kernel

/-! ### Rasterizer (section 5) -/

/-- K1, and K2: out of range. -/
theorem test_setcur : seen (.setcur 2#8 3#8) start = ([], 2, 3, [0#32]) ∧
    seen (.setcur 128#8 0#8) (at_ 2#8 3#8 start) = ([], 2, 3, [0x10000000#32]) := by decide +kernel
/-- G2: with padding on a white frame. -/
theorem test_wrchar_pad :
    units (after (.wrchar 0x41#8 0#4 .white .black true) (at_ 3#8 8#8 white)).fb 130 8 =
      [0xFF, 0x80, 0xFC, 0x92, 0x91, 0x92, 0xFC, 0xFF] ∧
    (after (.wrchar 0x41#8 0#4 .white .black true) (at_ 3#8 8#8 white)).curX = 10#8 := by decide +kernel
/-- G25: the wide font at the bottom edge. -/
theorem test_wrchar_overrun : seen (.wrchar 0x7E#8 1#4 .white .black false) (at_ 0#8 63#8 start) =
    ([(896, 0x80#8), (911, 0x80#8)], 0, 63, [0x10000000#32]) := by decide +kernel
/-- W1: the string stops at its second character. -/
theorem test_wrstr_stops : seen (.wrstr [0x41#8, 0x7F#8, 0x41#8] 0#4 .white .black false) start =
    ([(0, 0x7C#8), (1, 0x12#8), (2, 0x11#8), (3, 0x12#8), (4, 0x7C#8)], 5, 0, [0x30010000#32]) := by decide +kernel
/-- W7: the nineteenth padded character does not fit. -/
theorem test_wrstr_full :
    ((after (.wrstr (List.replicate 19 0x41#8) 0#4 .white .black true) start).curX,
      (after (.wrstr (List.replicate 19 0x41#8) 0#4 .white .black true) start).responses) =
      (126#8, [0x20120000#32]) := by decide +kernel

/-! ### Public surface (section 7) -/

/-- P-W1: text on a background. -/
theorem test_write :
    (units (after (.write [0x41#8, 0x49#8] 0#4 0#8 0#8 .white .black false false) (at_ 9#8 9#8 start)).fb 0 11,
      (after (.write [0x41#8, 0x49#8] 0#4 0#8 0#8 .white .black false false) (at_ 9#8 9#8 start)).curX) =
      ([0x83, 0xED, 0xEE, 0xED, 0x83, 0xBE, 0xBE, 0x80, 0xBE, 0xBE, 0xFF], 10#8) := by decide +kernel
/-- P-W6: the 32nd transaction of the commit is rejected. -/
theorem test_write_commit_rejected :
    ((after (.write [0x41#8] 0#4 0#8 0#8 .black .white false true) (answering 31 (some .fail) start)).responses,
      (after (.write [0x41#8] 0#4 0#8 0#8 .black .white false true) (answering 31 (some .fail) start)).tx.length) =
      ([0x53001E00#32], 32) := by decide +kernel
/-- Q1 and Q2. -/
theorem test_sizes : seen .getw start = ([], 0, 0, [0x80#32]) ∧ seen .geth start = ([], 0, 0, [0x40#32]) := by
  decide +kernel

/-! ### Controller (section 6) -/

/-- I1: the whole trace, 28 events. -/
theorem test_init : (after .init (answering 26 none start)).tx = [.rstAssert, .rstRelease] ++
    [0xAE#8, 0xA4#8, 0xA6#8, 0x81#8, 0xFF#8, 0x20#8, 0x02#8, 0xB0#8, 0x00#8, 0x10#8, 0x40#8, 0xC8#8, 0xA1#8, 0xA8#8,
     0x3F#8, 0xD3#8, 0x00#8, 0xDA#8, 0x12#8, 0xD5#8, 0xF0#8, 0xD9#8, 0x22#8, 0xDB#8, 0x20#8, 0xAF#8].map
      (fun b => TxEvent.cmd b .ok) := by decide +kernel
/-- I2: the fifth command is rejected. -/
theorem test_init_rejected :
    ((after .init (answering 4 (some .fail) start)).tx.drop 2, (after .init (answering 4 (some .fail) start)).responses) =
      ([.cmd 0xAE#8 .ok, .cmd 0xA4#8 .ok, .cmd 0xA6#8 .ok, .cmd 0x81#8 .ok, .cmd 0xFF#8 .fail],
       [0x50000400#32]) := by decide +kernel
/-- The frame of T1. -/
def frameT1 : State := { start with fb := [(0, 0x01#8), (133, 0x02#8), (1023, 0x80#8)], lc := .configured }
/-- T1: the second page of the frame. -/
theorem test_refresh :
    ((after .refresh (answering 32 none frameT1)).tx.drop 4).take 4 =
      [.cmd 0xB1#8 .ok, .cmd 0x00#8 .ok, .cmd 0x10#8 .ok,
       .data (List.replicate 5 0#8 ++ [0x02#8] ++ List.replicate 122 0#8) .ok] ∧
    (after .refresh (answering 32 none frameT1)).lc = .synchronized ∧
    (after .refresh (answering 32 none frameT1)).tx.length = 32 := by decide +kernel
/-- T8: the 12th transaction is rejected. -/
theorem test_refresh_rejected :
    ((after .refresh (answering 11 (some .fail) frameT1)).responses,
      (after .refresh (answering 11 (some .fail) frameT1)).tx.length,
      (after .refresh (answering 11 (some .fail) frameT1)).lc) = ([0x50000A00#32], 12, .configured) := by decide +kernel
/-- R41, U3: two rejected bursts of one trace deliver prefixes of their own, 1 byte of the first and none of the other. -/
theorem test_panel_prefixes :
    ([0, 1, 2].map fun c => ((Panel.replay (fun n => if n = 1 then 1 else 0) (fun _ => ⟨7, 7, fun _ _ => 0xEE#8⟩)
      ⟨0, 0, fun _ _ => 0x55#8⟩
      [.cmd 0xB0#8 .ok, .data [0x01#8, 0x02#8] .fail, .data [0x03#8, 0x04#8] .fail]).mem 0 c).toNat) =
      [0x01, 0x55, 0x55] := by decide +kernel
/-- Each command byte of the opcode table is one transaction with that byte. -/
theorem test_command_bytes :
    ([.cbSleep, .cbRamFollow, .cbInverseOff, .cbContrast, .cbMemoryMode, .cbPageSelect 5#3, .cbColLow0,
      .cbColHigh0].map fun i => (after i (answering 0 (some .fail) start)).tx) =
      [0xAE#8, 0xA4#8, 0xA6#8, 0x81#8, 0x20#8, 0xB5#8, 0x00#8, 0x10#8].map fun b => [TxEvent.cmd b .fail] := by
  decide +kernel

/-! ### Steps -/

/-- X10: an illegal request is answered, its payload consumed, and the request after it is next. -/
theorem test_step_illegal :
    step { start with port := bytesOfHeader 0x5000000020000009#64 ++ [0x41#8, 0x49#8, 0x90#8] } =
      .next { start with port := [0x90#8], responses := [0xF0000000#32] } := by rfl
/-- A word placed for the next step runs, a request and a command byte. -/
theorem test_step_placed :
    step (start.withFetchWord 64 0x1050900000000001) = exec (.setpx 5#8 9#8 .white) start ∧
    step (start.withFetchWord 8 0xAE) = exec .cbSleep start := ⟨rfl, rfl⟩

/-! ### Witnesses: for each statement with hypotheses, a state and operands that meet them all, clause by clause -/

theorem after_next (i : Instr) (s : State) : exec i s = .next (after i s) := by cases i <;> rfl

/-- A frame with two marked units. -/
def marked : Memory := [(0, 0xA5#8), (1023, 0x80#8)]

theorem witness_ResetFramebufferBlack : 1023 < NUNITS ∧ 127 < W ∧ 63 < H := by decide
theorem witness_BlockResetFromAnyState : 1023 < NUNITS := by decide
theorem witness_DecoderIsBijection : (127 < W ∧ 63 < H) ∧ (1023 < NUNITS ∧ 7 < 8) := by decide
theorem witness_PixelWriteChangesOneBit :
    Memory.wf marked ∧ Memory.inBounds marked ∧ (127 < W ∧ 63 < H) ∧
    (126 < W ∧ 63 < H ∧ ¬(126 = 127 ∧ 63 = 63)) ∧ 0 ≠ (decodeXY 127 63).unit ∧ W ≤ 128 ∧ H ≤ 64 := by
  decide +kernel
theorem witness_SetpxPaintsOnePixel :
    ∃ (s : State) (x y : Byte), Memory.wf s.fb ∧ x.toNat < W ∧ y.toNat < H :=
  ⟨{ start with fb := marked }, 127#8, 63#8, by decide +kernel⟩
theorem witness_SetpxOutOfBoundsChangesNothing : W ≤ (128#8).toNat ∧ H ≤ (64#8).toNat := by decide
theorem witness_FillSetsEveryPixel : 1023 < NUNITS ∧ 127 < W ∧ 63 < H := by decide
theorem witness_FillEqualsUnitLoop : Memory.wf marked ∧ Memory.inBounds marked := by decide +kernel
theorem witness_SetcurMovesCursorInRange :
    ((127#8).toNat < W ∧ (63#8).toNat < H) ∧ W ≤ (128#8).toNat ∧ H ≤ (64#8).toNat := by decide
/-- The boundary of the check in column 121 (S4), and in row 121 (a state no run reaches). -/
theorem witness_LayoutFullExactlyOnQuirk :
    fontOf start.cfg 0#4 = some tf57 ∧
    W ≤ (at_ 121#8 0#8 start).curX.toNat + tf57.height ∧ W ≤ (at_ 0#8 121#8 start).curY.toNat + tf57.height ∧
    ∃ t, exec (.wrchar 0x7F#8 0#4 .white .black false) (at_ 121#8 0#8 start) = .next t ∧
      Answered (at_ 121#8 0#8 start) t 0x20000000#32 :=
  ⟨rfl, by decide +kernel, by decide +kernel, _, after_next _ _, by decide +kernel⟩
/-- G6, in the last rows of the frame. -/
theorem witness_WrcharDrawsWholeCell :
    ∃ s : State, Memory.wf s.fb ∧ fontOf s.cfg 0#4 = some tf57 ∧ (0x20 ≤ (0x7E#8).toNat ∧ (0x7E#8).toNat ≤ 0x7E) ∧
      s.curX.toNat + tf57.height < W ∧ s.curY.toNat + tf57.height ≤ H ∧
      s.curX.toNat + true.toNat + tf57.width ≤ W :=
  ⟨at_ 120#8 57#8 { start with fb := marked }, by decide +kernel, rfl, by decide, by decide +kernel, by decide +kernel,
    by decide +kernel⟩
theorem witness_WrcharLookupFailureKeepsPadding :
    ∃ s : State, Memory.wf s.fb ∧ fontOf s.cfg 0#4 = some tf57 ∧
      ¬(0x20 ≤ (0x7F#8).toNat ∧ (0x7F#8).toNat ≤ 0x7E) ∧ ¬(0x20 ≤ (0x1F#8).toNat ∧ (0x1F#8).toNat ≤ 0x7E) ∧
      s.curX.toNat + tf57.height < W ∧ s.curY.toNat + tf57.height < W ∧ s.curY.toNat + tf57.height ≤ H :=
  ⟨at_ 120#8 57#8 start, by decide +kernel, rfl, by decide, by decide, by decide +kernel, by decide +kernel,
    by decide +kernel⟩
/-- G10 in the first row that overruns. -/
theorem witness_PaddingOverrunKeepsUpperPixels :
    ∃ s : State, Memory.wf s.fb ∧ fontOf s.cfg 0#4 = some tf57 ∧ s.curX.toNat + tf57.height < W ∧
      s.curY.toNat + tf57.height < W ∧ s.curY.toNat < H ∧ H < s.curY.toNat + tf57.height :=
  ⟨at_ 120#8 58#8 start, by decide +kernel, rfl, by decide +kernel, by decide +kernel, by decide +kernel,
    by decide +kernel⟩
/-- G23: the right edge in row 0. -/
theorem witness_GlyphOverrunKeepsDrawnPart_right :
    ∃ s : State, Memory.wf s.fb ∧ fontOf s.cfg 1#4 = some tf16x2 ∧ s.curX.toNat + tf16x2.height < W ∧
      s.curY.toNat + tf16x2.height < W ∧ s.curY.toNat < H ∧ 0 < tf16x2.height ∧ 3 < tf16x2.width ∧
      s.curX.toNat + false.toNat + 3 = W :=
  ⟨at_ 125#8 0#8 start, by decide +kernel, rfl, by decide +kernel, by decide +kernel, by decide +kernel,
    by decide +kernel, by decide +kernel, by decide +kernel⟩
/-- G8: the bottom edge in row 6. -/
theorem witness_GlyphOverrunKeepsDrawnPart_bottom :
    ∃ s : State, Memory.wf s.fb ∧ fontOf s.cfg 0#4 = some tf57 ∧ s.curX.toNat + tf57.height < W ∧
      s.curY.toNat + tf57.height < W ∧ s.curY.toNat < H ∧ 6 < tf57.height ∧ 0 < tf57.width ∧
      s.curX.toNat + false.toNat + tf57.width ≤ W ∧ s.curY.toNat + 6 = H :=
  ⟨at_ 120#8 58#8 start, by decide +kernel, rfl, by decide +kernel, by decide +kernel, by decide +kernel,
    by decide +kernel, by decide +kernel, by decide +kernel, by decide +kernel⟩

/-- A 1x1 font of one word. -/
def dotFont (w : GlyphWord) : Font where
  width := 1
  height := 1
  rows := List.replicate 95 w
  width_ok := by decide
  height_ok := by decide
  rows_ok := by simp only [List.length_replicate, NCHARS]

theorem witness_GlyphIgnoresBitsBelowMask :
    Font.SameMask (dotFont 0x8000#16) (dotFont 0x8001#16) ∧ dotFont 0x8000#16 ≠ dotFont 0x8001#16 := by
  refine ⟨⟨rfl, rfl, fun i c hc => ?_⟩, fun h => absurd (congrArg (fun f => f.rows.getD 0 0#16) h) (by decide)⟩
  obtain rfl : c = 0 := by simpa [dotFont] using hc
  simp only [dotFont, List.getD_eq_getElem?_getD, List.getElem?_replicate]
  split <;> decide
/-- W5: 25 characters end at the last column the check lets pass; and the empty string. -/
theorem witness_WrstrDrawsTextAndAdvances :
    ∃ (s : State) (text : List Byte), Memory.wf s.fb ∧ fontOf s.cfg 0#4 = some tf57 ∧
      (∀ ch ∈ text, 0x20 ≤ ch.toNat ∧ ch.toNat ≤ 0x7E) ∧ text.length = 25 ∧
      TextFits tf57 false text.length s.curX.toNat s.curY.toNat ∧ TextFits tf57 true 0 255 255 := by
  refine ⟨at_ 0#8 57#8 start, List.replicate 25 0x41#8, by decide +kernel, rfl, by decide +kernel, by decide, ?_, .inl rfl⟩
  exact .inr (by decide +kernel)
/-- W1. -/
theorem witness_WrstrStopsAtFirstFailure :
    ∃ s t u : State, [0x41#8].length + 1 + [0x41#8].length ≤ 255 ∧ (0#4).toNat < s.cfg.fonts.length ∧
      exec (.wrstr [0x41#8] 0#4 .white .black false) s = .next t ∧ Answered s t 0#32 ∧
      exec (.wrchar 0x7F#8 0#4 .white .black false) t = .next u ∧
      Answered t u (packResponse (statusCode .glyphLookupFailed) 0#4 0#8 0#8 0#8) :=
  ⟨start, _, _, by decide, by decide +kernel, after_next _ _, by decide +kernel, after_next _ _, by decide +kernel⟩
/-- S3. -/
theorem witness_WrstrContinuesFromCursor :
    ∃ s t u : State, exec (.wrstr [0x41#8, 0x41#8] 0#4 .white .black false) s = .next t ∧ Answered s t 0#32 ∧
      exec (.wrstr [0x49#8] 0#4 .white .black false) t = .next u ∧ Answered t u 0#32 :=
  ⟨start, _, _, after_next _ _, by decide +kernel, after_next _ _, by decide +kernel⟩
theorem witness_WriteClearsDrawsAndCommits :
    ∃ s : State, fontOf s.cfg 0#4 = some tf57 ∧ (∀ ch ∈ [0x7E#8], 0x20 ≤ ch.toNat ∧ ch.toNat ≤ 0x7E) ∧
      (120#8).toNat < W ∧ (57#8).toNat < H ∧ TextFits tf57 true [0x7E#8].length (120#8).toNat (57#8).toNat ∧
      ∀ k < 4 * NPAGES, s.answerAt k = some .ok :=
  ⟨answering 32 none start, rfl, by decide, by decide, by decide, .inr (by decide +kernel), by decide +kernel⟩
theorem witness_WriteOutOfRangeLeavesBackground :
    (0#4).toNat < start.cfg.fonts.length ∧ W ≤ (128#8).toNat ∧ H ≤ (64#8).toNat := by decide +kernel
/-- P-W8. -/
theorem witness_WriteTextFailureSendsNothing :
    ∃ s a b c : State, (0#4).toNat < s.cfg.fonts.length ∧ (127#8).toNat < W ∧ (63#8).toNat < H ∧
      exec (.fill .black) s = .next a ∧ exec (.setcur 0#8 0#8) a = .next b ∧
      exec (.wrstr [0x41#8, 0x7F#8] 0#4 .white .black false) b = .next c ∧
      Answered b c (packResponse (statusCode .glyphLookupFailed) 0#4 1#8 0#8 0#8) :=
  ⟨start, _, _, _, by decide +kernel, by decide, by decide, after_next _ _, after_next _ _, after_next _ _,
    by decide +kernel⟩
/-- P-W6. -/
theorem witness_WriteRefreshFailureReportsStage :
    ∃ s a b c d : State, (0#4).toNat < s.cfg.fonts.length ∧ (0#8).toNat < W ∧ (0#8).toNat < H ∧
      exec (.fill .black) s = .next a ∧ exec (.setcur 0#8 0#8) a = .next b ∧
      exec (.wrstr [0x41#8] 0#4 .white .black false) b = .next c ∧ Answered b c 0#32 ∧
      exec .refresh c = .next d ∧ Answered c d (packResponse 5#4 0#4 0#8 30#8 0#8) :=
  ⟨answering 31 (some .fail) start, _, _, _, _, by decide +kernel, by decide, by decide, after_next _ _, after_next _ _,
    after_next _ _, by decide +kernel, after_next _ _, by decide +kernel⟩
theorem witness_InitSendsWholeScript :
    ∃ s : State, ∀ k < 10 + s.cfg.tail.bytes.length, s.answerAt k = some .ok :=
  ⟨answering 26 none start, by decide +kernel⟩
/-- I4, and I5: the first and the last byte. -/
theorem witness_InitStopsAtRejectedByte :
    (0 < (script fixtures).length ∧ (answering 0 (some .fail) start).answerAt 0 = some .fail) ∧
    (25 < (script fixtures).length ∧ (∀ k < 25, (answering 25 (some .fail) start).answerAt k = some .ok) ∧
      (answering 25 (some .fail) start).answerAt 25 = some .fail) := by decide +kernel
theorem witness_RefreshStreamsWholeFrame : ∃ s : State, ∀ k < 32, s.answerAt k = some .ok :=
  ⟨answering 32 none frameT1, by decide +kernel⟩
/-- T2, and T9: the first and the last transaction. -/
theorem witness_RefreshStopsAtRejectedTransaction :
    (0 < NPAGES ∧ 0 < 4 ∧ (answering 0 (some .fail) frameT1).answerAt (4 * 0 + 0) = some .fail) ∧
    (7 < NPAGES ∧ 3 < 4 ∧ (∀ k < 4 * 7 + 3, (answering 31 (some .fail) frameT1).answerAt k = some .ok) ∧
      (answering 31 (some .fail) frameT1).answerAt (4 * 7 + 3) = some .fail) := by decide +kernel
theorem witness_RefreshBringsFrameToPanel :
    ∃ s t : State, (∀ k < 4 * NPAGES, s.answerAt k = some .ok) ∧ exec .refresh s = .next t ∧ 7 < NPAGES ∧ 127 < W :=
  ⟨answering 32 none frameT1, _, by decide +kernel, after_next _ _, by decide, by decide⟩
/-- T8: page 2, its data burst; pages 1 and 3 beside it. -/
theorem witness_FailedRefreshSplitsPanel :
    ∃ s t : State, (2 < NPAGES ∧ 3 < 4 ∧ 127 < W ∧ 1 < 2 ∧ 2 < 3) ∧ (∀ k < 4 * 2 + 3, s.answerAt k = some .ok) ∧
      s.answerAt (4 * 2 + 3) = some .fail ∧ exec .refresh s = .next t :=
  ⟨answering 11 (some .fail) frameT1, _, by decide, by decide +kernel, by decide +kernel, after_next _ _⟩
theorem witness_SilentTransportStopsForEver :
    ((∀ k < 25, (answering 25 none start).answerAt k = some .ok) ∧ (answering 25 none start).answerAt 25 = none ∧
      25 < (script start.cfg).length) ∧
    ((∀ k < 31, (answering 31 none start).answerAt k = some .ok) ∧ (answering 31 none start).answerAt 31 = none ∧
      31 < 4 * NPAGES) := by decide +kernel
theorem witness_CommandByteIsOneTransaction :
    encodeCommand (.cbPageSelect 7#3) = some 0xB7#8 ∧ (answering 0 (some .fail) start).answerAt 0 = some .fail := by
  decide +kernel
theorem witness_RequestDecodeEncode :
    Instr.isRequest (.wrstr (List.replicate 255 0xFF#8) 15#4 .white .white true) = true ∧
    Instr.payloadFits (.wrstr (List.replicate 255 0xFF#8) 15#4 .white .white true) = true := by decide +kernel
theorem witness_RequestEncodeDecode :
    decodeRequest (bytesOfHeader 0x6FFFF0001F00000F#64 ++ [0x41#8, 0x42#8]) =
      .instr (.write [0x41#8] 15#4 255#8 255#8 .white .white true true) [0x42#8] := by decide +kernel
/-- Each clause: a header of a row, and one of none (X4). -/
theorem witness_HeaderSelectsByMask :
    (⟨.wrstr, 0x5000000000000000#64, 0xFFFFFFF000FFFFF8#64⟩ ∈ requestRows ∧
      payloadLength 0x5000000FFF000007#64 ≤ (List.replicate 255 0#8).length ∧
      0x5000000FFF000007#64 &&& 0xFFFFFFF000FFFFF8#64 = 0x5000000000000000#64) ∧
    (payloadLength 0x2010000000000001#64 ≤ 0 ∧
      ∀ r ∈ requestRows, 0x2010000000000001#64 &&& r.mask ≠ r.pattern) := by decide +kernel
theorem witness_CommandByteDecodeEncode :
    decodeCommand 0xB7#8 = some (.cbPageSelect 7#3) ∧ encodeCommand (.cbPageSelect 7#3) = some 0xB7#8 := by decide
theorem witness_StepRunsDecodedInstruction :
    (∃ (s : State) (i : Instr) (rest : List Byte), s.phase = .idle ∧ s.staged = [] ∧
      decodeRequest s.port = .instr i rest) ∧
    ∃ (s : State) (i : Instr) (b : Byte) (rest : List Byte), s.phase = .idle ∧ s.staged = b :: rest ∧
      decodeCommand b = some i :=
  ⟨⟨{ start with port := bytesOfHeader 0x9000000000000000#64 }, .getw, [], rfl, rfl, by decide +kernel⟩,
    ⟨{ start with staged := [0x10#8] }, .cbColHigh0, 0x10#8, [], rfl, rfl, by decide⟩⟩
theorem witness_PlacedWordRunsNext :
    (decodeTableWord 64 0x9000000000000000 = some .getw ∧ 8 < 64) ∧ decodeTableWord 8 0x10 = some .cbColHigh0 := by
  decide +kernel
/-- X10, with its payload and one byte more. -/
theorem witness_IllegalHeaderAnswered :
    ∃ (s : State) (bytes : List Byte), s.phase = .idle ∧ s.staged = [] ∧
      s.port = bytesOfHeader 0x5000000020000009#64 ++ bytes ∧ payloadLength 0x5000000020000009#64 ≤ bytes.length ∧
      ∀ r ∈ requestRows, 0x5000000020000009#64 &&& r.mask ≠ r.pattern :=
  ⟨{ start with port := bytesOfHeader 0x5000000020000009#64 ++ [0x41#8, 0x49#8, 0x90#8] }, [0x41#8, 0x49#8, 0x90#8],
    rfl, rfl, rfl, by decide +kernel, by decide +kernel⟩
/-- X9. -/
theorem witness_MissingFontAnswered : start.cfg.fonts.length ≤ (2#4).toNat := by decide +kernel
theorem witness_ShortRequestWaits :
    (∃ s : State, s.phase = .idle ∧ s.staged = [] ∧ s.port.length < 8) ∧
    ∃ (s : State) (bytes : List Byte), s.phase = .idle ∧ s.staged = [] ∧
      s.port = bytesOfHeader 0x5000000020000001#64 ++ bytes ∧ bytes.length < payloadLength 0x5000000020000001#64 :=
  ⟨⟨{ start with port := List.replicate 7 0#8 }, rfl, rfl, by decide⟩,
    ⟨{ start with port := bytesOfHeader 0x5000000020000001#64 ++ [0x41#8] }, [0x41#8], rfl, rfl, rfl, by decide +kernel⟩⟩
/-- A state at the bounds of the invariant, with a request that has a next state. -/
theorem witness_StepKeepsInvariant :
    ∃ s t : State, s.Inv ∧ step s = .next t ∧ s.curX = 144#8 ∧ s.curY = 63#8 :=
  ⟨at_ 144#8 63#8 { start with fb := marked, port := bytesOfHeader 0x2000000000000000#64 }, _, by decide +kernel, rfl, rfl,
    rfl⟩
/-- GETW. -/
theorem witness_StepKeepsConfiguration : ∃ s t : State, step s = .next t :=
  ⟨{ start with port := bytesOfHeader 0x9000000000000000#64 }, _, rfl⟩
theorem witness_RequestGivesOneResponse :
    ∃ (s t : State) (i : Instr), s.phase = .idle ∧ i.isRequest = true ∧ exec i s = .next t :=
  ⟨answering 0 none start, _, .refresh, rfl, rfl, after_next _ _⟩
theorem witness_TraceGrowsByAnswers :
    ∃ s t : State, exec .init s = .next t ∧ t.tx ≠ s.tx :=
  ⟨answering 0 (some .fail) start, _, after_next _ _, by decide +kernel⟩
theorem witness_DrawingOnlyMarksStale :
    ∃ s t : State, exec (.setpx 0#8 0#8 .white) s = .next t ∧ s.lc = .synchronized ∧ t.lc = .configured :=
  ⟨{ start with lc := .synchronized }, _, after_next _ _, rfl, by decide +kernel⟩

end Sys2Proof.Machine.Tests
end

/-! # Proofs of the statements about state, reset and what a run may not depend on (10_state.md) -/

section

namespace Sys2Proof.Machine

/-! ### What no step reads

`Blind.exec` says that an instruction keeps a relation it cannot see. A step also takes the instruction from the channels,
so a relation it cannot see must agree on those too. -/

/-- A relation the instructions do not see and whose states hold the same channels: no step sees it. -/
structure StepBlind (R : State → State → Prop) : Prop extends Blind R where
  phase : ∀ s t, R s t → s.phase = t.phase
  staged : ∀ s t, R s t → s.staged = t.staged
  port : ∀ s t, R s t → s.port = t.port
  setStaged : ∀ s t bytes, R s t → R (s.setStaged bytes) (t.setStaged bytes)
  setPort : ∀ s t bytes, R s t → R (s.setPort bytes) (t.setPort bytes)

/-- The same thing was fetched, and the states left are related. -/
inductive FetchedAlike (R : State → State → Prop) : Fetched → Fetched → Prop where
  | run (i : Instr) {s t : State} (h : R s t) : FetchedAlike R (.run i s) (.run i t)
  | illegal {s t : State} (h : R s t) : FetchedAlike R (.illegal s) (.illegal t)
  | stuck (r : Fault) : FetchedAlike R (.stuck r) (.stuck r)
  | refuse (r : Refusal) : FetchedAlike R (.refuse r) (.refuse r)

/-- The next states are related, or both runs stop for the same reason. -/
inductive OutcomeAlike (R : State → State → Prop) :
    Host.Outcome State Fault Refusal → Host.Outcome State Fault Refusal → Prop where
  | next {s t : State} (h : R s t) : OutcomeAlike R (.next s) (.next t)
  | fault (r : Fault) : OutcomeAlike R (.fault r) (.fault r)
  | refused (r : Refusal) : OutcomeAlike R (.refused r) (.refused r)

variable {R : State → State → Prop}

theorem StepBlind.fetchRequest (hR : StepBlind R) {s t : State} (h : R s t) :
    FetchedAlike R (fetchRequest s) (Machine.fetchRequest t) := by
  unfold Machine.fetchRequest
  rw [hR.port s t h]
  cases decodeRequest t.port with
  | instr i rest => exact .run i (hR.setPort s t rest h)
  | illegal why rest => exact .illegal (hR.setPort s t rest h)
  | needHeader => exact .stuck _
  | needPayload => exact .stuck _

theorem StepBlind.fetch (hR : StepBlind R) {s t : State} (h : R s t) :
    FetchedAlike R (fetch s) (Machine.fetch t) := by
  unfold Machine.fetch
  rw [hR.phase s t h, hR.staged s t h]
  cases t.phase with
  | awaitingTransport => exact .stuck _
  | idle =>
    cases t.staged with
    | nil => exact hR.fetchRequest h
    | cons b rest =>
      simp only
      cases decodeCommand b with
      | some i => exact .run i (hR.setStaged s t rest h)
      | none => exact .refuse _

/-- Every step takes related states to related outcomes. -/
theorem StepBlind.step (hR : StepBlind R) {s t : State} (h : R s t) :
    OutcomeAlike R (step s) (Machine.step t) := by
  have hf := hR.fetch h
  unfold Machine.step
  revert hf
  generalize Machine.fetch s = a
  generalize Machine.fetch t = b
  rintro (⟨i, h⟩ | h | r | r)
  · obtain ⟨s', t', hs, ht, h'⟩ := hR.exec i h
    simp only [hs, ht]
    exact .next h'
  · exact .next (hR.pushResponse _ _ _ h)
  · exact .fault r
  · exact .refused r

/-- Views that agree on related states agree on related outcomes. -/
theorem OutcomeAlike.mapNext_eq {a b : Host.Outcome State Fault Refusal} (h : OutcomeAlike R a b)
    {f g : State → State} (hfg : ∀ s t, R s t → f s = g t) : mapNext f a = mapNext g b := by
  cases h with
  | next h => exact congrArg _ (hfg _ _ h)
  | fault r => rfl
  | refused r => rfl

theorem mapNext_id (a : Host.Outcome State Fault Refusal) : mapNext id a = a := by cases a <;> rfl

/-! ### `LC`, the latches and the past of `TX` are what no step reads -/

theorem State.dirty_eq_setLc (s : State) : s.dirty = s.setLc (dirtied s.lc) := by
  unfold State.dirty dirtied
  split <;> rfl

theorem State.lcAfterRefresh_eq_setLc (s : State) (l : Lifecycle) :
    s.lcAfterRefresh l = s.setLc (refreshed l s.lc) := by
  unfold State.lcAfterRefresh refreshed
  split <;> rfl

/-- The second state is the first but for `LC` and the latches, each where it may differ, and a past before the trace. -/
inductive UnreadApart (lcMay latchesMay : Prop) (past : List TxEvent) (s : State) : State → Prop where
  | mk (l : Lifecycle) (f : BitVec 4) (p : Bool) (hl : l = s.lc ∨ lcMay)
      (hf : (f = s.fontSel ∧ p = s.padLatch) ∨ latchesMay) :
      UnreadApart lcMay latchesMay past s { s with lc := l, fontSel := f, padLatch := p, tx := past ++ s.tx }

/-- No step sees `LC`, the latches or the past of the trace: a write of one of them is the same write in both states, and
the two ghost updates that test `LC` change `LC` alone. -/
theorem stepBlind_unreadApart (lcMay latchesMay : Prop) (past : List TxEvent) :
    StepBlind (UnreadApart lcMay latchesMay past) where
  cfg := fun _ _ ⟨_, _, _, _, _⟩ => rfl
  fb := fun _ _ ⟨_, _, _, _, _⟩ => rfl
  curX := fun _ _ ⟨_, _, _, _, _⟩ => rfl
  curY := fun _ _ ⟨_, _, _, _, _⟩ => rfl
  answers := fun _ _ ⟨_, _, _, _, _⟩ => rfl
  answered := fun _ _ ⟨_, _, _, _, _⟩ => rfl
  phase := fun _ _ ⟨_, _, _, _, _⟩ => rfl
  staged := fun _ _ ⟨_, _, _, _, _⟩ => rfl
  port := fun _ _ ⟨_, _, _, _, _⟩ => rfl
  setFb_dirty := fun _ _ _ ⟨l, f, p, hl, hf⟩ => by
    simp only [State.dirty_eq_setLc]
    exact ⟨dirtied l, f, p, hl.imp_left (congrArg dirtied), hf⟩
  lcAfterRefresh := fun _ _ k ⟨l, f, p, hl, hf⟩ => by
    simp only [State.lcAfterRefresh_eq_setLc]
    exact ⟨refreshed k l, f, p, hl.imp_left (congrArg (refreshed k)), hf⟩
  setLc := fun _ _ l ⟨_, f, p, _, hf⟩ => ⟨l, f, p, .inl rfl, hf⟩
  latch := fun _ _ f p ⟨l, _, _, hl, _⟩ => ⟨l, f, p, hl, .inl ⟨rfl, rfl⟩⟩
  pushTx := fun s _ es ⟨l, f, p, hl, hf⟩ => by
    simp only [State.pushTx, List.append_assoc]
    exact UnreadApart.mk (s := s.pushTx es) l f p hl hf
  setCurX := fun _ _ _ ⟨l, f, p, hl, hf⟩ => ⟨l, f, p, hl, hf⟩
  setCurY := fun _ _ _ ⟨l, f, p, hl, hf⟩ => ⟨l, f, p, hl, hf⟩
  takeAnswer := fun _ _ ⟨l, f, p, hl, hf⟩ => ⟨l, f, p, hl, hf⟩
  setPhase := fun _ _ _ ⟨l, f, p, hl, hf⟩ => ⟨l, f, p, hl, hf⟩
  pushResponse := fun _ _ _ ⟨l, f, p, hl, hf⟩ => ⟨l, f, p, hl, hf⟩
  setStaged := fun _ _ _ ⟨l, f, p, hl, hf⟩ => ⟨l, f, p, hl, hf⟩
  setPort := fun _ _ _ ⟨l, f, p, hl, hf⟩ => ⟨l, f, p, hl, hf⟩

/-- States that differ in `LC` alone look the same with `LC` blotted out. -/
theorem UnreadApart.forgetLc_eq {s t : State} (h : UnreadApart True False [] s t) : s.forgetLc = t.forgetLc := by
  obtain ⟨l, f, p, -, hf⟩ := h
  obtain ⟨rfl, rfl⟩ := hf.resolve_right id
  rfl

/-- States that differ in the latches alone look the same with the latches blotted out. -/
theorem UnreadApart.forgetLatches_eq {s t : State} (h : UnreadApart False True [] s t) :
    s.forgetLatches = t.forgetLatches := by
  obtain ⟨l, f, p, hl, -⟩ := h
  obtain rfl := hl.resolve_right id
  rfl

/-- States that differ in the past alone: the second is the first with that past. -/
theorem UnreadApart.withPast_eq {past : List TxEvent} {s t : State} (h : UnreadApart False False past s t) :
    s.withPast past = t := by
  obtain ⟨l, f, p, hl, hf⟩ := h
  obtain rfl := hl.resolve_right id
  obtain ⟨rfl, rfl⟩ := hf.resolve_right id
  rfl

/-- Settles O52: states that differ in `LC` alone have outcomes that differ in `LC` alone. -/
theorem lifecycleIsNeverRead : Obligations.LifecycleIsNeverRead := by
  intro s l
  have hapart : UnreadApart True False [] s (s.setLc l) := ⟨l, s.fontSel, s.padLatch, .inr trivial, .inl ⟨rfl, rfl⟩⟩
  have hstep := (stepBlind_unreadApart True False []).step hapart
  exact (hstep.mapNext_eq fun _ _ h => h.forgetLc_eq).symm

/-- Settles O53: states that differ in the latches alone have outcomes that differ in the latches alone. -/
theorem latchesAreNeverRead : Obligations.LatchesAreNeverRead := by
  intro s fsel pad
  have hapart : UnreadApart False True [] s (s.latch fsel pad) := ⟨s.lc, fsel, pad, .inl rfl, .inr trivial⟩
  have hstep := (stepBlind_unreadApart False True []).step hapart
  exact (hstep.mapNext_eq fun _ _ h => h.forgetLatches_eq).symm

/-- Settles O54: a state and the same state with a longer past have outcomes that differ in that past alone. -/
theorem traceIsNeverRead : Obligations.TraceIsNeverRead := by
  intro s past
  have hapart : UnreadApart False False past s (s.withPast past) :=
    ⟨s.lc, s.fontSel, s.padLatch, .inl rfl, .inl ⟨rfl, rfl⟩⟩
  have hstep := (stepBlind_unreadApart False False past).step hapart
  calc step (s.withPast past) = mapNext id (step (s.withPast past)) := (mapNext_id _).symm
    _ = mapNext (fun t => t.withPast past) (step s) := (hstep.mapNext_eq fun _ _ h => h.withPast_eq).symm

/-! ### What drawing does to `LC` (10_state.md R18) -/

/-- `LC` is as before, or as `Dirty()` leaves it. -/
def MarksStale (s t : State) : Prop := t.lc = s.lc ∨ t.lc = dirtied s.lc

theorem MarksStale.trans {s t u : State} (h : MarksStale s t) (k : MarksStale t u) : MarksStale s u := by
  unfold MarksStale at *
  rcases h with h | h <;> rcases k with k | k <;> simp [h, k]

theorem marksStale_iff {s t : State} :
    MarksStale s t ↔ t.lc = s.lc ∨ (s.lc = .synchronized ∧ t.lc = .configured) := by
  unfold MarksStale dirtied
  split
  · next h => simp [h]
  · next h => simp [h]

theorem MarksStale.andThen {s : State} {a : State × Option Halt} {b : State → State × Option Halt}
    (ha : MarksStale s a.1) (hb : ∀ t, MarksStale t (b t).1) : MarksStale s (andThen a b).1 := by
  obtain ⟨t, o⟩ := a
  cases o with
  | none => exact ha.trans (hb t)
  | some h => exact ha

theorem padColumn_marksStale (f : Font) (bg : Color) (s : State) : MarksStale s (padColumn f bg s).1 :=
  MarksStale.andThen (paint_lc _ s) fun _ => .inl rfl

theorem glyphRows_marksStale (f : Font) (ch : Byte) (fg bg : Color) (rows : List Nat) (s : State) :
    MarksStale s (glyphRows f ch fg bg rows s).1 := by
  induction rows generalizing s with
  | nil => exact .inl rfl
  | cons r rest ih =>
    unfold glyphRows
    split
    · exact .inl rfl
    · exact MarksStale.andThen (paint_lc _ s) ih

theorem writeGlyph_marksStale (fsel : BitVec 4) (f : Font) (ch : Byte) (fg bg : Color) (pad : Bool) (s : State) :
    MarksStale s (writeGlyph fsel f ch fg bg pad s).1 := by
  unfold writeGlyph
  split
  · exact .inl rfl
  · refine MarksStale.andThen ?_ fun t => (glyphRows_marksStale f ch fg bg _ t).andThen fun _ => .inl rfl
    split
    · exact padColumn_marksStale f bg (s.latch fsel pad)
    · exact .inl rfl

theorem writeChars_marksStale (fsel : BitVec 4) (f : Font) (fg bg : Color) (pad : Bool) (k : Nat) (text : List Byte)
    (s : State) : MarksStale s (writeChars fsel f fg bg pad k text s).1 := by
  induction text generalizing k s with
  | nil => exact .inl rfl
  | cons c rest ih =>
    have hc := writeGlyph_marksStale fsel f c fg bg pad s
    unfold writeChars
    split
    · next t ht =>
      rw [ht] at hc
      exact hc.trans (ih (k + 1) t)
    · next t h ht =>
      rw [ht] at hc
      exact hc

theorem writeText_marksStale (fsel : BitVec 4) (f : Font) (text : List Byte) (fg bg : Color) (pad : Bool) (s : State) :
    MarksStale s (writeText fsel f text fg bg pad s).1 :=
  writeChars_marksStale fsel f fg bg pad 0 text (s.latch fsel pad)

theorem placeCursor_lc (x y : Byte) (s : State) : (placeCursor x y s).1.lc = s.lc := by
  unfold placeCursor
  split <;> rfl

theorem fillFrame_lc (c : Color) (s : State) : (fillFrame c s).lc = dirtied s.lc := by
  simp [fillFrame]

theorem inPart_fst (p : BitVec 4) (a : State × Option Halt) : (inPart p a).1 = a.1 := by
  obtain ⟨s, o⟩ := a
  cases o <;> rfl

/-- `WRITE` without its refresh only draws. -/
theorem writeParts_marksStale (text : List Byte) (fsel : BitVec 4) (f : Font) (x y : Byte) (bg fg : Color) (pad : Bool)
    (s : State) : MarksStale s (writeParts text fsel f x y bg fg pad false s).1 := by
  refine MarksStale.andThen ?_ fun t => MarksStale.andThen ?_ fun _ => .inl rfl
  · right
    rw [inPart_fst, placeCursor_lc, State.setCursor_lc, fillFrame_lc, State.latch_lc]
  · rw [inPart_fst]
    exact writeText_marksStale fsel f text fg bg pad t

theorem finish_lc (v : Byte) (a : State × Option Halt) : (finish v a).lc = a.1.lc := by
  obtain ⟨s, _ | (_ | _)⟩ := a <;> rfl

theorem MarksStale.finish {s : State} {a : State × Option Halt} (h : MarksStale s a.1) (v : Byte) :
    MarksStale s (finish v a) := by
  unfold MarksStale
  rw [finish_lc]
  exact h

theorem MarksStale.withFont (fsel : BitVec 4) {s : State} {body : Font → State} (h : ∀ f, MarksStale s (body f)) :
    MarksStale s (withFont fsel s body) := by
  unfold Machine.withFont
  split
  · exact h _
  · exact .inl rfl

theorem sendCommand_lc (b : Byte) (s : State) : (sendCommand b s).lc = s.lc := by
  unfold sendCommand tpCmd transact
  split <;> rfl

/-- Every instruction that sends no frame and no script leaves `LC` as it was or marks it stale. -/
theorem exec_marksStale {i : Instr} (s : State) (hinit : i ≠ .init) (hrefresh : i ≠ .refresh)
    (hcommit : ∀ text fsel x y bg fg pad, i ≠ .write text fsel x y bg fg pad true) :
    ∃ t, exec i s = .next t ∧ MarksStale s t := by
  cases i with
  | setpx x y c => exact ⟨_, rfl, MarksStale.finish (paint_lc _ s) _⟩
  | fill c => exact ⟨_, rfl, .inr (fillFrame_lc c s)⟩
  | setcur x y => exact ⟨_, rfl, MarksStale.finish (.inl (placeCursor_lc x y s)) _⟩
  | wrchar ch fsel fg bg pad =>
    exact ⟨_, rfl, MarksStale.withFont fsel fun f => (writeGlyph_marksStale fsel f ch fg bg pad s).finish _⟩
  | wrstr text fsel fg bg pad =>
    exact ⟨_, rfl, MarksStale.withFont fsel fun f => (writeText_marksStale fsel f text fg bg pad s).finish _⟩
  | write text fsel x y bg fg pad commit =>
    cases commit with
    | true => exact absurd rfl (hcommit text fsel x y bg fg pad)
    | false =>
      exact ⟨_, rfl, MarksStale.withFont fsel fun f => (writeParts_marksStale text fsel f x y bg fg pad s).finish _⟩
  | init => exact absurd rfl hinit
  | refresh => exact absurd rfl hrefresh
  | getw => exact ⟨_, rfl, .inl rfl⟩
  | geth => exact ⟨_, rfl, .inl rfl⟩
  | cbSleep => exact ⟨_, rfl, .inl (sendCommand_lc _ s)⟩
  | cbRamFollow => exact ⟨_, rfl, .inl (sendCommand_lc _ s)⟩
  | cbInverseOff => exact ⟨_, rfl, .inl (sendCommand_lc _ s)⟩
  | cbContrast => exact ⟨_, rfl, .inl (sendCommand_lc _ s)⟩
  | cbMemoryMode => exact ⟨_, rfl, .inl (sendCommand_lc _ s)⟩
  | cbPageSelect n => exact ⟨_, rfl, .inl (sendCommand_lc _ s)⟩
  | cbColLow0 => exact ⟨_, rfl, .inl (sendCommand_lc _ s)⟩
  | cbColHigh0 => exact ⟨_, rfl, .inl (sendCommand_lc _ s)⟩

/-- Settles O51: the only ghost update of a drawing operation is `Dirty()`. -/
theorem drawingOnlyMarksStale : Obligations.DrawingOnlyMarksStale := by
  intro s t i hinit hrefresh hcommit hexec
  obtain ⟨t', hexec', hlc⟩ := exec_marksStale s hinit hrefresh hcommit
  obtain rfl : t' = t := Host.Outcome.next.inj (hexec'.symm.trans hexec)
  exact marksStale_iff.mp hlc

/-! ### Requests that have not all arrived -/

theorem decodeRequest_short {bytes : List Byte} (h : bytes.length < 8) : decodeRequest bytes = .needHeader := by
  unfold decodeRequest
  split
  · simp only [List.length_cons] at h
    omega
  · rfl

theorem decodeRequest_bytesOfHeader_append (h : Header) (after : List Byte) :
    decodeRequest (bytesOfHeader h ++ after) = decodeWithHeader h after :=
  congrArg (decodeWithHeader · after) (headerOfBytes_bytesOfHeader h)

theorem decodeWithHeader_short {h : Header} {after : List Byte} (hlen : after.length < payloadLength h) :
    decodeWithHeader h after = .needPayload := by
  rw [decodeWithHeader, if_pos hlen]

/-- An idle block with nothing staged takes the request at the port. -/
theorem fetch_idle {s : State} (hphase : s.phase = .idle) (hstaged : s.staged = []) : fetch s = fetchRequest s := by
  simp only [fetch, hphase, hstaged]

theorem step_needHeader {s : State} (hphase : s.phase = .idle) (hstaged : s.staged = [])
    (hport : decodeRequest s.port = .needHeader) : step s = .fault .awaitingRequest := by
  simp only [step, fetch_idle hphase hstaged, fetchRequest, hport]

theorem step_needPayload {s : State} (hphase : s.phase = .idle) (hstaged : s.staged = [])
    (hport : decodeRequest s.port = .needPayload) : step s = .fault .awaitingPayload := by
  simp only [step, fetch_idle hphase hstaged, fetchRequest, hport]

/-- Settles O46: the decoder asks for the header or for the payload, and the step stops there. -/
theorem shortRequestWaits : Obligations.ShortRequestWaits := by
  refine ⟨fun s hphase hstaged hlen => step_needHeader hphase hstaged (decodeRequest_short hlen),
    fun s h after hphase hstaged hport hlen => step_needPayload hphase hstaged ?_⟩
  rw [hport, decodeRequest_bytesOfHeader_append, decodeWithHeader_short hlen]

/-! ### Reset -/

theorem pixel_nil (x y : Nat) : pixel [] x y = .black := by
  simp [pixel, colorOfUnit, Memory.read, Memory.unlisted]

/-- Settles O1: the framebuffer of reset lists no unit. -/
theorem resetFramebufferBlack : Obligations.ResetFramebufferBlack :=
  ⟨fun _ _ => rfl, fun x y _ _ => pixel_nil x y⟩

/-- Settles O2: each field as `State.reset` sets it. -/
theorem resetRegistersAndIdle : Obligations.ResetRegistersAndIdle :=
  ⟨rfl, rfl, rfl, rfl, rfl, rfl, rfl, rfl, rfl, rfl, rfl⟩

/-- Settles O3: the empty memory is canonical and in bounds, and the cursor is at (0,0). -/
theorem resetMeetsInvariant : Obligations.ResetMeetsInvariant :=
  ⟨Memory.wf_nil, List.forall_mem_nil _, by decide, by decide⟩

/-- Settles O4: the reset block has the framebuffer and cursor of `State.reset`, and an empty port to wait at. -/
theorem blockResetFromAnyState : Obligations.BlockResetFromAnyState := by
  intro s
  have hwaits : step s.blockReset = .fault .awaitingRequest := step_needHeader rfl rfl rfl
  exact ⟨fun _ _ => rfl, rfl, rfl, rfl, rfl, rfl, rfl, rfl, rfl, resetMeetsInvariant, hwaits⟩

end Sys2Proof.Machine
end

/-! # Proofs of the statements about memory, the transport and what every step keeps (20_memory.md) -/

section

namespace Sys2Proof.Machine

/-! ### What every step keeps

A relation between the state before and the state after, reflexive and transitive, that every update of a kind makes
true is made true by every operation built of such updates. Each statement about all steps below is such a relation. -/

/-- The updates by which the drawing operations change the state. `advance` and `moveCursor` carry the bounds the cursor
is given by the layout check (10_state.md R12) and by the range check (41_rasterizer.md R87). -/
structure KeptByDrawing (R : State → State → Prop) : Prop where
  refl : ∀ s, R s s
  trans : ∀ s t u, R s t → R t u → R s u
  pixel : ∀ s x y c m, pixelWrite x y c s.fb = some m → R s (s.setFb m).dirty
  fill : ∀ s c, R s (fillFrame c s)
  latch : ∀ s fsel pad, R s (s.latch fsel pad)
  advance : ∀ s v, v.toNat ≤ 144 → R s (s.setCurX v)
  moveCursor : ∀ s x y, x.toNat < W → y.toNat < H → R s (s.setCursor x y)
  respond : ∀ s r, R s (s.pushResponse r)

/-- The updates of every instruction: those of drawing, the transport and `LC`. -/
structure KeptByExec (R : State → State → Prop) : Prop extends KeptByDrawing R where
  cmd : ∀ s b, R s (tpCmd b s).1
  data : ∀ s bs, R s (tpData bs s).1
  resetPulse : ∀ s, R s (tpResetPulse s)
  setLc : ∀ s l, R s (s.setLc l)

/-- The updates of every step: those of the instructions, and taking bytes from a channel. -/
structure KeptByStep (R : State → State → Prop) : Prop extends KeptByExec R where
  setPort : ∀ s bytes, R s (s.setPort bytes)
  setStaged : ∀ s bytes, R s (s.setStaged bytes)

variable {R : State → State → Prop}

theorem KeptByDrawing.andThen (hR : KeptByDrawing R) {s : State} {a : State × Option Halt}
    {b : State → State × Option Halt} (ha : R s a.1) (hb : ∀ t, a = (t, none) → R t (b t).1) :
    R s (andThen a b).1 := by
  obtain ⟨t, o⟩ := a
  cases o with
  | none => exact hR.trans s t _ ha (hb t rfl)
  | some h => exact ha

theorem KeptByDrawing.paint (hR : KeptByDrawing R) (dots : List Dot) (s : State) : R s (paint dots s).1 := by
  induction dots generalizing s with
  | nil => exact hR.refl s
  | cons d rest ih =>
    unfold Machine.paint
    split
    · next m hm => exact hR.trans _ _ _ (hR.pixel s _ _ _ m hm) (ih _)
    · exact hR.refl s

/-- The padding step moves `CUR_X` by one at most. -/
theorem padColumn_curX_le (f : Font) (bg : Color) (s : State) :
    (padColumn f bg s).1.curX.toNat ≤ s.curX.toNat + 1 := by
  have hpaint := paint_curX (columnDots f.height s.curX.toNat s.curY.toNat bg) s
  unfold padColumn
  revert hpaint
  generalize Machine.paint _ s = a
  obtain ⟨t, o⟩ := a
  intro hpaint
  simp only at hpaint
  cases o with
  | none =>
    simp only [andThen_none, State.setCurX_curX, BitVec.toNat_ofNat, hpaint]
    exact Nat.mod_le _ _
  | some h => simp [hpaint]

theorem KeptByDrawing.padColumn (hR : KeptByDrawing R) (f : Font) (bg : Color) {s : State}
    (hx : s.curX.toNat ≤ 126) : R s (padColumn f bg s).1 := by
  refine hR.andThen (hR.paint _ s) fun t ht => hR.advance t _ ?_
  have hcurX : t.curX = s.curX := by
    rw [← paint_curX (columnDots f.height s.curX.toNat s.curY.toNat bg) s, ht]
  rw [hcurX, BitVec.toNat_ofNat]
  omega

theorem KeptByDrawing.glyphRows (hR : KeptByDrawing R) (f : Font) (ch : Byte) (fg bg : Color) (rows : List Nat)
    (s : State) : R s (glyphRows f ch fg bg rows s).1 := by
  induction rows generalizing s with
  | nil => exact hR.refl s
  | cons r rest ih =>
    unfold Machine.glyphRows
    split
    · exact hR.refl s
    · exact hR.andThen (hR.paint _ s) fun t _ => ih t

theorem glyphRows_curX (f : Font) (ch : Byte) (fg bg : Color) (rows : List Nat) (s : State) :
    (glyphRows f ch fg bg rows s).1.curX = s.curX := by
  obtain ⟨m, l, h⟩ := glyphRows_state f ch fg bg rows s
  rw [h]
  rfl

/-- The layout check passed: the glyph starts in column 126 at most (10_state.md R12). -/
theorem curX_le_of_layout {f : Font} {x y : Byte} (h : ¬layoutFull f x y = true) : x.toNat ≤ 126 := by
  have hheight := f.height_ok
  rw [layoutFull_iff] at h
  simp only [W] at h
  omega

/-- The advance of a glyph that starts in column 127 at most ends in column 144 at most (10_state.md R12). -/
theorem KeptByDrawing.advanceCursor (hR : KeptByDrawing R) (f : Font) (pad : Bool) {s : State}
    (hx : s.curX.toNat ≤ 127) : R s (advanceCursor f pad s) := by
  have hwidth := f.width_ok
  have hpad : pad.toNat ≤ 1 := Bool.toNat_le pad
  refine hR.advance s _ ?_
  rw [BitVec.toNat_ofNat]
  omega

theorem KeptByDrawing.writeGlyph (hR : KeptByDrawing R) (fsel : BitVec 4) (f : Font) (ch : Byte) (fg bg : Color)
    (pad : Bool) (s : State) : R s (writeGlyph fsel f ch fg bg pad s).1 := by
  have hlatch := hR.latch s fsel pad
  unfold Machine.writeGlyph
  split
  · exact hlatch
  · next hlayout =>
    have hx : (s.latch fsel pad).curX.toNat ≤ 126 := curX_le_of_layout hlayout
    refine hR.trans _ _ _ hlatch (hR.andThen ?_ fun t ht =>
      hR.andThen (hR.glyphRows f ch fg bg _ t) fun u hu => hR.advanceCursor f pad ?_)
    · split
      · exact hR.padColumn f bg hx
      · exact hR.refl _
    · have hcurX : u.curX = t.curX := by rw [← glyphRows_curX f ch fg bg (List.range f.height) t, hu]
      rw [hcurX]
      split at ht
      · have hpad := padColumn_curX_le f bg (s.latch fsel pad)
        rw [ht] at hpad
        exact hpad.trans (by omega)
      · obtain rfl : s.latch fsel pad = t := congrArg Prod.fst ht
        omega

theorem KeptByDrawing.writeChars (hR : KeptByDrawing R) (fsel : BitVec 4) (f : Font) (fg bg : Color) (pad : Bool)
    (k : Nat) (text : List Byte) (s : State) : R s (writeChars fsel f fg bg pad k text s).1 := by
  induction text generalizing k s with
  | nil => exact hR.refl s
  | cons c rest ih =>
    have hc := hR.writeGlyph fsel f c fg bg pad s
    unfold Machine.writeChars
    split
    · next t ht =>
      rw [ht] at hc
      exact hR.trans _ _ _ hc (ih (k + 1) t)
    · next t h ht =>
      rw [ht] at hc
      exact hc

theorem KeptByDrawing.writeText (hR : KeptByDrawing R) (fsel : BitVec 4) (f : Font) (text : List Byte)
    (fg bg : Color) (pad : Bool) (s : State) : R s (writeText fsel f text fg bg pad s).1 :=
  hR.trans _ _ _ (hR.latch s fsel pad) (hR.writeChars fsel f fg bg pad 0 text _)

theorem KeptByDrawing.placeCursor (hR : KeptByDrawing R) (x y : Byte) (s : State) : R s (placeCursor x y s).1 := by
  unfold Machine.placeCursor
  split
  · next h =>
    obtain ⟨hx, hy⟩ := inFrame_iff.mp h
    exact hR.moveCursor s x y hx hy
  · exact hR.refl s

/-- `WRITE` does what its drawing parts and, where it commits, its refresh do. -/
theorem KeptByDrawing.writeParts (hR : KeptByDrawing R) (text : List Byte) (fsel : BitVec 4) (f : Font) (x y : Byte)
    (bg fg : Color) (pad commit : Bool) (s : State) (hrefresh : commit = true → ∀ t, R t (refreshAll t).1) :
    R s (writeParts text fsel f x y bg fg pad commit s).1 := by
  refine hR.andThen ?_ fun t _ => hR.andThen ?_ fun u _ => ?_
  · rw [inPart_fst]
    exact hR.trans _ _ _ (hR.latch s fsel pad) <| hR.trans _ _ _ (hR.fill _ bg) <|
      hR.trans _ _ _ (hR.moveCursor _ 0#8 0#8 (by decide) (by decide)) (hR.placeCursor x y _)
  · rw [inPart_fst]
    exact hR.writeText fsel f text fg bg pad t
  · split
    · next hcommit =>
      rw [inPart_fst]
      exact hrefresh hcommit u
    · exact hR.refl u

theorem KeptByDrawing.finish (hR : KeptByDrawing R) (v : Byte) {s : State} {a : State × Option Halt} (h : R s a.1) :
    R s (finish v a) := by
  obtain ⟨t, o⟩ := a
  rcases o with _ | (_ | _)
  · exact hR.trans s t _ h (hR.respond t _)
  · exact hR.trans s t _ h (hR.respond t _)
  · exact h

theorem KeptByDrawing.withFont (hR : KeptByDrawing R) (fsel : BitVec 4) {s : State} {body : Font → State}
    (h : ∀ f, R s (body f)) : R s (withFont fsel s body) := by
  unfold Machine.withFont
  split
  · exact h _
  · exact hR.respond s _

/-! ### The instructions that send -/

/-- The instructions that use the transport: `INIT`, `REFRESH`, a committed `WRITE` (20_memory.md R34, R40) and the
controller command bytes (log 9). -/
def UsesTransport (i : Instr) : Prop :=
  i = .init ∨ i = .refresh ∨ encodeCommand i ≠ none ∨
    ∃ text fsel x y bg fg pad, i = .write text fsel x y bg fg pad true

/-- The byte of page-select `n` is `0xB0 + n` (42_controller.md R106). -/
theorem pageSelectByte_eq_append (n : BitVec 3) : pageSelectByte n.toNat = 0b10110#5 ++ n := by
  revert n
  decide

/-- A controller command byte sends the byte it is encoded as, and does nothing else (30_encoding.md R67). -/
theorem exec_commandByte {i : Instr} {b : Byte} (h : encodeCommand i = some b) (s : State) :
    exec i s = .next (sendCommand b s) := by
  cases i with
  | cbPageSelect n =>
    obtain rfl : 0b10110#5 ++ n = b := Option.some.inj h
    rw [← pageSelectByte_eq_append]
    rfl
  | cbSleep | cbRamFollow | cbInverseOff | cbContrast | cbMemoryMode | cbColLow0 | cbColHigh0 =>
    obtain rfl := Option.some.inj h
    rfl
  | setpx | fill | setcur | wrchar | wrstr | write | init | refresh | getw | geth => contradiction

/-- An instruction that does not use the transport makes true what drawing makes true. -/
theorem KeptByDrawing.exec (hR : KeptByDrawing R) {i : Instr} (hi : ¬UsesTransport i) (s : State) :
    ∃ t, exec i s = .next t ∧ R s t := by
  simp only [UsesTransport, not_or] at hi
  obtain ⟨hinit, hrefresh, hcommand, hcommit⟩ := hi
  cases i with
  | setpx x y c => exact ⟨_, rfl, hR.finish _ (hR.paint _ s)⟩
  | fill c => exact ⟨_, rfl, hR.trans _ _ _ (hR.fill s c) (hR.respond _ _)⟩
  | setcur x y => exact ⟨_, rfl, hR.finish _ (hR.placeCursor x y s)⟩
  | wrchar ch fsel fg bg pad =>
    exact ⟨_, rfl, hR.withFont fsel fun f => hR.finish _ (hR.writeGlyph fsel f ch fg bg pad s)⟩
  | wrstr text fsel fg bg pad =>
    exact ⟨_, rfl, hR.withFont fsel fun f => hR.finish _ (hR.writeText fsel f text fg bg pad s)⟩
  | write text fsel x y bg fg pad commit =>
    refine ⟨_, rfl, hR.withFont fsel fun f => hR.finish _ (hR.writeParts text fsel f x y bg fg pad commit s ?_)⟩
    rintro rfl
    exact absurd ⟨text, fsel, x, y, bg, fg, pad, rfl⟩ hcommit
  | getw => exact ⟨_, rfl, hR.respond s _⟩
  | geth => exact ⟨_, rfl, hR.respond s _⟩
  | init => exact absurd rfl hinit
  | refresh => exact absurd rfl hrefresh
  | cbSleep | cbRamFollow | cbInverseOff | cbContrast | cbMemoryMode | cbPageSelect | cbColLow0 | cbColHigh0 =>
    exact absurd (Option.some_ne_none _) hcommand

theorem orFailStage_fst (stage : Nat) (a : State × Option Reply) : (orFailStage stage a).1 = a.1 := by
  obtain ⟨s, _ | (_ | _)⟩ := a <;> rfl

theorem KeptByExec.orFailStage_cmd (hR : KeptByExec R) (stage : Nat) (b : Byte) (s : State) :
    R s (orFailStage stage (tpCmd b s)).1 := by
  rw [orFailStage_fst]
  exact hR.cmd s b

theorem KeptByExec.sendScript (hR : KeptByExec R) (i : Nat) (bytes : List Byte) (s : State) :
    R s (sendScript i bytes s).1 := by
  induction bytes generalizing i s with
  | nil => exact hR.refl s
  | cons b rest ih => exact hR.andThen (hR.orFailStage_cmd i b s) fun t _ => ih (i + 1) t

theorem KeptByExec.lcAfterInit (hR : KeptByExec R) {s : State} {a : State × Option Halt} (h : R s a.1) :
    R s (lcAfterInit a).1 := by
  obtain ⟨t, o⟩ := a
  rcases o with _ | (_ | _)
  · exact hR.trans s t _ h (hR.setLc t _)
  · exact hR.trans s t _ h (hR.setLc t _)
  · exact h

theorem KeptByExec.refreshPage (hR : KeptByExec R) (p : Nat) (s : State) : R s (refreshPage p s).1 := by
  refine hR.andThen (hR.orFailStage_cmd _ _ s) fun t _ => hR.andThen (hR.orFailStage_cmd _ _ t) fun u _ =>
    hR.andThen (hR.orFailStage_cmd _ _ u) fun v _ => ?_
  rw [orFailStage_fst]
  exact hR.data v _

theorem KeptByExec.refreshPages (hR : KeptByExec R) (pages : List Nat) (s : State) :
    R s (refreshPages pages s).1 := by
  induction pages generalizing s with
  | nil => exact hR.refl s
  | cons p rest ih => exact hR.andThen (hR.refreshPage p s) fun t _ => ih t

theorem KeptByExec.lcAfterRefresh (hR : KeptByExec R) (s : State) (l : Lifecycle) : R s (s.lcAfterRefresh l) := by
  rw [State.lcAfterRefresh_eq_setLc]
  exact hR.setLc s _

theorem KeptByExec.lcAtRefreshEnd (hR : KeptByExec R) {s : State} {a : State × Option Halt} (h : R s a.1) :
    R s (lcAtRefreshEnd a).1 := by
  obtain ⟨t, o⟩ := a
  rcases o with _ | (_ | _)
  · exact hR.trans s t _ h (hR.lcAfterRefresh t _)
  · exact hR.trans s t _ h (hR.lcAfterRefresh t _)
  · exact h

theorem KeptByExec.refreshAll (hR : KeptByExec R) (s : State) : R s (refreshAll s).1 :=
  hR.lcAtRefreshEnd (hR.refreshPages _ s)

/-- Every instruction has a next state, and makes true what its updates make true. -/
theorem KeptByExec.exec (hR : KeptByExec R) (i : Instr) (s : State) : ∃ t, exec i s = .next t ∧ R s t := by
  by_cases hi : UsesTransport i
  · obtain rfl | rfl | hcommand | ⟨text, fsel, x, y, bg, fg, pad, rfl⟩ := hi
    · exact ⟨_, rfl, hR.finish _ (hR.lcAfterInit (hR.trans _ _ _ (hR.resetPulse s) (hR.sendScript 0 _ _)))⟩
    · exact ⟨_, rfl, hR.finish _ (hR.refreshAll s)⟩
    · obtain ⟨b, hb⟩ := Option.ne_none_iff_exists'.mp hcommand
      exact ⟨_, exec_commandByte hb s, hR.cmd s b⟩
    · exact ⟨_, rfl, hR.withFont fsel fun f =>
        hR.finish _ (hR.writeParts text fsel f x y bg fg pad true s fun _ => hR.refreshAll)⟩
  · exact hR.toKeptByDrawing.exec hi s

/-! ### Steps -/

/-- The state a fetch leaves, where it leaves one, is as `P` says. -/
def Fetched.Leaves (P : State → Prop) : Fetched → Prop
  | .run _ t => P t
  | .illegal t => P t
  | .stuck _ => True
  | .refuse _ => True

theorem KeptByStep.fetchRequest (hR : KeptByStep R) (s : State) : (fetchRequest s).Leaves (R s) := by
  unfold Machine.fetchRequest
  split
  · exact hR.setPort s _
  · exact hR.setPort s _
  · trivial
  · trivial

theorem KeptByStep.fetch (hR : KeptByStep R) (s : State) : (fetch s).Leaves (R s) := by
  unfold Machine.fetch
  split
  · trivial
  · split
    · split
      · exact hR.setStaged s _
      · trivial
    · exact hR.fetchRequest s

/-- Every step makes true what its updates make true. -/
theorem KeptByStep.step (hR : KeptByStep R) {s t : State} (h : step s = .next t) : R s t := by
  have hfetch := hR.fetch s
  unfold Machine.step at h
  split at h
  · next i u hu =>
    rw [hu] at hfetch
    obtain ⟨t', hexec, hut⟩ := hR.exec i u
    obtain rfl : t' = t := Host.Outcome.next.inj (hexec.symm.trans h)
    exact hR.trans s u _ hfetch hut
  · next u hu =>
    rw [hu] at hfetch
    obtain rfl : answerIllegal u = t := Host.Outcome.next.inj h
    exact hR.trans s u _ hfetch (hR.respond u _)
  · contradiction
  · contradiction

/-! ### The invariant and the configuration -/

/-- One transaction leaves all but the trace, the answers and the phase alone. -/
theorem transact_state (e : Reply → TxEvent) (s : State) :
    (∃ a, (transact e s).1 = s.sent [e a] 1) ∨ (transact e s).1 = s.setPhase .awaitingTransport := by
  cases h : s.answerAt 0 with
  | some a => exact .inl ⟨a, by rw [transact_some h]⟩
  | none => exact .inr (by rw [transact_none h])

theorem inv_transact (e : Reply → TxEvent) {s : State} (h : s.Inv) : (transact e s).1.Inv := by
  obtain ⟨a, ha⟩ | ha := transact_state e s <;> exact ha ▸ h

/-- Every update of a step keeps the invariant. -/
theorem keptByStep_inv : KeptByStep fun s t => s.Inv → t.Inv where
  refl := fun _ h => h
  trans := fun _ _ _ hst htu h => htu (hst h)
  pixel := fun s x y c m hm ⟨hwf, hbounds, hx, hy⟩ => by
    simpa only [State.Inv, State.dirty_fb, State.setFb_fb, State.dirty_curX, State.dirty_curY] using
      And.intro (pixelWrite_wf hwf hm) ⟨pixelWrite_inBounds hbounds hm, hx, hy⟩
  fill := fun s c ⟨_, _, hx, hy⟩ => by
    simpa only [State.Inv, fillFrame, State.dirty_fb, State.setFb_fb, State.dirty_curX, State.dirty_curY] using
      And.intro (Memory.wf_fill (fillByte c)) ⟨Memory.inBounds_fill (fillByte c), hx, hy⟩
  latch := fun _ _ _ h => h
  advance := fun _ _ hv ⟨hwf, hbounds, _, hy⟩ => ⟨hwf, hbounds, hv, hy⟩
  moveCursor := fun _ _ _ hx hy ⟨hwf, hbounds, _, _⟩ => ⟨hwf, hbounds, hx.le.trans (by decide), hy⟩
  respond := fun _ _ h => h
  cmd := fun _ _ h => inv_transact _ h
  data := fun _ _ h => inv_transact _ h
  resetPulse := fun _ h => h
  setLc := fun _ _ h => h
  setPort := fun _ _ h => h
  setStaged := fun _ _ h => h

/-- Settles O47: every update of a step keeps the invariant. -/
theorem stepKeepsInvariant : Obligations.StepKeepsInvariant :=
  fun _ _ hinv hstep => keptByStep_inv.step hstep hinv

theorem transact_cfg (e : Reply → TxEvent) (s : State) : (transact e s).1.cfg = s.cfg := by
  obtain ⟨a, ha⟩ | ha := transact_state e s <;> exact ha ▸ rfl

/-- No update of a step writes the configuration. -/
theorem keptByStep_cfg : KeptByStep fun s t => t.cfg = s.cfg where
  refl := fun _ => rfl
  trans := fun _ _ _ hst htu => htu.trans hst
  pixel := fun s _ _ _ m _ => State.dirty_cfg (s.setFb m)
  fill := fun s c => State.dirty_cfg (s.setFb (Memory.fill (fillByte c)))
  latch := fun _ _ _ => rfl
  advance := fun _ _ _ => rfl
  moveCursor := fun _ _ _ _ _ => rfl
  respond := fun _ _ => rfl
  cmd := fun s _ => transact_cfg _ s
  data := fun s _ => transact_cfg _ s
  resetPulse := fun _ => rfl
  setLc := fun _ _ => rfl
  setPort := fun _ _ => rfl
  setStaged := fun _ _ => rfl

/-- Settles O48: no update of a step writes the configuration, and the reset of the block carries it over. -/
theorem stepKeepsConfiguration : Obligations.StepKeepsConfiguration :=
  ⟨fun _ _ hstep => keptByStep_cfg.step hstep, fun _ => rfl⟩

/-! ### The trace -/

theorem transactions_append (es fs : List TxEvent) :
    transactions (es ++ fs) = transactions es + transactions fs := by
  simp only [transactions, List.filter_append, List.length_append]

/-- The trace has grown by one transaction event for each answer used (20_memory.md R39, R40). -/
def GrewByAnswers (s t : State) : Prop :=
  ∃ es, t.tx = s.tx ++ es ∧ t.answered = s.answered + transactions es ∧ t.answers = s.answers.drop (transactions es)

/-- A state with the same trace and the same answers ahead. -/
theorem GrewByAnswers.of_same {s t : State} (htx : t.tx = s.tx) (hanswered : t.answered = s.answered)
    (hanswers : t.answers = s.answers) : GrewByAnswers s t :=
  ⟨[], by rw [htx, List.append_nil], hanswered, hanswers⟩

theorem GrewByAnswers.trans {s t u : State} (hst : GrewByAnswers s t) (htu : GrewByAnswers t u) :
    GrewByAnswers s u := by
  obtain ⟨es, htx, hanswered, hanswers⟩ := hst
  obtain ⟨fs, hutx, huanswered, huanswers⟩ := htu
  refine ⟨es ++ fs, ?_, ?_, ?_⟩
  · rw [hutx, htx, List.append_assoc]
  · rw [huanswered, hanswered, transactions_append, Nat.add_assoc]
  · rw [huanswers, hanswers, transactions_append, List.drop_drop]

/-- One transaction: its event and its answer, or neither (20_memory.md R39). -/
theorem grewByAnswers_transact {e : Reply → TxEvent} (he : ∀ a, transactions [e a] = 1) (s : State) :
    GrewByAnswers s (transact e s).1 := by
  obtain ⟨a, ha⟩ | ha := transact_state e s
  · rw [ha]
    exact ⟨[e a], rfl, by rw [he]; rfl, by rw [he]; rfl⟩
  · rw [ha]
    exact .of_same rfl rfl rfl

/-- Every update of an instruction adds as many transactions to the trace as it uses answers. -/
theorem keptByExec_grewByAnswers : KeptByExec GrewByAnswers where
  refl := fun _ => .of_same rfl rfl rfl
  trans := fun _ _ _ => GrewByAnswers.trans
  pixel := fun _ _ _ _ _ _ => .of_same (by simp) (by simp) (by simp)
  fill := fun _ _ => .of_same (by simp [fillFrame]) (by simp [fillFrame]) (by simp [fillFrame])
  latch := fun _ _ _ => .of_same rfl rfl rfl
  advance := fun _ _ _ => .of_same rfl rfl rfl
  moveCursor := fun _ _ _ _ _ => .of_same rfl rfl rfl
  respond := fun _ _ => .of_same rfl rfl rfl
  cmd := fun s _ => grewByAnswers_transact (fun _ => rfl) s
  data := fun s _ => grewByAnswers_transact (fun _ => rfl) s
  resetPulse := fun _ => ⟨[.rstAssert, .rstRelease], rfl, rfl, rfl⟩
  setLc := fun _ _ => .of_same rfl rfl rfl

/-- No update of drawing writes the trace. -/
theorem keptByDrawing_tx : KeptByDrawing fun s t => t.tx = s.tx where
  refl := fun _ => rfl
  trans := fun _ _ _ hst htu => htu.trans hst
  pixel := fun s _ _ _ m _ => State.dirty_tx (s.setFb m)
  fill := fun s c => State.dirty_tx (s.setFb (Memory.fill (fillByte c)))
  latch := fun _ _ _ => rfl
  advance := fun _ _ _ => rfl
  moveCursor := fun _ _ _ _ _ => rfl
  respond := fun _ _ => rfl

/-- Settles O50: every update adds as many transactions as it uses answers, and those of drawing add no event. -/
theorem traceGrowsByAnswers : Obligations.TraceGrowsByAnswers := by
  intro s t i hexec
  obtain ⟨t', hexec', hgrew⟩ := keptByExec_grewByAnswers.exec i s
  obtain rfl : t' = t := Host.Outcome.next.inj (hexec'.symm.trans hexec)
  refine ⟨hgrew, fun htx => ?_⟩
  by_contra hi
  obtain ⟨u, hu, hutx⟩ := keptByDrawing_tx.exec (i := i) hi s
  obtain rfl : u = t' := Host.Outcome.next.inj (hu.symm.trans hexec)
  exact htx hutx

/-- Settles O35: a command byte is its own transaction, and the transaction touches the trace and the answers alone. -/
theorem commandByteIsOneTransaction : Obligations.CommandByteIsOneTransaction := by
  intro s i b a hb ha
  have hsent : sendCommand b s = s.sent [.cmd b a] 1 := congrArg Prod.fst (transact_some ha)
  exact ⟨_, (exec_commandByte hb s).trans (congrArg _ hsent), rfl, ⟨rfl, rfl, rfl⟩, rfl, rfl, rfl, ⟨rfl, rfl⟩,
    ⟨rfl, rfl⟩, rfl, rfl, rfl⟩

/-! ### What a step runs -/

/-- The request at the port of an idle block runs, its bytes taken. -/
theorem step_request {s : State} {i : Instr} {rest : List Byte} (hphase : s.phase = .idle) (hstaged : s.staged = [])
    (hport : decodeRequest s.port = .instr i rest) : step s = exec i (s.setPort rest) := by
  simp only [step, fetch_idle hphase hstaged, fetchRequest, hport]

/-- A staged command byte of an idle block runs, the byte taken (log 9). -/
theorem step_staged {s : State} {i : Instr} {b : Byte} {rest : List Byte} (hphase : s.phase = .idle)
    (hstaged : s.staged = b :: rest) (hb : decodeCommand b = some i) : step s = exec i (s.setStaged rest) := by
  simp only [step, fetch, hphase, hstaged, hb]

/-- Settles O42: the request at the port, or the staged byte before it. -/
theorem stepRunsDecodedInstruction : Obligations.StepRunsDecodedInstruction :=
  ⟨fun _ _ _ hphase hstaged hport => step_request hphase hstaged hport,
    fun _ _ _ _ hphase hstaged hb => step_staged hphase hstaged hb⟩

/-- A header that selects an operation takes its payload and leaves the bytes after it. -/
theorem decodeWithHeader_selected {h : Header} {op : RequestOp} {payload : List Byte} (rest : List Byte)
    (hop : selectOp h = some op) (hlen : payload.length = payloadLength h) :
    decodeWithHeader h (payload ++ rest) = .instr (assemble op h payload) rest := by
  rw [decodeWithHeader, if_neg (by rw [List.length_append]; omega), hop, List.take_left' hlen, List.drop_left' hlen]

/-- A header that selects no operation is rejected, its payload taken. -/
theorem decodeWithHeader_unselected {h : Header} {payload : List Byte} (rest : List Byte)
    (hop : selectOp h = none) (hlen : payload.length = payloadLength h) :
    decodeWithHeader h (payload ++ rest) = .illegal (rejectReason h) rest := by
  rw [decodeWithHeader, if_neg (by rw [List.length_append]; omega), hop, List.drop_left' hlen]

/-- The bytes of a table word that is a request decode to it, and leave the bytes after them. -/
theorem decodeRequest_requestBytesOfWord {nbits w : Nat} {i : Instr} (hw : decodeTableWord nbits w = some i)
    (hbits : isCommandWidth nbits = false) (rest : List Byte) :
    decodeRequest (requestBytesOfWord w ++ rest) = .instr i rest := by
  have hdecode : ∀ after, decodeRequest (requestBytesOfWord w ++ after) =
      decodeWithHeader (BitVec.ofNat 64 w) (List.replicate (payloadLength (BitVec.ofNat 64 w)) 0#8 ++ after) := by
    intro after
    rw [requestBytesOfWord, List.append_assoc, decodeRequest_bytesOfHeader_append]
  have hnil := hdecode []
  rw [List.append_nil] at hnil
  rw [decodeTableWord, hbits, hnil] at hw
  rw [hdecode]
  cases hop : selectOp (BitVec.ofNat 64 w) with
  | some op =>
    rw [decodeWithHeader_selected [] hop List.length_replicate] at hw
    rw [decodeWithHeader_selected rest hop List.length_replicate, Option.some.inj hw]
  | none =>
    rw [decodeWithHeader_unselected [] hop List.length_replicate] at hw
    contradiction

/-- Settles O43: the word's bytes stand first in the channel the step takes from, and decode to the instruction. -/
theorem placedWordRunsNext : Obligations.PlacedWordRunsNext := by
  intro s nbits w i hw
  refine ⟨fun hbits => ?_, fun hbits => ?_⟩
  · have hwidth : isCommandWidth nbits = false := decide_eq_false (by omega)
    rw [State.withFetchWord, placeWord, hwidth]
    exact step_request rfl rfl (decodeRequest_requestBytesOfWord hw hwidth s.port)
  · have hwidth : isCommandWidth nbits = true := decide_eq_true hbits
    rw [decodeTableWord, hwidth] at hw
    rw [State.withFetchWord, placeWord, hwidth]
    exact step_staged rfl rfl hw

/-! ### The address decoder -/

/-- Every unit and bit is that of one pixel, which the rule of R33 gives back. -/
theorem decodeXY_surjective {u n : Nat} (hu : u < NUNITS) (hn : n < 8) :
    u % W < W ∧ 8 * (u / W) + n < H ∧ decodeXY (u % W) (8 * (u / W) + n) = ⟨u / W, u, n⟩ := by
  have hrow : (8 * (u / W) + n) / 8 = u / W := by omega
  have hbit : (8 * (u / W) + n) % 8 = n := by omega
  refine ⟨Nat.mod_lt u (by decide), ?_, by simp only [decodeXY, hrow, hbit, Nat.mod_add_div']⟩
  simp only [NUNITS_eq, W, H] at *
  omega

/-- The unit and bit of a pixel, and the pixel they give back (20_memory.md R33). -/
theorem decodeXY_leftInverse {x y : Nat} (hx : x < W) (hy : y < H) :
    (decodeXY x y).page < NPAGES ∧ (decodeXY x y).unit < NUNITS ∧ (decodeXY x y).bit < 8 ∧
    (decodeXY x y).unit % W = x ∧ 8 * ((decodeXY x y).unit / W) + (decodeXY x y).bit = y := by
  refine ⟨?_, decodeXY_unit_lt hx hy, decodeXY_bit_lt x y, ?_, ?_⟩
  all_goals simp only [decodeXY, NPAGES, W, H] at *
  all_goals omega

/-- With `W = 128` the decoder is a wiring (40_framebuffer.md R76). -/
theorem decodeXY_wiring (x : BitVec 7) (y : BitVec 6) :
    decodeXY x.toNat y.toNat =
      ⟨(y.extractLsb' 3 3).toNat, (y.extractLsb' 3 3 ++ x).toNat, (y.extractLsb' 0 3).toNat⟩ := by
  have hpage : (y.extractLsb' 3 3).toNat = y.toNat / 8 := by
    rw [BitVec.extractLsb'_toNat, Nat.shiftRight_eq_div_pow]
    omega
  have hunit : (y.extractLsb' 3 3 ++ x).toNat = x.toNat + y.toNat / 8 * W := by
    rw [BitVec.toNat_append, ← Nat.shiftLeft_add_eq_or_of_lt x.isLt, Nat.shiftLeft_eq, hpage, Nat.add_comm]
    rfl
  have hbit : (y.extractLsb' 0 3).toNat = y.toNat % 8 := by
    rw [BitVec.extractLsb'_toNat, Nat.shiftRight_zero]
  rw [hpage, hunit, hbit]
  rfl

/-- Settles O5: the rule of R33 is a left and a right inverse, and the wiring is R76's. -/
theorem decoderIsBijection : Obligations.DecoderIsBijection :=
  ⟨fun _ _ hx hy => decodeXY_leftInverse hx hy, fun _ _ hu hn => decodeXY_surjective hu hn, decodeXY_wiring⟩

/-! ### The controller after a refresh -/

/-- A page-select byte selects its page. -/
theorem Panel.command_pageSelectByte (v : Panel) {p : Nat} (hp : p < NPAGES) :
    v.command (pageSelectByte p) = { v with page := p } := by
  have hbyte : ∀ q < NPAGES, pageSelectByte q &&& 0xF8#8 = 0xB0#8 ∧ (pageSelectByte q &&& 0x07#8).toNat = q := by
    decide
  obtain ⟨hselect, hpage⟩ := hbyte p hp
  rw [Panel.command, if_pos hselect, hpage]

/-- The two column-select bytes put the column pointer at column 0 (42_controller.md R107). -/
theorem Panel.command_columnSelect (v : Panel) : (v.command colLowByte).command colHighByte = { v with col := 0 } := by
  have hlow : v.command colLowByte = { v with col := v.col / 16 * 16 } := rfl
  have hhigh : ∀ w : Panel, w.command colHighByte = { w with col := w.col % 16 } := fun _ => rfl
  rw [hlow, hhigh, Nat.mul_mod_left]

theorem pageBytes_length (m : Memory) (p : Nat) : (pageBytes m p).length = W := by
  rw [pageBytes, List.length_map, List.length_range]

theorem pageBytes_getD (m : Memory) (p : Nat) {c : Nat} (hc : c < W) :
    (pageBytes m p).getD c 0#8 = Memory.read m (unitOf p c) := by
  rw [pageBytes, List.getD_eq_getElem?_getD, List.getElem?_map, List.getElem?_range hc]
  rfl

section panel
variable (delivered : Nat → Nat) (fresh : Nat → Panel) (m : Memory)

/-- An accepted page replaces that page of the controller and leaves the others. -/
theorem Panel.replay_pageEvents_mem (v : Panel) {p : Nat} (hp : p < NPAGES) (q : Nat) {c : Nat} (hc : c < W) :
    (Panel.replay delivered fresh v (pageEvents m p)).mem q c =
      if q = p then Memory.read m (unitOf p c) else v.mem q c := by
  simp only [pageEvents, Panel.replay_cons, Panel.replay_nil, Panel.after, Panel.command_pageSelectByte v hp,
    Panel.command_columnSelect, Panel.put, pageBytes_length, Nat.zero_le, Nat.zero_add, Nat.sub_zero, hc, true_and,
    and_true, pageBytes_getD m p hc]

/-- After accepted pages the controller holds those pages of the framebuffer, and the others as before. -/
theorem Panel.replay_pages_mem (v : Panel) {pages : List Nat} (hpages : ∀ p ∈ pages, p < NPAGES) (q : Nat) {c : Nat}
    (hc : c < W) :
    (Panel.replay delivered fresh v (pages.flatMap (pageEvents m))).mem q c =
      if q ∈ pages then Memory.read m (unitOf q c) else v.mem q c := by
  induction pages generalizing delivered fresh v with
  | nil => rfl
  | cons p rest ih =>
    rw [List.flatMap_cons, Panel.replay_append, ih _ _ _ fun r hr => hpages r (List.mem_cons_of_mem p hr),
      Panel.replay_pageEvents_mem delivered fresh m v (hpages p List.mem_cons_self) q hc]
    by_cases hrest : q ∈ rest
    · rw [if_pos hrest, if_pos (List.mem_cons_of_mem p hrest)]
    · by_cases hqp : q = p
      · simp [hqp]
      · rw [if_neg hrest, if_neg hqp, if_neg (by simp [hqp, hrest])]

end panel

/-- A refresh whose every answer is `Ok` sends the eight pages and falls through (42_controller.md R108). -/
theorem refreshAll_ok {s : State} (h : AnswersOk s (4 * NPAGES)) :
    refreshAll s = ((s.sent ((List.range NPAGES).flatMap (pageEvents s.fb)) (4 * NPAGES)).lcAfterRefresh
      .synchronized, none) := by
  have hlen := frameTransactions_length s.fb
  rw [refreshAll_eq_run, runTransactions_ok (by rw [hlen]; exact h), hlen, frameTransactions, pagesTransactions_map]
  rfl

theorem exec_refresh_tx {s t : State} (h : AnswersOk s (4 * NPAGES)) (hexec : exec .refresh s = .next t) :
    t.tx = s.tx ++ (List.range NPAGES).flatMap (pageEvents s.fb) := by
  obtain rfl : finish 0#8 (refreshAll s) = t := Host.Outcome.next.inj hexec
  rw [refreshAll_ok h, finish, returnOk, State.pushResponse_tx, State.lcAfterRefresh_tx, State.sent_tx]

/-- Settles O32: the trace of the refresh is its eight pages, and each replaces its page of the controller. -/
theorem refreshBringsFrameToPanel : Obligations.RefreshBringsFrameToPanel := by
  intro s t delivered fresh v hok hexec p c hp hc
  rw [exec_refresh_tx hok hexec, List.drop_left,
    Panel.replay_pages_mem delivered fresh s.fb v (fun _ hq => List.mem_range.mp hq) p hc,
    if_pos (List.mem_range.mpr hp)]
  rfl

end Sys2Proof.Machine
end

/-! # Proofs of the statements about encoding (30_encoding.md) -/

section

namespace Sys2Proof.Machine

/-! ### Headers by their fields (R57) -/

/-- The fields of a header as `(lowest bit, width)`, bits 23:4 among them (30_encoding.md R57). -/
def headerFields : List (Nat × Nat) :=
  [(60, 4), (52, 8), (44, 8), (36, 8), (28, 8), (24, 4), (4, 20), (3, 1), (2, 1), (1, 1), (0, 1)]

/-- Headers that agree in every field are one header. -/
theorem header_ext {a b : Header} (h : ∀ f ∈ headerFields, a.extractLsb' f.1 f.2 = b.extractLsb' f.1 f.2) : a = b := by
  have hcover : ∀ i < 64, ∃ f ∈ headerFields, f.1 ≤ i ∧ i - f.1 < f.2 := by decide
  ext i hi
  obtain ⟨f, hf, hle, hlt⟩ := hcover i hi
  have hbit := congrArg (BitVec.getLsbD · (i - f.1)) (h f hf)
  simpa [hlt, Nat.add_sub_of_le hle, BitVec.getLsbD_eq_getElem hi] using hbit

/-- The test of R64, field by field. -/
theorem and_eq_iff_fields (h m p : Header) : h &&& m = p ↔
    ∀ f ∈ headerFields, h.extractLsb' f.1 f.2 &&& m.extractLsb' f.1 f.2 = p.extractLsb' f.1 f.2 := by
  simp only [← BitVec.extractLsb'_and]
  exact ⟨fun heq f _ => heq ▸ rfl, header_ext⟩

/-- A field under a mask of ones is the field. -/
theorem and_ones {w n : Nat} (hn : BitVec.ofNat w n = BitVec.allOnes w) (b : BitVec w) :
    b &&& BitVec.ofNat w n = b := by
  rw [hn, BitVec.and_allOnes]

theorem flagOfBit_eq_false {b : BitVec 1} : flagOfBit b = false ↔ b = 0#1 := by revert b; decide

theorem ofBit_eq_black {b : BitVec 1} : Color.ofBit b = .black ↔ b = 0#1 := by revert b; decide

/-- A packed header has zero in bits 23:4. -/
@[simp] theorem reserved_packHeader (op : BitVec 4) (x y ch len : Byte) (fsel : BitVec 4) (commit pad : Bool)
    (bg fg : Color) : (packHeader op x y ch len fsel commit pad bg fg).extractLsb' 4 20 = 0#20 := by
  simp (disch := omega) only [packHeader, extract_append_lo, extract_append_hi, extract_all, Nat.reduceSub]

/-- A packed header is told by its fields. -/
theorem packHeader_eq_iff {op : BitVec 4} {x y ch len : Byte} {fsel : BitVec 4} {commit pad : Bool} {bg fg : Color}
    {h : Header} : packHeader op x y ch len fsel commit pad bg fg = h ↔
      hdrOp h = op ∧ hdrX h = x ∧ hdrY h = y ∧ hdrCh h = ch ∧ hdrLen h = len ∧ hdrFsel h = fsel ∧
      h.extractLsb' 4 20 = 0#20 ∧ hdrCommit h = commit ∧ hdrPad h = pad ∧ hdrBg h = bg ∧ hdrFg h = fg := by
  constructor
  · rintro rfl
    simp
  · rintro ⟨rfl, rfl, rfl, rfl, rfl, rfl, hz, rfl, rfl, rfl, rfl⟩
    exact packHeader_fields h hz

/-! ### The opcode map: one row for each operation code -/

/-- A header a row selects has the operation code of the row: every mask fixes it. -/
theorem hdrOp_of_selects {h : Header} {r : OpcodeRow} (hr : r ∈ requestRows) (hsel : h &&& r.mask = r.pattern) :
    hdrOp h = hdrOp r.pattern := by
  have hmask : ∀ q ∈ requestRows, hdrOp q.mask = BitVec.allOnes 4 := by decide
  calc hdrOp h = hdrOp h &&& hdrOp r.mask := by rw [hmask r hr, BitVec.and_allOnes]
    _ = hdrOp (h &&& r.mask) := BitVec.extractLsb'_and.symm
    _ = hdrOp r.pattern := congrArg hdrOp hsel

/-- No header is selected by two rows. -/
theorem row_unique {h : Header} {r q : OpcodeRow} (hr : r ∈ requestRows) (hq : q ∈ requestRows)
    (hrsel : h &&& r.mask = r.pattern) (hqsel : h &&& q.mask = q.pattern) : r = q := by
  have hinj : ∀ r ∈ requestRows, ∀ q ∈ requestRows, hdrOp r.pattern = hdrOp q.pattern → r = q := by decide
  exact hinj r hr q hq ((hdrOp_of_selects hr hrsel).symm.trans (hdrOp_of_selects hq hqsel))

theorem selects_eq_true_iff {r : OpcodeRow} {h : Header} : r.selects h = true ↔ h &&& r.mask = r.pattern :=
  beq_iff_eq

/-- A header selects the operation of the one row whose mask selects it. -/
theorem selectOp_eq_some_iff {h : Header} {op : RequestOp} :
    selectOp h = some op ↔ ∃ r ∈ requestRows, h &&& r.mask = r.pattern ∧ r.op = op := by
  simp only [selectOp, Option.map_eq_some_iff]
  have hfound : ∀ {q : OpcodeRow}, requestRows.find? (fun r => r.selects h) = some q →
      q ∈ requestRows ∧ h &&& q.mask = q.pattern := fun hfind =>
    ⟨List.mem_of_find?_eq_some hfind,
      selects_eq_true_iff.mp (List.find?_some (p := fun r : OpcodeRow => r.selects h) hfind)⟩
  constructor
  · rintro ⟨r, hfind, rfl⟩
    obtain ⟨hr, hsel⟩ := hfound hfind
    exact ⟨r, hr, hsel, rfl⟩
  · rintro ⟨r, hr, hsel, rfl⟩
    have hsome : (requestRows.find? fun r => r.selects h).isSome :=
      List.find?_isSome.mpr ⟨r, hr, selects_eq_true_iff.mpr hsel⟩
    obtain ⟨q, hfind⟩ := Option.isSome_iff_exists.mp hsome
    obtain ⟨hq, hqsel⟩ := hfound hfind
    obtain rfl := row_unique hr hq hsel hqsel
    exact ⟨r, hfind, rfl⟩

theorem selectOp_eq_none_iff {h : Header} : selectOp h = none ↔ ∀ r ∈ requestRows, h &&& r.mask ≠ r.pattern := by
  simp only [selectOp, Option.map_eq_none_iff, List.find?_eq_none, selects_eq_true_iff, ne_eq]

/-! ### Payloads -/

theorem payloadLength_le (h : Header) : payloadLength h ≤ 255 := by
  unfold payloadLength
  split
  · exact Nat.le_of_lt_succ (hdrLen h).isLt
  · exact Nat.zero_le 255

/-- The payload of a text operation is as long as its `len` field says (30_encoding.md R63). -/
theorem hdrLen_eq_lenField {h : Header} {text : List Byte} (hlen : text.length = payloadLength h)
    (hop : hdrOp h = 0x5#4 ∨ hdrOp h = 0x6#4) : hdrLen h = lenField text := by
  rw [payloadLength, if_pos hop] at hlen
  rw [lenField, hlen, BitVec.ofNat_toNat, BitVec.setWidth_eq]

theorem toNat_lenField {text : List Byte} (hfits : text.length ≤ 255) : (lenField text).toNat = text.length :=
  Nat.mod_eq_of_lt (by omega)

/-- A request that fits its `len` field has the payload its header announces. -/
theorem payloadLength_encodeHeader {i : Instr} {h : Header} (henc : encodeHeader i = some h)
    (hfits : i.payloadFits = true) : (encodePayload i).length = payloadLength h := by
  cases i with
  | wrstr | write =>
    obtain rfl := Option.some.inj henc
    simp [payloadLength, encodePayload, toNat_lenField (of_decide_eq_true hfits)]
  | setpx | fill | setcur | wrchar | init | refresh | getw | geth =>
    obtain rfl := Option.some.inj henc
    simp [payloadLength, encodePayload]
  | cbSleep | cbRamFollow | cbInverseOff | cbContrast | cbMemoryMode | cbPageSelect | cbColLow0 | cbColHigh0 =>
    contradiction

/-! ### Headers and the instructions they stand for -/

/-- The requests are the instructions with a header. -/
theorem isSome_encodeHeader (i : Instr) : (encodeHeader i).isSome = i.isRequest := by cases i <;> rfl

theorem isRequest_assemble (op : RequestOp) (h : Header) (text : List Byte) :
    (assemble op h text).isRequest = true := by
  cases op <;> rfl

theorem payloadFits_assemble (op : RequestOp) (h : Header) {text : List Byte} (hfits : text.length ≤ 255) :
    (assemble op h text).payloadFits = true := by
  cases op with
  | wrstr | write => exact decide_eq_true hfits
  | setpx | fill | setcur | wrchar | init | refresh | getw | geth => rfl

/-- An assembled instruction carries the payload, or has none. -/
theorem encodePayload_assemble_or (op : RequestOp) (h : Header) (text : List Byte) :
    encodePayload (assemble op h text) = text ∨ encodePayload (assemble op h text) = [] := by
  cases op with
  | wrstr | write => exact .inl rfl
  | setpx | fill | setcur | wrchar | init | refresh | getw | geth => exact .inr rfl

/-- A row selects a header exactly when the header is that of the instruction the row assembles from it: the mask leaves
free just the fields the operation uses (R64). Field by field, both sides fix the operation code and ask for zero in the
unused fields; the encoding asks for `len` besides, which the length of the payload gives. -/
theorem selects_iff_encodeHeader {h : Header} {r : OpcodeRow} {text : List Byte} (hr : r ∈ requestRows)
    (hlen : text.length = payloadLength h) :
    h &&& r.mask = r.pattern ↔ encodeHeader (assemble r.op h text) = some h := by
  have hwrstr : hdrOp h = 0x5#4 → hdrLen h = lenField text := fun hop => hdrLen_eq_lenField hlen (.inl hop)
  have hwrite : hdrOp h = 0x6#4 → hdrLen h = lenField text := fun hop => hdrLen_eq_lenField hlen (.inr hop)
  unfold hdrOp hdrLen at hwrstr hwrite
  rw [and_eq_iff_fields]
  simp only [requestRows, List.mem_cons, List.not_mem_nil, or_false] at hr
  rcases hr with rfl | rfl | rfl | rfl | rfl | rfl | rfl | rfl | rfl | rfl
  all_goals
    simp +contextual [headerFields, and_ones, assemble, encodeHeader, packHeader_eq_iff, hdrOp, hdrX, hdrY, hdrCh,
      hdrLen, hdrFsel, hdrCommit, hdrPad, hdrBg, hdrFg, flagOfBit_eq_false, ofBit_eq_black, hwrstr, hwrite]

theorem exists_row (op : RequestOp) : ∃ r ∈ requestRows, r.op = op := by cases op <;> decide

/-- The header of a request, read by the request's own row, gives the request back. -/
theorem exists_row_of_encodeHeader {i : Instr} {h : Header} (henc : encodeHeader i = some h) :
    ∃ r ∈ requestRows, assemble r.op h (encodePayload i) = i := by
  suffices hop : ∃ op, assemble op h (encodePayload i) = i by
    obtain ⟨op, hop⟩ := hop
    obtain ⟨r, hr, rfl⟩ := exists_row op
    exact ⟨r, hr, hop⟩
  cases i with
  | setpx => cases henc; exact ⟨.setpx, by simp [assemble]⟩
  | fill => cases henc; exact ⟨.fill, by simp [assemble]⟩
  | setcur => cases henc; exact ⟨.setcur, by simp [assemble]⟩
  | wrchar => cases henc; exact ⟨.wrchar, by simp [assemble]⟩
  | wrstr => cases henc; exact ⟨.wrstr, by simp [assemble, encodePayload]⟩
  | write => cases henc; exact ⟨.write, by simp [assemble, encodePayload]⟩
  | init => exact ⟨.init, rfl⟩
  | refresh => exact ⟨.refresh, rfl⟩
  | getw => exact ⟨.getw, rfl⟩
  | geth => exact ⟨.geth, rfl⟩
  | cbSleep | cbRamFollow | cbInverseOff | cbContrast | cbMemoryMode | cbPageSelect | cbColLow0 | cbColHigh0 =>
    contradiction

/-- The payload is carried whole: a payload the instruction does not carry is empty. -/
theorem encodePayload_assemble {h : Header} {r : OpcodeRow} {text : List Byte} (hr : r ∈ requestRows)
    (hlen : text.length = payloadLength h) (hsel : h &&& r.mask = r.pattern) :
    encodePayload (assemble r.op h text) = text := by
  obtain hcarried | hnone := encodePayload_assemble_or r.op h text
  · exact hcarried
  · have henc := (selects_iff_encodeHeader hr hlen).mp hsel
    have hfits := payloadFits_assemble r.op h (hlen.trans_le (payloadLength_le h))
    have hzero := payloadLength_encodeHeader henc hfits
    rw [← hlen, hnone] at hzero
    rw [hnone, List.eq_nil_of_length_eq_zero hzero.symm]

/-! ### Decoding and encoding -/

theorem encode_of_encodeHeader {i : Instr} {h : Header} (henc : encodeHeader i = some h) :
    encode i = bytesOfHeader h ++ encodePayload i := by
  simp only [encode, henc]

/-- A whole request whose header a row selects is the instruction the row assembles. -/
theorem decodeRequest_selected {h : Header} {after : List Byte} {r : OpcodeRow} (hlen : payloadLength h ≤ after.length)
    (hr : r ∈ requestRows) (hsel : h &&& r.mask = r.pattern) :
    decodeRequest (bytesOfHeader h ++ after) =
      .instr (assemble r.op h (after.take (payloadLength h))) (after.drop (payloadLength h)) := by
  have hop : selectOp h = some r.op := selectOp_eq_some_iff.mpr ⟨r, hr, hsel, rfl⟩
  have hdec := decodeWithHeader_selected (after.drop (payloadLength h)) hop (List.length_take_of_le hlen)
  rwa [List.take_append_drop, ← decodeRequest_bytesOfHeader_append] at hdec

/-- A whole request whose header no row selects is illegal (R65). -/
theorem decodeRequest_unselected {h : Header} {after : List Byte} (hlen : payloadLength h ≤ after.length)
    (hsel : ∀ r ∈ requestRows, h &&& r.mask ≠ r.pattern) :
    decodeRequest (bytesOfHeader h ++ after) = .illegal (rejectReason h) (after.drop (payloadLength h)) := by
  have hdec := decodeWithHeader_unselected (after.drop (payloadLength h)) (selectOp_eq_none_iff.mpr hsel)
    (List.length_take_of_le hlen)
  rwa [List.take_append_drop, ← decodeRequest_bytesOfHeader_append] at hdec

/-- A header that decodes to a request is of a row, and the payload and the bytes left over follow it. -/
theorem decodeWithHeader_eq_instr {h : Header} {after rest : List Byte} {i : Instr}
    (hdec : decodeWithHeader h after = .instr i rest) :
    ∃ payload, ∃ r ∈ requestRows, after = payload ++ rest ∧ payload.length = payloadLength h ∧
      h &&& r.mask = r.pattern ∧ assemble r.op h payload = i := by
  unfold decodeWithHeader at hdec
  split at hdec
  · contradiction
  · next hlen =>
    split at hdec
    · next op hop =>
      obtain ⟨r, hr, hsel, rfl⟩ := selectOp_eq_some_iff.mp hop
      obtain ⟨hi, rfl⟩ := Decoded.instr.inj hdec
      exact ⟨after.take (payloadLength h), r, hr, (List.take_append_drop ..).symm,
        List.length_take_of_le (Nat.le_of_not_lt hlen), hsel, hi⟩
    · contradiction

/-- Bytes that decode to a request begin with a header, from which the request is decoded. -/
theorem decodeRequest_eq_instr {bytes rest : List Byte} {i : Instr} (hdec : decodeRequest bytes = .instr i rest) :
    ∃ h after, bytes = bytesOfHeader h ++ after ∧ decodeWithHeader h after = .instr i rest := by
  unfold decodeRequest at hdec
  split at hdec
  · next b7 b6 b5 b4 b3 b2 b1 b0 after =>
    exact ⟨headerOfBytes b7 b6 b5 b4 b3 b2 b1 b0, after, by rw [bytesOfHeader_headerOfBytes]; rfl, hdec⟩
  · contradiction

/-- Settles O36: the row of the request selects its header, and assembles the request from it. -/
theorem requestDecodeEncode : Obligations.RequestDecodeEncode := by
  intro i rest hreq hfits
  obtain ⟨h, henc⟩ := Option.isSome_iff_exists.mp ((isSome_encodeHeader i).trans hreq)
  obtain ⟨r, hr, hi⟩ := exists_row_of_encodeHeader henc
  have hlen := payloadLength_encodeHeader henc hfits
  have hsel : h &&& r.mask = r.pattern := (selects_iff_encodeHeader hr hlen).mpr (hi.symm ▸ henc)
  have hop : selectOp h = some r.op := selectOp_eq_some_iff.mpr ⟨r, hr, hsel, rfl⟩
  rw [encode_of_encodeHeader henc, List.append_assoc, decodeRequest_bytesOfHeader_append,
    decodeWithHeader_selected rest hop hlen, hi]

/-- Settles O37: a header a row selects is the header of the request, since the mask fixes every field the request does
not use. -/
theorem requestEncodeDecode : Obligations.RequestEncodeDecode := by
  intro bytes rest i hdec
  obtain ⟨h, after, rfl, hafter⟩ := decodeRequest_eq_instr hdec
  obtain ⟨payload, r, hr, rfl, hlen, hsel, rfl⟩ := decodeWithHeader_eq_instr hafter
  have henc := (selects_iff_encodeHeader hr hlen).mp hsel
  refine ⟨?_, isRequest_assemble r.op h payload, payloadFits_assemble r.op h (hlen.trans_le (payloadLength_le h))⟩
  rw [encode_of_encodeHeader henc, encodePayload_assemble hr hlen hsel, List.append_assoc]

/-- Settles O38: the operation codes of the rows differ, so the first row found is the only one. -/
theorem headerSelectsByMask : Obligations.HeaderSelectsByMask :=
  ⟨fun _ _ _ hr hq => row_unique hr hq, fun _ _ hlen =>
    ⟨fun _ hr hsel => decodeRequest_selected hlen hr hsel, decodeRequest_unselected hlen⟩⟩

/-- Settles O40: each word decoded. -/
theorem specWordsDecode : Obligations.SpecWordsDecode := by
  unfold Obligations.SpecWordsDecode
  decide

/-! ### Controller command bytes (R67) -/

/-- A command byte that is an encoding decodes to what it encodes. -/
theorem decodeCommand_encodeCommand {b : Byte} {i : Instr} (h : encodeCommand i = some b) :
    decodeCommand b = some i := by
  cases i with
  | cbPageSelect n =>
    obtain rfl := Option.some.inj h
    revert n
    decide
  | cbSleep | cbRamFollow | cbInverseOff | cbContrast | cbMemoryMode | cbColLow0 | cbColHigh0 =>
    obtain rfl := Option.some.inj h
    rfl
  | setpx | fill | setcur | wrchar | wrstr | write | init | refresh | getw | geth => contradiction

/-- A byte the page-select mask selects is the fixed upper bits and the page (42_controller.md R106). -/
theorem pageSelect_fields {b : Byte} (h : b &&& 0xF8#8 = 0xB0#8) : 0b10110#5 ++ b.extractLsb' 0 3 = b := by
  have hhi : b.extractLsb' 3 5 = 0b10110#5 := by
    calc b.extractLsb' 3 5 = b.extractLsb' 3 5 &&& (0xF8#8).extractLsb' 3 5 := (BitVec.and_allOnes).symm
      _ = (b &&& 0xF8#8).extractLsb' 3 5 := BitVec.extractLsb'_and.symm
      _ = 0b10110#5 := by rw [h]; rfl
  rw [← hhi, extract_join b 0 3 5 3 rfl, extract_all]

/-- A command byte that decodes is the encoding of what it decodes to. -/
theorem encodeCommand_decodeCommand {b : Byte} {i : Instr} (h : decodeCommand b = some i) :
    encodeCommand i = some b := by
  unfold decodeCommand at h
  split_ifs at h with hsleep hram hinverse hcontrast hmode hpage hlow hhigh <;> obtain rfl := Option.some.inj h
  · exact congrArg some hsleep.symm
  · exact congrArg some hram.symm
  · exact congrArg some hinverse.symm
  · exact congrArg some hcontrast.symm
  · exact congrArg some hmode.symm
  · exact congrArg some (pageSelect_fields hpage)
  · exact congrArg some hlow.symm
  · exact congrArg some hhigh.symm

/-- Settles O39: the two directions. -/
theorem commandByteDecodeEncode : Obligations.CommandByteDecodeEncode :=
  fun _ _ => ⟨encodeCommand_decodeCommand, decodeCommand_encodeCommand⟩

/-! ### Response words (R58) and illegal requests (R65) -/

theorem encodeResult_ok (v : Byte) : encodeResult (.ok v) = v.setWidth 32 := by
  rw [BitVec.setWidth_eq_append (by decide : 8 ≤ 32)]
  rfl

/-- Settles O41: the word is its five fields joined. -/
theorem responseFieldsOfOutcome : Obligations.ResponseFieldsOfOutcome :=
  ⟨encodeResult_ok, fun _ _ => ⟨packResponse_status .., packResponse_phase .., packResponse_idx ..,
    packResponse_stage .., packResponse_val ..⟩⟩

theorem answerIllegal_eq (s : State) :
    answerIllegal s = { s with responses := s.responses ++ [0xF0000000#32] } := rfl

/-- An illegal request at the port of an idle block is answered, its bytes taken. -/
theorem step_illegal {s : State} {why : Reject} {rest : List Byte} (hphase : s.phase = .idle) (hstaged : s.staged = [])
    (hport : decodeRequest s.port = .illegal why rest) : step s = .next (answerIllegal (s.setPort rest)) := by
  simp only [step, fetch_idle hphase hstaged, fetchRequest, hport]

/-- Settles O44: the decoder rejects the request with its payload taken, and the step answers it. -/
theorem illegalHeaderAnswered : Obligations.IllegalHeaderAnswered := by
  intro s h after hphase hstaged hport hlen hsel
  exact step_illegal hphase hstaged (hport ▸ decodeRequest_unselected hlen hsel)

/-- Settles O45: the font is looked up before anything is done. -/
theorem missingFontAnswered : Obligations.MissingFontAnswered := by
  intro s ch text fsel x y fg bg pad commit hfsel
  have hillegal : ∀ body, withFont fsel s body = { s with responses := s.responses ++ [0xF0000000#32] } := fun body =>
    (withFont_none (List.getElem?_eq_none hfsel) body).trans (answerIllegal_eq s)
  exact ⟨congrArg _ (hillegal _), congrArg _ (hillegal _), congrArg _ (hillegal _)⟩

/-! ### Glyph rows (R60) -/

/-- The colour of a column depends on the bit of the column alone. -/
theorem glyphColor_congr {v w : GlyphWord} {c : Nat} (h : v.getLsbD (15 - c) = w.getLsbD (15 - c)) (fg bg : Color) :
    glyphColor v c fg bg = glyphColor w c fg bg := by
  rw [glyphColor, h, glyphColor]

/-- Fonts that agree on the mask give the same pixels of a row. -/
theorem rowDots_sameMask {f g : Font} (hfg : Font.SameMask f g) (i x0 y : Nat) (fg bg : Color) :
    rowDots f (glyphRead f i) x0 y fg bg = rowDots g (glyphRead g i) x0 y fg bg := by
  obtain ⟨hwidth, -, hmask⟩ := hfg
  unfold rowDots
  rw [← hwidth]
  refine List.map_congr_left fun c hc => ?_
  rw [Dot.mk.injEq]
  exact ⟨rfl, rfl, glyphColor_congr (hmask i c (List.mem_range.mp hc)) fg bg⟩

theorem glyphRows_sameMask {f g : Font} (hfg : Font.SameMask f g) (ch : Byte) (fg bg : Color) (rows : List Nat)
    (s : State) : glyphRows f ch fg bg rows s = glyphRows g ch fg bg rows s := by
  have ⟨_, hheight, _⟩ := hfg
  have hindex : ∀ r, glyphIndex f ch r = glyphIndex g ch r := fun r => by simp only [glyphIndex, hheight]
  induction rows generalizing s with
  | nil => rfl
  | cons r rest ih => simp only [glyphRows, hindex, rowDots_sameMask hfg, ih]

/-- Settles O17: the layout check, the padding column and the advance read the size of the font alone, and the rows its
bits on the mask. -/
theorem glyphIgnoresBitsBelowMask : Obligations.GlyphIgnoresBitsBelowMask := by
  intro f g fsel ch fg bg pad s hfg
  have ⟨hwidth, hheight, _⟩ := hfg
  have hlayout : ∀ x y, layoutFull f x y = layoutFull g x y := fun x y => by simp only [layoutFull, hheight]
  have hpad : ∀ t, padColumn f bg t = padColumn g bg t := fun t => by simp only [padColumn, hheight]
  have hadvance : ∀ t, advanceCursor f pad t = advanceCursor g pad t := fun t => by simp only [advanceCursor, hwidth]
  simp only [writeGlyph, hlayout, hpad, hadvance, hheight, glyphRows_sameMask hfg]

theorem fontAtReset_row {i : Nat} (hi : i < 665) : fontAtReset.rows.getD i 0#16 = glyphWordAtReset i := by
  rw [fontAtReset, List.getD_eq_getElem?_getD, List.getElem?_map, List.getElem?_range hi]
  rfl

/-- Settles O21: the row is entry 231 of the table, whose five mask bits are 00100. -/
theorem resetFontRowZeroOfA : Obligations.ResetFontRowZeroOfA := by
  refine ⟨fontAtReset, rfl, rfl, rfl, fun fg bg => ?_⟩
  have hrow : fontAtReset.rows.getD (((0x41#8 : Byte).toNat - 0x20) * fontAtReset.height + 0) 0#16 =
      0b00100#5 ++ (Config.freeGlyphWord rowZeroOfA).extractLsb' 0 11 := fontAtReset_row (i := rowZeroOfA) (by decide)
  simp only [cellColor, hrow, BitVec.getLsbD_append]
  rfl

/-! ### How a request ends -/

/-- The ends of a sub-operation that started in `s`: no response is sent yet, the phase is changed only by hanging, and
the error raised is never `TransportFailure` (60_exceptions.md R122). -/
inductive Ends (s : State) : State × Option Halt → Prop where
  | through {t : State} (hresponses : t.responses = s.responses) (hphase : t.phase = s.phase) : Ends s (t, none)
  | raised {t : State} {kind : ErrKind} (info : ErrInfo) (hresponses : t.responses = s.responses)
    (hphase : t.phase = s.phase) (hkind : kind ≠ .transportFailure) : Ends s (t, some (.raised kind info))
  | hung {t : State} (hresponses : t.responses = s.responses) (hphase : t.phase = .awaitingTransport) :
    Ends s (t, some .hung)

/-- The ends of a sub-operation depend on the responses and the phase it started from alone. -/
theorem Ends.of_same {s t : State} {a : State × Option Halt} (h : Ends t a) (hresponses : t.responses = s.responses)
    (hphase : t.phase = s.phase) : Ends s a := by
  cases h with
  | through hr hp => exact .through (hr.trans hresponses) (hp.trans hphase)
  | raised info hr hp hk => exact .raised info (hr.trans hresponses) (hp.trans hphase) hk
  | hung hr hp => exact .hung (hr.trans hresponses) hp

theorem Ends.andThen {s : State} {a : State × Option Halt} {b : State → State × Option Halt} (ha : Ends s a)
    (hb : ∀ t, Ends t (b t)) : Ends s (andThen a b) := by
  cases ha with
  | through hr hp => exact (hb _).of_same hr hp
  | raised info hr hp hk => exact .raised info hr hp hk
  | hung hr hp => exact .hung hr hp

theorem Ends.inPart {s : State} {a : State × Option Halt} (p : BitVec 4) (ha : Ends s a) : Ends s (inPart p a) := by
  cases ha with
  | through hr hp => exact .through hr hp
  | raised info hr hp hk => exact .raised _ hr hp hk
  | hung hr hp => exact .hung hr hp

theorem Ends.lcAfterInit {s : State} {a : State × Option Halt} (ha : Ends s a) : Ends s (lcAfterInit a) := by
  cases ha with
  | through hr hp => exact .through hr hp
  | raised info hr hp hk => exact .raised info hr hp hk
  | hung hr hp => exact .hung hr hp

theorem Ends.lcAtRefreshEnd {s : State} {a : State × Option Halt} (ha : Ends s a) : Ends s (lcAtRefreshEnd a) := by
  cases ha with
  | through hr hp =>
    exact .through ((State.lcAfterRefresh_responses ..).trans hr) ((State.lcAfterRefresh_phase ..).trans hp)
  | raised info hr hp hk =>
    exact .raised info ((State.lcAfterRefresh_responses ..).trans hr) ((State.lcAfterRefresh_phase ..).trans hp) hk
  | hung hr hp => exact .hung hr hp

theorem ends_paint (dots : List Dot) (s : State) : Ends s (paint dots s) := by
  induction dots generalizing s with
  | nil => exact .through rfl rfl
  | cons d rest ih =>
    unfold paint
    split
    · exact (ih _).of_same (State.dirty_responses _) (State.dirty_phase _)
    · exact .raised noInfo rfl rfl (by decide)

/-- A sub-operation that only draws: it sends nothing, and falls through or raises an error of a glyph. -/
theorem Ends.of_glyph {s : State} {a : State × Option Halt} (hresponses : a.1.responses = s.responses)
    (hphase : a.1.phase = s.phase) (hend : a.2 = none ∨ ∃ k info, GlyphKind k ∧ a.2 = some (.raised k info)) :
    Ends s a := by
  obtain ⟨t, o⟩ := a
  obtain rfl | ⟨k, info, hk, rfl⟩ := hend
  · exact .through hresponses hphase
  · refine .raised info hresponses hphase ?_
    rcases hk with rfl | rfl | rfl <;> decide

theorem ends_writeGlyph (fsel : BitVec 4) (f : Font) (ch : Byte) (fg bg : Color) (pad : Bool) (s : State) :
    Ends s (writeGlyph fsel f ch fg bg pad s) := by
  obtain ⟨m, l, v, hstate⟩ := writeGlyph_state fsel f ch fg bg pad s
  refine .of_glyph (by rw [hstate]; rfl) (by rw [hstate]; rfl) ?_
  exact (writeGlyph_kind fsel f ch fg bg pad s).imp id fun ⟨k, hk, h⟩ => ⟨k, noInfo, hk, h⟩

theorem ends_writeText (fsel : BitVec 4) (f : Font) (text : List Byte) (fg bg : Color) (pad : Bool) (s : State) :
    Ends s (writeText fsel f text fg bg pad s) := by
  obtain ⟨m, l, v, hstate⟩ := writeChars_state fsel f fg bg pad 0 text s
  refine .of_glyph (by rw [writeText, hstate]; rfl) (by rw [writeText, hstate]; rfl) ?_
  exact (writeChars_kind fsel f fg bg pad 0 text (s.latch fsel pad)).imp id fun ⟨k, j, hk, _, _, h⟩ => ⟨k, _, hk, h⟩

theorem ends_placeCursor (x y : Byte) (s : State) : Ends s (placeCursor x y s) := by
  unfold placeCursor
  split
  · exact .through rfl rfl
  · exact .raised noInfo rfl rfl (by decide)

theorem ends_transaction (stage : Nat) (e : Reply → TxEvent) (s : State) :
    Ends s (orFailStage stage (transact e s)) := by
  cases h : s.answerAt 0 with
  | none =>
    rw [transact_none h]
    exact .hung rfl rfl
  | some a =>
    rw [transact_some h]
    cases a with
    | ok => exact .through rfl rfl
    | fail => exact .raised (stageInfo stage) rfl rfl (by decide)

theorem ends_runTransactions (l : List (Nat × (Reply → TxEvent))) (s : State) : Ends s (runTransactions l s) := by
  induction l generalizing s with
  | nil => exact .through rfl rfl
  | cons p rest ih => exact (ends_transaction p.1 p.2 s).andThen ih

theorem ends_refreshAll (s : State) : Ends s (refreshAll s) := by
  rw [refreshAll_eq_run]
  exact (ends_runTransactions _ s).lcAtRefreshEnd

theorem fillFrame_responses (c : Color) (s : State) : (fillFrame c s).responses = s.responses := by simp [fillFrame]

theorem fillFrame_phase (c : Color) (s : State) : (fillFrame c s).phase = s.phase := by simp [fillFrame]

theorem ends_writeParts (text : List Byte) (fsel : BitVec 4) (f : Font) (x y : Byte) (bg fg : Color)
    (pad commit : Bool) (s : State) : Ends s (writeParts text fsel f x y bg fg pad commit s) := by
  refine Ends.andThen ?_ fun t => ((ends_writeText fsel f text fg bg pad t).inPart 2#4).andThen fun u => ?_
  · exact ((ends_placeCursor x y _).inPart 1#4).of_same (fillFrame_responses bg (s.latch fsel pad))
      (fillFrame_phase bg (s.latch fsel pad))
  · split
    · exact (ends_refreshAll u).inPart 3#4
    · exact .through rfl rfl

/-- A request that began in `s` is answered by one word of an allowed status and the block is idle, or it is stuck in
the transport and gives none (R58, 60_exceptions.md R121, 70_reset_and_hazards.md R157). -/
def AnsweredOnce (s t : State) : Prop :=
  (t.phase = .idle ∧ ∃ r : ResponseWord, Answered s t r ∧
      r.extractLsb' 28 4 ∈ [0#4, 1#4, 2#4, 3#4, 5#4, 0xF#4]) ∨
    (t.phase = .awaitingTransport ∧ t.responses = s.responses)

theorem statusCode_mem {k : ErrKind} (hk : k ≠ .transportFailure) :
    statusCode k ∈ [0#4, 1#4, 2#4, 3#4, 5#4, 0xF#4] := by
  cases k with
  | transportFailure => contradiction
  | outOfBounds | layoutFull | glyphLookupFailed | protocolStageFailure | illegalRequest => decide

section
variable {s : State} (hidle : s.phase = .idle)
include hidle

theorem AnsweredOnce.of_returnOk {t : State} (hr : t.responses = s.responses) (hp : t.phase = s.phase) (v : Byte) :
    AnsweredOnce s (returnOk v t) :=
  .inl ⟨hp.trans hidle, _, congrArg (· ++ _) hr, by rw [encodeResult, packResponse_status]; decide⟩

theorem AnsweredOnce.of_raiseErr {t : State} {kind : ErrKind} (hr : t.responses = s.responses) (hp : t.phase = s.phase)
    (hk : kind ≠ .transportFailure) (info : ErrInfo) : AnsweredOnce s (raiseErr kind info t) :=
  .inl ⟨hp.trans hidle, _, congrArg (· ++ _) hr, by rw [encodeResult, packResponse_status]; exact statusCode_mem hk⟩

theorem Ends.finish {a : State × Option Halt} (ha : Ends s a) (v : Byte) : AnsweredOnce s (finish v a) := by
  cases ha with
  | through hr hp => exact .of_returnOk hidle hr hp v
  | raised info hr hp hk => exact .of_raiseErr hidle hr hp hk info
  | hung hr hp => exact .inr ⟨hp, hr⟩

theorem AnsweredOnce.withFont (fsel : BitVec 4) {body : Font → State} (h : ∀ f, AnsweredOnce s (body f)) :
    AnsweredOnce s (withFont fsel s body) := by
  unfold Machine.withFont
  split
  · exact h _
  · exact .of_raiseErr hidle rfl rfl (by decide) noInfo

/-- Every request ends as R58 says. -/
theorem exec_answeredOnce {i : Instr} (hreq : i.isRequest = true) : ∃ t, exec i s = .next t ∧ AnsweredOnce s t := by
  cases i with
  | setpx x y c => exact ⟨_, rfl, (ends_paint _ s).finish hidle _⟩
  | fill c => exact ⟨_, rfl, .of_returnOk hidle (fillFrame_responses c s) (fillFrame_phase c s) _⟩
  | setcur x y => exact ⟨_, rfl, (ends_placeCursor x y s).finish hidle _⟩
  | wrchar ch fsel fg bg pad =>
    exact ⟨_, rfl, .withFont hidle fsel fun f => (ends_writeGlyph fsel f ch fg bg pad s).finish hidle _⟩
  | wrstr text fsel fg bg pad =>
    exact ⟨_, rfl, .withFont hidle fsel fun f => (ends_writeText fsel f text fg bg pad s).finish hidle _⟩
  | write text fsel x y bg fg pad commit =>
    exact ⟨_, rfl, .withFont hidle fsel fun f => (ends_writeParts text fsel f x y bg fg pad commit s).finish hidle _⟩
  | init =>
    refine ⟨_, rfl, Ends.finish hidle (Ends.lcAfterInit ?_) _⟩
    rw [sendScript_eq_run]
    exact (ends_runTransactions _ _).of_same rfl rfl
  | refresh => exact ⟨_, rfl, (ends_refreshAll s).finish hidle _⟩
  | getw | geth => exact ⟨_, rfl, .of_returnOk hidle rfl rfl _⟩
  | cbSleep | cbRamFollow | cbInverseOff | cbContrast | cbMemoryMode | cbPageSelect | cbColLow0 | cbColHigh0 =>
    contradiction

end

/-- Settles O49: every sub-operation has one of the three ends, and the end of the request makes of it a response or
none. -/
theorem requestGivesOneResponse : Obligations.RequestGivesOneResponse := by
  intro s t i hidle hreq hexec
  obtain ⟨t', hexec', ht⟩ := exec_answeredOnce hidle hreq
  obtain rfl : t' = t := Host.Outcome.next.inj (hexec'.symm.trans hexec)
  exact ht

end Sys2Proof.Machine
end

/-! # Proofs of the statements about the framebuffer (40_framebuffer.md) -/

section

namespace Sys2Proof.Machine

/-! ### One unit after another: the loop of R81 -/

theorem Memory.read_of_forall_ne {m : Memory} {u : Nat} (h : ∀ c ∈ m, c.1 ≠ u) :
    Memory.read m u = Memory.unlisted := by
  induction m with
  | nil => rfl
  | cons c rest ih =>
    obtain ⟨hc, hrest⟩ := List.forall_mem_cons.mp h
    rw [Memory.read_cons, if_neg hc, ih hrest]

/-- Beyond its bounds a memory holds nothing (20_memory.md R35). -/
theorem Memory.read_out_of_bounds {m : Memory} (hm : Memory.inBounds m) {u : Nat} (hu : NUNITS ≤ u) :
    Memory.read m u = Memory.unlisted :=
  Memory.read_of_forall_ne fun c hc => ((hm c hc).trans_le hu).ne

theorem Memory.wf_foldl_write {m : Memory} (hm : Memory.wf m) (v : Byte) (us : List Nat) :
    Memory.wf (us.foldl (fun m u => Memory.write m u v) m) := by
  induction us generalizing m with
  | nil => exact hm
  | cons u us ih => exact ih (Memory.wf_write hm u v)

/-- Writing one value at each unit of a list decides those units alone, in whatever order they come (R49). -/
theorem Memory.read_foldl_write {m : Memory} (hm : Memory.wf m) (v : Byte) (us : List Nat) (a : Nat) :
    Memory.read (us.foldl (fun m u => Memory.write m u v) m) a = if a ∈ us then v else Memory.read m a := by
  induction us generalizing m with
  | nil => simp
  | cons u us ih =>
    rw [List.foldl_cons, ih (Memory.wf_write hm u v), Memory.read_write hm]
    by_cases ha : a ∈ us <;> simp [ha]

/-- Settles O10: canonical memories that read alike are equal, and loop and fill read alike, inside the bounds as the
value written and beyond them as nothing. -/
theorem fillEqualsUnitLoop : Obligations.FillEqualsUnitLoop := by
  intro m c hwf hbounds
  refine Memory.ext_read (Memory.wf_foldl_write hwf _ _) (Memory.wf_fill _) fun u => ?_
  rw [Memory.read_foldl_write hwf]
  by_cases hu : u < NUNITS
  · rw [if_pos (List.mem_range.mpr hu), Memory.read_fill _ hu]
  · rw [if_neg (mt List.mem_range.mp hu), Memory.read_out_of_bounds hbounds (not_lt.mp hu),
      Memory.read_out_of_bounds (Memory.inBounds_fill _) (not_lt.mp hu)]

/-! ### One pixel (R78, R80) -/

/-- Only the pixel at `x`, `y` has become `c`: every other pixel of the frame and every other unit is as before. -/
def OnePixelSet (x y : Nat) (c : Color) (m m' : Memory) : Prop :=
  pixel m' x y = c ∧
  (∀ x' y', x' < W → y' < H → ¬(x' = x ∧ y' = y) → pixel m' x' y' = pixel m x' y') ∧
  ∀ u, u ≠ (decodeXY x y).unit → Memory.read m' u = Memory.read m u

/-- A pixel write in range succeeds and sets one pixel. -/
theorem pixelWrite_in {x y : Nat} (hx : x < W) (hy : y < H) (c : Color) {m : Memory} (hm : Memory.wf m) :
    ∃ m', pixelWrite x y c m = some m' ∧ OnePixelSet x y c m m' := by
  have hwrite := (pixelWrite_eq_some (c := c) (m := m)).mpr ⟨⟨hx, hy⟩, rfl⟩
  refine ⟨_, hwrite, ?_, fun x' y' hx' _ hne => ?_, fun u hu => pixelWrite_read hwrite hu⟩
  · rw [pixelWrite_pixel hm hwrite hx, if_pos ⟨rfl, rfl⟩]
  · rw [pixelWrite_pixel hm hwrite hx', if_neg hne]

/-- Settles O6: a write in range decides one bit of one unit, and the range check comes before it. -/
theorem pixelWriteChangesOneBit : Obligations.PixelWriteChangesOneBit := by
  intro m x y c hwf hbounds
  refine ⟨fun hx hy => ?_, fun hout => pixelWrite_eq_none.mpr (by omega)⟩
  obtain ⟨m', hwrite, hset⟩ := pixelWrite_in hx hy c hwf
  exact ⟨m', hwrite, pixelWrite_wf hwf hwrite, pixelWrite_inBounds hbounds hwrite, hset⟩

/-- Settles O8: a list whose first pixel is out of range paints nothing, and the error is the response. -/
theorem setpxOutOfBoundsChangesNothing : Obligations.SetpxOutOfBoundsChangesNothing := by
  intro s x y c hout
  have hdot : ¬Dot.ok ⟨x.toNat, y.toNat, c⟩ := fun ⟨hx, hy⟩ => hout.elim hx.not_ge hy.not_ge
  exact congrArg (fun a => Host.Outcome.next (finish 0#8 a)) (paint_cons_out [] s hdot)

/-! ### Operations that store a framebuffer and answer `Ok(0)` -/

/-- The block after a framebuffer was stored, `LC` marked and `Ok(0)` answered. -/
def storedFb (s : State) (m : Memory) : State := returnOk 0#8 (s.setFb m).dirty

@[simp] theorem storedFb_fb (s : State) (m : Memory) : (storedFb s m).fb = m := State.dirty_fb _

/-- Storing a framebuffer answers `Ok(0)` and changes nothing but the framebuffer and `LC` (R18). -/
theorem storedFb_frame (s : State) (m : Memory) :
    Answered s (storedFb s m) 0x00000000#32 ∧ (storedFb s m).lc = dirtied s.lc ∧ SameCursor s (storedFb s m) ∧
      SameLatches s (storedFb s m) ∧ SameTransport s (storedFb s m) ∧ SameInputs s (storedFb s m) := by
  have hword : encodeResult (.ok 0#8) = 0x00000000#32 := rfl
  simp [storedFb, returnOk, Answered, SameCursor, SameLatches, SameTransport, SameInputs, hword]

theorem exec_setpx {x y : Byte} {c : Color} {s : State} {m : Memory}
    (h : pixelWrite x.toNat y.toNat c s.fb = some m) : exec (.setpx x y c) s = .next (storedFb s m) := by
  simp only [exec, execSetpx, paint, h, finish, storedFb]

theorem exec_fill (c : Color) (s : State) : exec (.fill c) s = .next (storedFb s (Memory.fill (fillByte c))) := rfl

/-- Settles O7: `SETPX` in range is one pixel write whose framebuffer is stored. -/
theorem setpxPaintsOnePixel : Obligations.SetpxPaintsOnePixel := by
  intro s x y c hwf hx hy
  obtain ⟨m, hwrite, hpixel, hother, hunits⟩ := pixelWrite_in hx hy c hwf
  obtain ⟨hanswered, hframe⟩ := storedFb_frame s m
  rw [← storedFb_fb s m] at hpixel hother hunits
  exact ⟨storedFb s m, exec_setpx hwrite, hanswered, hpixel, hother, hunits, hframe⟩

theorem fillByte_eq_ite (c : Color) : fillByte c = if c = .white then 0xFF#8 else 0x00#8 := by cases c <;> rfl

/-- Settles O9: `FILL` stores a framebuffer whose every unit holds eight pixels of the colour. -/
theorem fillSetsEveryPixel : Obligations.FillSetsEveryPixel := by
  intro s c
  obtain ⟨hanswered, hframe⟩ := storedFb_frame s (Memory.fill (fillByte c))
  refine ⟨_, exec_fill c s, hanswered, fun u hu => ?_, fun x y hx hy => ?_, hframe⟩
  · rw [storedFb_fb, Memory.read_fill _ hu, fillByte_eq_ite]
  · rw [storedFb_fb, pixel_fill c hx hy]

end Sys2Proof.Machine
end

/-! # Proofs of the statements about the rasterizer (41_rasterizer.md) -/

section

namespace Sys2Proof.Machine

/-! ### How a drawing request is answered (R58) -/

/-- Settles O11: the range check decides between the move and the error. -/
theorem setcurMovesCursorInRange : Obligations.SetcurMovesCursorInRange := fun s _ _ =>
  ⟨fun hx hy => congrArg (fun a => Host.Outcome.next (finish 0#8 a)) (placeCursor_in s hx hy),
    fun hout => congrArg (fun a => Host.Outcome.next (finish 0#8 a)) (placeCursor_out s hout)⟩

theorem exec_wrchar {s : State} {fsel : BitVec 4} {f : Font} (hf : fontOf s.cfg fsel = some f) (ch : Byte)
    (fg bg : Color) (pad : Bool) :
    exec (.wrchar ch fsel fg bg pad) s = .next (finish ch (writeGlyph fsel f ch fg bg pad s)) :=
  congrArg _ (withFont_some hf _)

/-- A glyph write that falls through returns its character (R95). -/
theorem exec_wrchar_through {s t : State} {fsel : BitVec 4} {f : Font} {ch : Byte} {fg bg : Color} {pad : Bool}
    (hf : fontOf s.cfg fsel = some f) (h : writeGlyph fsel f ch fg bg pad s = (t, none)) :
    exec (.wrchar ch fsel fg bg pad) s = .next (t.pushResponse (ch.setWidth 32)) := by
  rw [exec_wrchar hf, h, ← encodeResult_ok]
  rfl

theorem exec_wrchar_raised {s t : State} {fsel : BitVec 4} {f : Font} {ch : Byte} {fg bg : Color} {pad : Bool}
    {kind : ErrKind} (hf : fontOf s.cfg fsel = some f)
    (h : writeGlyph fsel f ch fg bg pad s = (t, some (.raised kind noInfo))) :
    exec (.wrchar ch fsel fg bg pad) s = .next (t.pushResponse (encodeResult (.err kind noInfo))) := by
  rw [exec_wrchar hf, h]
  rfl

theorem exec_wrstr {s : State} {fsel : BitVec 4} {f : Font} (hf : fontOf s.cfg fsel = some f) (text : List Byte)
    (fg bg : Color) (pad : Bool) :
    exec (.wrstr text fsel fg bg pad) s = .next (finish 0#8 (writeText fsel f text fg bg pad s)) :=
  congrArg _ (withFont_some hf _)

/-- The status of a response word tells how the operation ended (60_exceptions.md R121). -/
theorem answered_finish {s : State} {a : State × Option Halt} {v : Byte} {r : ResponseWord}
    (hresponses : a.1.responses = s.responses) (hanswered : Answered s (finish v a) r) :
    (a.2 = none ∧ r.extractLsb' 28 4 = 0#4) ∨
      ∃ kind info, a.2 = some (.raised kind info) ∧ r.extractLsb' 28 4 = statusCode kind := by
  have hword : ∀ w : ResponseWord, a.1.responses ++ [w] = s.responses ++ [r] → r = w := fun w hw => by
    simpa [hresponses, eq_comm] using hw
  obtain ⟨t, _ | (⟨kind, info⟩ | _)⟩ := a
  · exact .inl ⟨rfl, by rw [hword _ hanswered]; exact packResponse_status ..⟩
  · exact .inr ⟨kind, info, rfl, by rw [hword _ hanswered]; exact packResponse_status ..⟩
  · exact absurd (hresponses.symm.trans hanswered) (by simp)

theorem writeGlyph_responses (fsel : BitVec 4) (f : Font) (ch : Byte) (fg bg : Color) (pad : Bool) (s : State) :
    (writeGlyph fsel f ch fg bg pad s).1.responses = s.responses := by
  obtain ⟨m, l, v, hstate⟩ := writeGlyph_state fsel f ch fg bg pad s
  rw [hstate]
  rfl

/-- Settles O12: the layout check is the only source of `LayoutFull`. -/
theorem layoutFullExactlyOnQuirk : Obligations.LayoutFullExactlyOnQuirk := by
  intro s ch fsel f fg bg pad hf
  rw [exec_wrchar hf, ← layoutFull_iff]
  rcases writeGlyph_end fsel f ch fg bg pad s with ⟨hfull, hglyph⟩ | ⟨hfits, hend⟩
  · rw [hglyph]
    exact ⟨fun _ => rfl, fun _ => hfull⟩
  · refine ⟨fun hfull => absurd hfull (by simp [hfits]), fun ⟨t, ht, hanswered⟩ => ?_⟩
    obtain rfl := Host.Outcome.next.inj ht
    have hstatus := answered_finish (writeGlyph_responses ..) hanswered
    rcases hend with hend | hend | hend <;> simp [hend, statusCode] at hstatus

/-! ### Painting a list of dots -/

/-- No pixel is painted in two colours. -/
def OneColorEach (dots : List Dot) : Prop :=
  ∀ d ∈ dots, ∀ e ∈ dots, d.x = e.x → d.y = e.y → d.color = e.color

theorem dirty_setCurX (s : State) (v : Byte) : (s.setCurX v).dirty = s.dirty.setCurX v := by
  unfold State.dirty
  rw [State.setCurX_lc]
  split <;> rfl

theorem paint_setCurX (dots : List Dot) (v : Byte) (s : State) :
    paint dots (s.setCurX v) = ((paint dots s).1.setCurX v, (paint dots s).2) := by
  induction dots generalizing s with
  | nil => rfl
  | cons d rest ih =>
    simp only [paint, State.setCurX_fb]
    split
    · next m _ => exact (congrArg (paint rest) (dirty_setCurX (s.setFb m) v)).trans (ih _)
    · rfl

/-- Painting up to the first dot that is out of the frame (R98). -/
theorem paint_stops {a b : List Dot} {d : Dot} (s : State) (ha : ∀ e ∈ a, e.ok) (hd : ¬d.ok) :
    paint (a ++ d :: b) s = ((paint a s).1, some (.raised .outOfBounds noInfo)) := by
  rw [paint_append a _ s ha, paint_cons_out b _ hd]

/-- Every dot in the frame shows its colour after the painting. -/
theorem paint_pixel_dot {dots : List Dot} {s : State} (hs : Memory.wf s.fb) (hok : ∀ d ∈ dots, d.ok)
    (hcolor : OneColorEach dots) {d : Dot} (hd : d ∈ dots) :
    pixel (paint dots s).1.fb d.x d.y = d.color :=
  paint_pixel_mem hs hok ⟨d, hd, rfl, rfl⟩ fun e he hx hy => (hcolor d hd e he hx hy).symm

theorem paint_lc_of_ok {dots : List Dot} (s : State) (hok : ∀ d ∈ dots, d.ok) (hne : dots ≠ []) :
    (paint dots s).1.lc = dirtied s.lc := by
  cases dots with
  | nil => contradiction
  | cons d rest => exact paint_lc_cons rest s (hok d List.mem_cons_self)

/-! ### A painting that leaves the cursor in a given column

Every way a glyph write or a string goes on after its layout check ends in such a state. -/

/-- The dots painted and `CUR_X` put in column `x`. -/
def drawTo (dots : List Dot) (x : Nat) (s : State) : State := (paint dots s).1.setCurX (BitVec.ofNat 8 x)

theorem drawTo_curY (dots : List Dot) (x : Nat) (s : State) : (drawTo dots x s).curY = s.curY :=
  paint_curY dots s

theorem drawTo_curX {x : Nat} (hx : x < 256) (dots : List Dot) (s : State) : (drawTo dots x s).curX.toNat = x :=
  Nat.mod_eq_of_lt hx

theorem setCurX_toNat (s : State) : s.setCurX (BitVec.ofNat 8 s.curX.toNat) = s := by
  rw [BitVec.ofNat_toNat, BitVec.setWidth_eq]
  rfl

/-- A painting that leaves the cursor where it is. -/
theorem drawTo_same (dots : List Dot) (s : State) : drawTo dots s.curX.toNat s = (paint dots s).1 := by
  have hself := setCurX_toNat (paint dots s).1
  rwa [paint_curX] at hself

theorem paint_drawTo {a : List Dot} (b : List Dot) (x : Nat) (s : State) (ha : ∀ d ∈ a, d.ok) :
    paint b (drawTo a x s) = (drawTo (a ++ b) x s, (paint (a ++ b) s).2) := by
  rw [drawTo, paint_setCurX, ← paint_append a b s ha]
  rfl

theorem drawTo_drawTo {a : List Dot} (b : List Dot) (x x' : Nat) (s : State) (ha : ∀ d ∈ a, d.ok) :
    drawTo b x' (drawTo a x s) = drawTo (a ++ b) x' s := by
  rw [drawTo, paint_drawTo b x s ha]
  rfl

/-- What an answered request that drew leaves alone: all but the latches it has set, the framebuffer, `LC` and
`CUR_X`. -/
structure DrewOnly (s : State) (fsel : BitVec 4) (pad : Bool) (r : ResponseWord) (t : State) : Prop where
  answered : Answered s t r
  curY : t.curY = s.curY
  fontSel : t.fontSel = fsel
  padLatch : t.padLatch = pad
  transport : SameTransport s t
  inputs : SameInputs s t

theorem drewOnly_drawTo (s : State) (fsel : BitVec 4) (pad : Bool) (dots : List Dot) (x : Nat) (r : ResponseWord) :
    DrewOnly s fsel pad r ((drawTo dots x (s.latch fsel pad)).pushResponse r) := by
  obtain ⟨m, l, hstate⟩ := paint_state dots (s.latch fsel pad)
  rw [drawTo, hstate]
  exact ⟨rfl, rfl, rfl, rfl, ⟨rfl, rfl, rfl, rfl⟩, rfl, rfl, rfl⟩

section
variable {s : State} (hs : Memory.wf s.fb) {dots : List Dot} (fsel : BitVec 4) (pad : Bool) (x : Nat) (r : ResponseWord)

theorem curX_drawTo (hx : x < 256) :
    ((drawTo dots x (s.latch fsel pad)).pushResponse r).curX.toNat = x := Nat.mod_eq_of_lt hx

theorem lc_drawTo (hok : ∀ d ∈ dots, d.ok) (hne : dots ≠ []) :
    ((drawTo dots x (s.latch fsel pad)).pushResponse r).lc = dirtied s.lc :=
  paint_lc_of_ok (s.latch fsel pad) hok hne

include hs

theorem pixel_drawTo (hok : ∀ d ∈ dots, d.ok) (hcolor : OneColorEach dots) {d : Dot} (hd : d ∈ dots) :
    pixel ((drawTo dots x (s.latch fsel pad)).pushResponse r).fb d.x d.y = d.color :=
  paint_pixel_dot (s := s.latch fsel pad) hs hok hcolor hd

/-- Only what holds a dot may differ after the painting. -/
theorem onlyDraws_drawTo {drawn : Nat → Nat → Prop} (hdots : ∀ d ∈ dots, drawn d.x d.y) :
    OnlyDraws drawn s ((drawTo dots x (s.latch fsel pad)).pushResponse r) := by
  refine ⟨fun x' y' hx' _ hnot => ?_, fun u hu => ?_⟩
  · refine paint_pixel_other (s := s.latch fsel pad) hs hx' fun d hd hxy => hnot ?_
    rw [hxy.1, hxy.2]
    exact hdots d hd
  · exact paint_read (s := s.latch fsel pad) fun d hd _ hud => hu d.x d.y (hdots d hd) hud.symm

end

/-! ### The dots of a glyph write (R91, R93) -/

/-- The dots of the padding column, where there is one. -/
def padDots (f : Font) (bg : Color) (pad : Bool) (x y : Nat) : List Dot :=
  if pad then columnDots f.height x y bg else []

/-- The dots of a glyph before row `r`, column `c`, in row-major order. -/
def glyphDotsBefore (f : Font) (ch : Byte) (fg bg : Color) (r c x0 y0 : Nat) : List Dot :=
  glyphDots f ch fg bg (List.range r) x0 y0 ++
    (List.range c).map fun c' => ⟨x0 + c', y0 + r, cellColor f ch r c' fg bg⟩

/-- The dots of a glyph write at `x`, `y` up to row `r`, column `c` of its glyph: the padding column, then the glyph. -/
def cellDotsBefore (f : Font) (ch : Byte) (fg bg : Color) (pad : Bool) (r c x y : Nat) : List Dot :=
  padDots f bg pad x y ++ glyphDotsBefore f ch fg bg r c (x + pad.toNat) y

/-- All the dots of a glyph write at `x`, `y`. -/
def cellDots (f : Font) (ch : Byte) (fg bg : Color) (pad : Bool) (x y : Nat) : List Dot :=
  cellDotsBefore f ch fg bg pad f.height 0 x y

theorem mem_padDots {f : Font} {bg : Color} {pad : Bool} {x y : Nat} {d : Dot} :
    d ∈ padDots f bg pad x y ↔ pad = true ∧ ∃ n < f.height, d = ⟨x, y + n, bg⟩ := by
  cases pad <;> simp [padDots, mem_columnDots]

theorem mem_glyphDotsBefore {f : Font} {ch : Byte} {fg bg : Color} {r c x0 y0 : Nat} (hc : c ≤ f.width) {d : Dot} :
    d ∈ glyphDotsBefore f ch fg bg r c x0 y0 ↔
      ∃ r' c', c' < f.width ∧ (r' < r ∨ (r' = r ∧ c' < c)) ∧ d = ⟨x0 + c', y0 + r', cellColor f ch r' c' fg bg⟩ := by
  simp only [glyphDotsBefore, List.mem_append, mem_glyphDots, List.mem_range, List.mem_map]
  constructor
  · rintro (⟨r', hr', c', hc', rfl⟩ | ⟨c', hc', rfl⟩)
    · exact ⟨r', c', hc', .inl hr', rfl⟩
    · exact ⟨r, c', hc'.trans_le hc, .inr ⟨rfl, hc'⟩, rfl⟩
  · rintro ⟨r', c', hc', hr' | ⟨rfl, hcc⟩, rfl⟩
    · exact .inl ⟨r', hr', c', hc', rfl⟩
    · exact .inr ⟨c', hcc, rfl⟩

theorem mem_cellDotsBefore {f : Font} {ch : Byte} {fg bg : Color} {pad : Bool} {r c x y : Nat} (hc : c ≤ f.width)
    {d : Dot} : d ∈ cellDotsBefore f ch fg bg pad r c x y ↔
      (pad = true ∧ ∃ n < f.height, d = ⟨x, y + n, bg⟩) ∨
      ∃ r' c', c' < f.width ∧ (r' < r ∨ (r' = r ∧ c' < c)) ∧
        d = ⟨x + pad.toNat + c', y + r', cellColor f ch r' c' fg bg⟩ := by
  rw [cellDotsBefore, List.mem_append, mem_padDots, mem_glyphDotsBefore hc]

theorem oneColorEach_columnDots (height x y : Nat) (bg : Color) : OneColorEach (columnDots height x y bg) := by
  intro d hd e he _ _
  obtain ⟨n, -, rfl⟩ := mem_columnDots.mp hd
  obtain ⟨m, -, rfl⟩ := mem_columnDots.mp he
  rfl

theorem columnDots_ok {height x y : Nat} (bg : Color) (hx : x < W) (hy : y + height ≤ H) :
    ∀ d ∈ columnDots height x y bg, d.ok := by
  intro d hd
  obtain ⟨n, hn, rfl⟩ := mem_columnDots.mp hd
  exact ⟨hx, show y + n < H by omega⟩

theorem padDots_ok {f : Font} {pad : Bool} {x y : Nat} (bg : Color) (hx : x < W)
    (hpad : pad = true → y + f.height ≤ H) : ∀ d ∈ padDots f bg pad x y, d.ok := by
  cases pad with
  | false => exact List.forall_mem_nil _
  | true => exact columnDots_ok bg hx (hpad rfl)

theorem columnDots_ne_nil {height : Nat} (h : 0 < height) (x y : Nat) (bg : Color) : columnDots height x y bg ≠ [] :=
  List.ne_nil_of_mem (mem_columnDots.mpr ⟨0, h, rfl⟩)

/-- The padding column and the columns of the glyph are apart, and each dot of the glyph has a place of its own. -/
theorem oneColorEach_cellDotsBefore (f : Font) (ch : Byte) (fg bg : Color) (pad : Bool) {r c : Nat} (x y : Nat)
    (hc : c ≤ f.width) : OneColorEach (cellDotsBefore f ch fg bg pad r c x y) := by
  intro d hd e he hx hy
  rw [mem_cellDotsBefore hc] at hd he
  have hapart : pad = true → ∀ c', x ≠ x + pad.toNat + c' := by
    rintro rfl c'
    rw [Bool.toNat_true]
    omega
  obtain ⟨hpad, n, -, rfl⟩ | ⟨r₁, c₁, -, -, rfl⟩ := hd
  · obtain ⟨-, m, -, rfl⟩ | ⟨r₂, c₂, -, -, rfl⟩ := he
    · rfl
    · exact absurd hx (hapart hpad c₂)
  · obtain ⟨hpad, m, -, rfl⟩ | ⟨r₂, c₂, -, -, rfl⟩ := he
    · exact absurd hx.symm (hapart hpad c₁)
    · obtain rfl : c₁ = c₂ := Nat.add_left_cancel hx
      obtain rfl : r₁ = r₂ := Nat.add_left_cancel hy
      rfl

/-- A glyph write draws in the box of its padding column and its glyph. -/
theorem inBox_of_mem_cellDots {f : Font} {ch : Byte} {fg bg : Color} {pad : Bool} {x y : Nat} {d : Dot}
    (hd : d ∈ cellDots f ch fg bg pad x y) : InBox d.x d.y x y (f.width + pad.toNat) f.height := by
  have hwidth := f.width_ok
  obtain ⟨rfl, n, hn, rfl⟩ | ⟨r, c, hc, hr | ⟨-, hc0⟩, rfl⟩ := (mem_cellDotsBefore (Nat.zero_le _)).mp hd
  · simp only [InBox, Bool.toNat_true]
    omega
  · simp only [InBox]
    omega
  · contradiction

/-- The dots before the first one out of the frame lie in it: that one is at the right edge in row 0, or it begins the
first row below the bottom edge (R98). -/
theorem cellDotsBefore_ok {f : Font} {pad : Bool} {r c x y : Nat} (ch : Byte) (fg bg : Color) (hc : c ≤ f.width)
    (hx : x < W) (hy : y < H) (hpad : pad = true → y + f.height ≤ H)
    (hedge : (r = 0 ∧ x + pad.toNat + c = W) ∨ (x + pad.toNat + f.width ≤ W ∧ y + r = H ∧ c = 0)) :
    ∀ d ∈ cellDotsBefore f ch fg bg pad r c x y, d.ok := by
  intro d hd
  obtain ⟨hp, n, hn, rfl⟩ | ⟨r', c', hc', hr', rfl⟩ := (mem_cellDotsBefore hc).mp hd
  · have hfits := hpad hp
    exact ⟨hx, show y + n < H by omega⟩
  · simp only [Dot.ok]
    omega

theorem cellDots_ok {f : Font} {pad : Bool} {x y : Nat} (ch : Byte) (fg bg : Color) (hrow : y + f.height ≤ H)
    (hright : x + pad.toNat + f.width ≤ W) : ∀ d ∈ cellDots f ch fg bg pad x y, d.ok := by
  intro d hd
  have hbox := inBox_of_mem_cellDots hd
  simp only [InBox] at hbox
  simp only [Dot.ok]
  omega

theorem cellDots_ne_nil (f : Font) (ch : Byte) (fg bg : Color) (pad : Bool) (x y : Nat) :
    cellDots f ch fg bg pad x y ≠ [] :=
  List.ne_nil_of_mem ((mem_cellDotsBefore (Nat.zero_le _)).mpr (.inr ⟨0, 0, f.width_ok.1, .inl f.height_ok.1, rfl⟩))

theorem range_eq_append_cons {k n : Nat} (h : k < n) : ∃ rest, List.range n = List.range k ++ k :: rest := by
  obtain ⟨d, rfl⟩ := Nat.exists_eq_add_of_lt h
  rw [Nat.add_assoc, List.range_add, List.range_succ_eq_map, List.map_cons]
  exact ⟨_, rfl⟩

/-- The order of R91, top to bottom: a dot of the padding column, those above it, and the rest. -/
theorem columnDots_split {k height : Nat} (x y : Nat) (bg : Color) (h : k < height) :
    ∃ rest, columnDots height x y bg = columnDots k x y bg ++ ⟨x, y + k, bg⟩ :: rest := by
  obtain ⟨rest, hrest⟩ := range_eq_append_cons h
  rw [columnDots, hrest, List.map_append, List.map_cons]
  exact ⟨_, rfl⟩

/-- The row-major order of R93: a dot of the glyph, those before it, and the rest. -/
theorem cellDots_split {f : Font} {r c : Nat} (ch : Byte) (fg bg : Color) (pad : Bool) (x y : Nat) (hr : r < f.height)
    (hc : c < f.width) : ∃ rest, cellDots f ch fg bg pad x y = cellDotsBefore f ch fg bg pad r c x y ++
      ⟨x + pad.toNat + c, y + r, cellColor f ch r c fg bg⟩ :: rest := by
  obtain ⟨rows, hrows⟩ := range_eq_append_cons hr
  obtain ⟨columns, hcolumns⟩ := range_eq_append_cons hc
  simp only [cellDots, cellDotsBefore, glyphDotsBefore, glyphDots, hrows, List.flatMap_append, List.flatMap_cons,
    rowDots, hcolumns, List.map_append, List.map_cons, List.range_zero, List.map_nil, List.append_nil,
    List.append_assoc, List.cons_append]
  exact ⟨_, rfl⟩

/-! ### The ways a glyph write goes on after its layout check (R91 to R94, R98) -/

section
variable {s : State} {fsel : BitVec 4} {f : Font} {ch : Byte} (fg bg : Color) {pad : Bool}
  (hcolumn : s.curX.toNat + f.height < W) (hrow : s.curY.toNat + f.height < W)
include hcolumn hrow

theorem layoutFull_eq_false : layoutFull f s.curX s.curY = false := by
  rw [← Bool.not_eq_true, layoutFull_iff]
  omega

/-- The padding step, where the column fits or there is none, and then the glyph. -/
theorem writeGlyph_of_layout (hpad : pad = true → s.curY.toNat + f.height ≤ H) :
    writeGlyph fsel f ch fg bg pad s =
      andThen (glyphRows f ch fg bg (List.range f.height)
          (drawTo (padDots f bg pad s.curX.toNat s.curY.toNat) (s.curX.toNat + pad.toNat) (s.latch fsel pad)))
        fun t => (advanceCursor f pad t, none) := by
  have hstep : (if pad then padColumn f bg (s.latch fsel pad) else (s.latch fsel pad, none)) =
      (drawTo (padDots f bg pad s.curX.toNat s.curY.toNat) (s.curX.toNat + pad.toNat) (s.latch fsel pad), none) := by
    cases pad with
    | false => exact congrArg (·, none) (drawTo_same [] (s.latch fsel false)).symm
    | true => exact padColumn_fits (s := s.latch fsel true) (show s.curX.toNat < W by omega) (hpad rfl)
  rw [writeGlyph, layoutFull_eq_false hcolumn hrow, hstep]
  rfl

/-- No row of another character is found (R92). -/
theorem writeGlyph_unprintable (hpad : pad = true → s.curY.toNat + f.height ≤ H) (hch : ¬Printable ch) :
    writeGlyph fsel f ch fg bg pad s =
      (drawTo (padDots f bg pad s.curX.toNat s.curY.toNat) (s.curX.toNat + pad.toNat) (s.latch fsel pad),
        some (.raised .glyphLookupFailed noInfo)) := by
  rw [writeGlyph_of_layout fg bg hcolumn hrow hpad, glyphRows_unprintable fg bg _ hch]
  rfl

/-- A printable glyph is one painting of its cell, then the advance. -/
theorem writeGlyph_printable (hpad : pad = true → s.curY.toNat + f.height ≤ H) (hch : Printable ch) :
    writeGlyph fsel f ch fg bg pad s =
      andThen (drawTo (cellDots f ch fg bg pad s.curX.toNat s.curY.toNat) (s.curX.toNat + pad.toNat) (s.latch fsel pad),
          (paint (cellDots f ch fg bg pad s.curX.toNat s.curY.toNat) (s.latch fsel pad)).2)
        fun t => (advanceCursor f pad t, none) := by
  have hp := Bool.toNat_le pad
  have hx : s.curX.toNat + pad.toNat < 256 := by
    simp only [W] at hcolumn
    omega
  rw [writeGlyph_of_layout fg bg hcolumn hrow hpad,
    glyphRows_eq_paint fg bg _ hch fun r hr => List.mem_range.mp hr, drawTo_curX hx, drawTo_curY,
    paint_drawTo _ _ _ (padDots_ok bg (show s.curX.toNat < W by omega) hpad), cellDots, cellDotsBefore,
    glyphDotsBefore, List.range_zero, List.map_nil, List.append_nil]
  rfl

/-- A printable glyph whose dot at row `r`, column `c` is the first out of the frame ends there (R98). -/
theorem writeGlyph_overrun (hpad : pad = true → s.curY.toNat + f.height ≤ H) (hch : Printable ch) {r c : Nat}
    (hr : r < f.height) (hc : c < f.width)
    (hbefore : ∀ d ∈ cellDotsBefore f ch fg bg pad r c s.curX.toNat s.curY.toNat, d.ok)
    (hout : W ≤ s.curX.toNat + pad.toNat + c ∨ H ≤ s.curY.toNat + r) :
    writeGlyph fsel f ch fg bg pad s =
      (drawTo (cellDotsBefore f ch fg bg pad r c s.curX.toNat s.curY.toNat) (s.curX.toNat + pad.toNat)
        (s.latch fsel pad), some (.raised .outOfBounds noInfo)) := by
  obtain ⟨rest, hsplit⟩ := cellDots_split ch fg bg pad s.curX.toNat s.curY.toNat hr hc
  have hdot : ¬Dot.ok ⟨s.curX.toNat + pad.toNat + c, s.curY.toNat + r, cellColor f ch r c fg bg⟩ := fun ⟨hx, hy⟩ =>
    hout.elim hx.not_ge hy.not_ge
  rw [writeGlyph_printable fg bg hcolumn hrow hpad hch, hsplit, drawTo, paint_stops _ hbefore hdot]
  rfl

/-- A padding column that runs past the bottom edge ends the glyph write (R98). -/
theorem writeGlyph_padOverrun (htop : s.curY.toNat < H) (hbottom : H < s.curY.toNat + f.height) :
    writeGlyph fsel f ch fg bg true s =
      (drawTo (columnDots (H - s.curY.toNat) s.curX.toNat s.curY.toNat bg) s.curX.toNat (s.latch fsel true),
        some (.raised .outOfBounds noInfo)) := by
  obtain ⟨rest, hsplit⟩ := columnDots_split (k := H - s.curY.toNat) (height := f.height) s.curX.toNat s.curY.toNat bg
    (by omega)
  have hdot : ¬Dot.ok ⟨s.curX.toNat, s.curY.toNat + (H - s.curY.toNat), bg⟩ := fun ⟨_, hy⟩ => by
    simp only at hy
    omega
  have hupper := columnDots_ok (height := H - s.curY.toNat) (y := s.curY.toNat) bg (show s.curX.toNat < W by omega)
    (by omega)
  have hpaint : paint (columnDots f.height s.curX.toNat s.curY.toNat bg) (s.latch fsel true) = _ :=
    hsplit ▸ paint_stops (s.latch fsel true) hupper hdot
  have hstep := padColumn_overrun (bg := bg) (s := s.latch fsel true) hbottom htop.le
  simp only [State.latch_curX, State.latch_curY, hpaint] at hstep
  rw [writeGlyph, layoutFull_eq_false hcolumn hrow, if_neg Bool.false_ne_true, if_pos rfl, hstep, andThen_some]
  exact congrArg (·, _) (drawTo_same _ (s.latch fsel true)).symm

end

/-- The step to the right at the end of a glyph write (R94). -/
theorem advanceCursor_drawTo (f : Font) (pad : Bool) (dots : List Dot) {x : Nat} (hx : x < 256) (s : State) :
    advanceCursor f pad (drawTo dots x s) = drawTo dots (x + f.width + pad.toNat) s := by
  rw [advanceCursor, drawTo_curX hx]
  rfl

/-- A printable glyph that passes the layout check and fits is drawn whole, and the cursor advances (R94). -/
theorem writeGlyph_fits {s : State} {f : Font} {ch : Byte} {pad : Bool} (fsel : BitVec 4) (fg bg : Color)
    (hch : Printable ch) (hcolumn : s.curX.toNat + f.height < W) (hrow : s.curY.toNat + f.height ≤ H)
    (hright : s.curX.toNat + pad.toNat + f.width ≤ W) :
    writeGlyph fsel f ch fg bg pad s =
      (drawTo (cellDots f ch fg bg pad s.curX.toNat s.curY.toNat) (s.curX.toNat + charAdvance f pad)
        (s.latch fsel pad), none) := by
  have hx : s.curX.toNat + pad.toNat < 256 := by
    simp only [W] at hright
    omega
  have hadvance : s.curX.toNat + pad.toNat + f.width + pad.toNat = s.curX.toNat + charAdvance f pad := by
    simp only [charAdvance]
    omega
  rw [writeGlyph_printable fg bg hcolumn (by simp only [W, H] at *; omega) (fun _ => hrow) hch,
    (paint_snd _ _).1 (cellDots_ok ch fg bg hrow hright), andThen_none, advanceCursor_drawTo f pad _ hx, hadvance]

/-! ### One character -/

/-- Settles O13: a glyph that fits is one painting of its cell, whose dots all lie in the frame and in its box. -/
theorem wrcharDrawsWholeCell : Obligations.WrcharDrawsWholeCell := by
  intro s ch fsel f fg bg pad hwf hf hch hcolumn hrow hright
  have hok := cellDots_ok ch fg bg hrow hright
  have hcolor := oneColorEach_cellDotsBefore f ch fg bg pad s.curX.toNat s.curY.toNat (r := f.height) (Nat.zero_le _)
  have hadvance : s.curX.toNat + charAdvance f pad < 256 := by
    have hp := Bool.toNat_le pad
    simp only [charAdvance, W] at *
    omega
  obtain ⟨hanswered, hcurY, hfontSel, hpadLatch, htransport, hinputs⟩ := drewOnly_drawTo s fsel pad
    (cellDots f ch fg bg pad s.curX.toNat s.curY.toNat) (s.curX.toNat + charAdvance f pad) (ch.setWidth 32)
  refine ⟨_, exec_wrchar_through hf (writeGlyph_fits fsel fg bg hch hcolumn hrow hright), hanswered,
    fun r c hr hc => ?_, fun hpad n hn => ?_, onlyDraws_drawTo hwf _ _ _ _ fun d hd => inBox_of_mem_cellDots hd,
    curX_drawTo _ _ _ _ hadvance, hcurY, hfontSel, hpadLatch,
    lc_drawTo _ _ _ _ hok (cellDots_ne_nil _ _ _ _ _ _ _), htransport, hinputs⟩
  · exact pixel_drawTo (d := ⟨_, _, _⟩) hwf fsel pad _ _ hok hcolor
      ((mem_cellDotsBefore (Nat.zero_le _)).mpr (.inr ⟨r, c, hc, .inl hr, rfl⟩))
  · exact pixel_drawTo (d := ⟨_, _, _⟩) hwf fsel pad _ _ hok hcolor
      ((mem_cellDotsBefore (Nat.zero_le _)).mpr (.inl ⟨hpad, n, hn, rfl⟩))

/-- Settles O14: the lookup fails in the first row, when at most the padding column has been painted. -/
theorem wrcharLookupFailureKeepsPadding : Obligations.WrcharLookupFailureKeepsPadding := by
  intro s ch fsel f fg bg pad hwf hf hch hcolumn hrow hpadFits
  have hexec := exec_wrchar_raised hf (writeGlyph_unprintable fg bg hcolumn hrow hpadFits hch)
  obtain ⟨hanswered, hcurY, hfontSel, hpadLatch, htransport, hinputs⟩ := drewOnly_drawTo s fsel pad
    (padDots f bg pad s.curX.toNat s.curY.toNat) (s.curX.toNat + pad.toNat)
    (encodeResult (.err .glyphLookupFailed noInfo))
  refine ⟨_, hexec, hanswered, fun hpad => ?_, fun hpad => ?_, hcurY, hfontSel, hpadLatch, htransport, hinputs⟩
  · subst hpad
    have hsame : drawTo (padDots f bg false s.curX.toNat s.curY.toNat) (s.curX.toNat + false.toNat)
        (s.latch fsel false) = s.latch fsel false := drawTo_same [] (s.latch fsel false)
    rw [hsame]
    exact ⟨rfl, rfl, rfl⟩
  · subst hpad
    have hcolumnFits : s.curX.toNat + 1 < 256 := by
      simp only [W] at hcolumn
      omega
    have hok := columnDots_ok bg (show s.curX.toNat < W by omega) (hpadFits rfl)
    refine ⟨fun n hn => ?_, onlyDraws_drawTo hwf _ _ _ _ fun d hd => ?_, curX_drawTo _ _ _ _ hcolumnFits,
      lc_drawTo _ _ _ _ hok (columnDots_ne_nil f.height_ok.1 _ _ _)⟩
    · exact pixel_drawTo (d := ⟨_, _, _⟩) hwf fsel true _ _ hok (oneColorEach_columnDots _ _ _ _)
        (mem_columnDots.mpr ⟨n, hn, rfl⟩)
    · obtain ⟨-, n, hn, rfl⟩ := mem_padDots.mp hd
      simp only [InBox]
      omega

/-- Settles O15: the padding column is painted down to its first dot out of the frame. -/
theorem paddingOverrunKeepsUpperPixels : Obligations.PaddingOverrunKeepsUpperPixels := by
  intro s ch fsel f fg bg hwf hf hcolumn hrow htop hbottom
  have hok := columnDots_ok (height := H - s.curY.toNat) (y := s.curY.toNat) bg (show s.curX.toNat < W by omega)
    (by omega)
  have hexec := exec_wrchar_raised hf (writeGlyph_padOverrun (ch := ch) fg bg hcolumn hrow htop hbottom)
  obtain ⟨hanswered, hcurY, hfontSel, hpadLatch, htransport, hinputs⟩ := drewOnly_drawTo s fsel true
    (columnDots (H - s.curY.toNat) s.curX.toNat s.curY.toNat bg) s.curX.toNat (encodeResult (.err .outOfBounds noInfo))
  have hcurX : (BitVec.ofNat 8 s.curX.toNat : Byte) = s.curX := congrArg State.curX (setCurX_toNat s)
  refine ⟨_, hexec, hanswered, fun y hy hyH => ?_, onlyDraws_drawTo hwf _ _ _ _ fun d hd => ?_, ⟨hcurX, hcurY⟩,
    hfontSel, hpadLatch, lc_drawTo _ _ _ _ hok (columnDots_ne_nil (Nat.sub_pos_of_lt htop) _ _ _), htransport, hinputs⟩
  · exact pixel_drawTo (d := ⟨s.curX.toNat, y, bg⟩) hwf fsel true _ _ hok (oneColorEach_columnDots _ _ _ _)
      (mem_columnDots.mpr ⟨y - s.curY.toNat, by omega, by rw [Nat.add_sub_cancel' hy]⟩)
  · obtain ⟨n, hn, rfl⟩ := mem_columnDots.mp hd
    exact ⟨rfl, Nat.le_add_right .., show s.curY.toNat + n < H by omega⟩

/-- Settles O16: the dots before the first one out of the frame are painted; it is not the first of the glyph, as the
layout check keeps the start of the glyph in the frame. -/
theorem glyphOverrunKeepsDrawnPart : Obligations.GlyphOverrunKeepsDrawnPart := by
  intro s ch fsel f fg bg pad r c hwf hf hch hcolumn hrow htop hpadFits hr hc hedge
  have hp := Bool.toNat_le pad
  have hheight := f.height_ok
  have hok := cellDotsBefore_ok ch fg bg hc.le (show s.curX.toNat < W by omega) htop hpadFits hedge
  have hcolor := oneColorEach_cellDotsBefore f ch fg bg pad s.curX.toNat s.curY.toNat (r := r) hc.le
  have hne : cellDotsBefore f ch fg bg pad r c s.curX.toNat s.curY.toNat ≠ [] :=
    List.ne_nil_of_mem ((mem_cellDotsBefore hc.le).mpr (.inr ⟨0, 0, by omega, by omega, rfl⟩))
  have hx : s.curX.toNat + pad.toNat < 256 := by
    simp only [W] at hcolumn
    omega
  have hexec := exec_wrchar_raised hf
    (writeGlyph_overrun (fsel := fsel) fg bg hcolumn hrow hpadFits hch hr hc hok (by omega))
  obtain ⟨hanswered, hcurY, hfontSel, hpadLatch, htransport, hinputs⟩ := drewOnly_drawTo s fsel pad
    (cellDotsBefore f ch fg bg pad r c s.curX.toNat s.curY.toNat) (s.curX.toNat + pad.toNat)
    (encodeResult (.err .outOfBounds noInfo))
  refine ⟨_, hexec, hanswered, fun r' c' hc' hr' => ?_, fun hpad n hn => ?_,
    onlyDraws_drawTo hwf _ _ _ _ fun d hd => ?_, curX_drawTo _ _ _ _ hx, hcurY, hfontSel, hpadLatch,
    lc_drawTo _ _ _ _ hok hne, htransport, hinputs⟩
  · exact pixel_drawTo (d := ⟨_, _, _⟩) hwf fsel pad _ _ hok hcolor
      ((mem_cellDotsBefore hc.le).mpr (.inr ⟨r', c', hc', hr', rfl⟩))
  · exact pixel_drawTo (d := ⟨_, _, _⟩) hwf fsel pad _ _ hok hcolor
      ((mem_cellDotsBefore hc.le).mpr (.inl ⟨hpad, n, hn, rfl⟩))
  · obtain ⟨rfl, n, hn, rfl⟩ | ⟨r', c', hc', hr', rfl⟩ := (mem_cellDotsBefore hc.le).mp hd
    · right
      simp only [InBox, Bool.toNat_true]
      omega
    · left
      simp only [InBoxBefore]
      omega

/-! ### Strings that fit (R96, R97) -/

/-- The dots of a string at `x`, `y`. -/
def textDots (f : Font) (fg bg : Color) (pad : Bool) (y : Nat) : List Byte → Nat → List Dot
  | [], _ => []
  | ch :: rest, x => cellDots f ch fg bg pad x y ++ textDots f fg bg pad y rest (x + charAdvance f pad)

/-- The k-th character of a string stands `k` advances from its start. -/
theorem mem_textDots {f : Font} {fg bg : Color} {pad : Bool} {text : List Byte} {x y : Nat} {d : Dot} :
    d ∈ textDots f fg bg pad y text x ↔
      ∃ k, ∃ hk : k < text.length, d ∈ cellDots f text[k] fg bg pad (x + k * charAdvance f pad) y := by
  induction text generalizing x with
  | nil => simp [textDots]
  | cons ch rest ih =>
    have hstep : ∀ k, x + charAdvance f pad + k * charAdvance f pad = x + (k + 1) * charAdvance f pad := fun k => by
      ring
    simp only [textDots, List.mem_append, ih, hstep]
    constructor
    · rintro (hd | ⟨k, hk, hd⟩)
      · exact ⟨0, Nat.zero_lt_succ _, by simpa using hd⟩
      · exact ⟨k + 1, Nat.succ_lt_succ hk, hd⟩
    · rintro ⟨_ | k, hk, hd⟩
      · exact .inl (by simpa using hd)
      · exact .inr ⟨k, Nat.lt_of_succ_lt_succ hk, hd⟩

/-- A column lies in the cell of one character at most. -/
theorem eq_of_cells_meet {A w x k k' x' : Nat} (hw : w ≤ A) (h : x + k * A ≤ x' ∧ x' < x + k * A + w)
    (h' : x + k' * A ≤ x' ∧ x' < x + k' * A + w) : k = k' := by
  have hle : ∀ i j, x + i * A ≤ x' → x' < x + j * A + w → i ≤ j := fun i j hi hj => by
    by_contra hlt
    have hmul : (j + 1) * A ≤ i * A := Nat.mul_le_mul_right A (not_le.mp hlt)
    rw [Nat.succ_mul] at hmul
    omega
  exact Nat.le_antisymm (hle k k' h.1 h'.2) (hle k' k h'.1 h.2)

theorem width_le_charAdvance (f : Font) (pad : Bool) : f.width + pad.toNat ≤ charAdvance f pad := by
  simp only [charAdvance]
  omega

theorem oneColorEach_textDots (f : Font) (fg bg : Color) (pad : Bool) (text : List Byte) (x y : Nat) :
    OneColorEach (textDots f fg bg pad y text x) := by
  intro d hd e he hx hy
  obtain ⟨k, hk, hd⟩ := mem_textDots.mp hd
  obtain ⟨k', hk', he⟩ := mem_textDots.mp he
  obtain ⟨hdl, hdr, -⟩ := inBox_of_mem_cellDots hd
  obtain ⟨hel, her, -⟩ := inBox_of_mem_cellDots he
  obtain rfl := eq_of_cells_meet (width_le_charAdvance f pad) ⟨hdl, hdr⟩ ⟨hx ▸ hel, hx ▸ her⟩
  exact oneColorEach_cellDotsBefore f text[k] fg bg pad _ y (Nat.zero_le _) d hd e he hx hy

/-- The first character of a string that fits fits, and so does the rest after it. -/
theorem textFits_succ {f : Font} {pad : Bool} {n x y : Nat} (h : TextFits f pad (n + 1) x y) :
    y + f.height ≤ H ∧ x + f.height < W ∧ x + pad.toNat + f.width ≤ W ∧
      TextFits f pad n (x + charAdvance f pad) y := by
  obtain ⟨hrow, hcolumn, hright⟩ := h.resolve_left (Nat.succ_ne_zero n)
  rw [Nat.add_sub_cancel] at hcolumn hright
  refine ⟨hrow, by omega, by omega, ?_⟩
  cases n with
  | zero => exact .inl rfl
  | succ n =>
    rw [Nat.succ_mul] at hcolumn hright
    exact .inr ⟨hrow, by rw [Nat.add_sub_cancel]; omega, by rw [Nat.add_sub_cancel]; omega⟩

/-- The cursor after a string that fits is within its eight bits (10_state.md R12). -/
theorem textFits_advance_lt {f : Font} {pad : Bool} {n x y : Nat} (hx : x < 256) (h : TextFits f pad n x y) :
    x + n * charAdvance f pad < 256 := by
  cases n with
  | zero => simpa using hx
  | succ n =>
    obtain ⟨-, -, hright⟩ := h.resolve_left (Nat.succ_ne_zero n)
    have hp := Bool.toNat_le pad
    rw [Nat.add_sub_cancel] at hright
    rw [Nat.succ_mul]
    simp only [charAdvance, W] at *
    omega

theorem textDots_ok {f : Font} {pad : Bool} {text : List Byte} {x y : Nat} (fg bg : Color)
    (h : TextFits f pad text.length x y) : ∀ d ∈ textDots f fg bg pad y text x, d.ok := by
  induction text generalizing x with
  | nil => exact List.forall_mem_nil _
  | cons ch rest ih =>
    obtain ⟨hrow, -, hright, hrest⟩ := textFits_succ h
    exact List.forall_mem_append.mpr ⟨cellDots_ok ch fg bg hrow hright, ih hrest⟩

/-- The latches hold the operands from the first character on. -/
theorem writeGlyph_latched (fsel : BitVec 4) (f : Font) (ch : Byte) (fg bg : Color) (pad : Bool) (s : State) :
    (writeGlyph fsel f ch fg bg pad s).1.latch fsel pad = (writeGlyph fsel f ch fg bg pad s).1 := by
  obtain ⟨m, l, v, hstate⟩ := writeGlyph_state fsel f ch fg bg pad s
  rw [hstate]
  rfl

/-- A string that fits is one painting of its cells. -/
theorem writeChars_fits {s : State} {f : Font} {pad : Bool} {text : List Byte} (fsel : BitVec 4) (fg bg : Color)
    (k : Nat) (hlatched : s.latch fsel pad = s) (htext : ∀ ch ∈ text, Printable ch)
    (hfits : TextFits f pad text.length s.curX.toNat s.curY.toNat) :
    writeChars fsel f fg bg pad k text s =
      (drawTo (textDots f fg bg pad s.curY.toNat text s.curX.toNat)
        (s.curX.toNat + text.length * charAdvance f pad) s, none) := by
  induction text generalizing k s with
  | nil =>
    rw [List.length_nil, Nat.zero_mul, Nat.add_zero, textDots, drawTo_same]
    rfl
  | cons ch rest ih =>
    obtain ⟨hch, hrest⟩ := List.forall_mem_cons.mp htext
    obtain ⟨hrow, hcolumn, hright, hfits⟩ := textFits_succ hfits
    have hglyph := writeGlyph_fits fsel fg bg hch hcolumn hrow hright
    have hlatched' := writeGlyph_latched fsel f ch fg bg pad s
    rw [hglyph, hlatched] at hlatched'
    have hx : s.curX.toNat + charAdvance f pad < 256 := by
      have hp := Bool.toNat_le pad
      simp only [charAdvance, W] at *
      omega
    have hcurX := drawTo_curX hx (cellDots f ch fg bg pad s.curX.toNat s.curY.toNat) s
    simp only [writeChars, hglyph, hlatched]
    rw [ih (k + 1) hlatched' hrest (by rw [hcurX, drawTo_curY]; exact hfits), hcurX, drawTo_curY,
      drawTo_drawTo _ _ _ _ (cellDots_ok ch fg bg hrow hright), textDots, List.length_cons, Nat.succ_mul, Nat.add_assoc,
      Nat.add_comm (charAdvance f pad)]

theorem exec_wrstr_through {s t : State} {fsel : BitVec 4} {f : Font} {text : List Byte} {fg bg : Color} {pad : Bool}
    (hf : fontOf s.cfg fsel = some f) (h : writeText fsel f text fg bg pad s = (t, none)) :
    exec (.wrstr text fsel fg bg pad) s = .next (t.pushResponse 0x00000000#32) := by
  rw [exec_wrstr hf, h]
  rfl

/-- Settles O18: a string that fits is one painting, and the cells of its characters are apart. -/
theorem wrstrDrawsTextAndAdvances : Obligations.WrstrDrawsTextAndAdvances := by
  intro s text fsel f fg bg pad hwf hf htext hfits
  have hok := textDots_ok fg bg hfits
  have hcolor := oneColorEach_textDots f fg bg pad text s.curX.toNat s.curY.toNat
  have hadvance : s.curX.toNat + text.length * charAdvance f pad < 256 :=
    textFits_advance_lt s.curX.isLt hfits
  have hwrite : writeText fsel f text fg bg pad s = _ :=
    writeChars_fits (s := s.latch fsel pad) fsel fg bg 0 rfl htext hfits
  obtain ⟨hanswered, hcurY, hfontSel, hpadLatch, htransport, hinputs⟩ := drewOnly_drawTo s fsel pad
    (textDots f fg bg pad s.curY.toNat text s.curX.toNat) (s.curX.toNat + text.length * charAdvance f pad) 0x00000000#32
  refine ⟨_, exec_wrstr_through hf hwrite, hanswered, fun k r c hk hr hc => ?_, fun hpad k r hk hr => ?_,
    onlyDraws_drawTo hwf _ _ _ _ fun d hd => ?_, curX_drawTo _ _ _ _ hadvance, hcurY, hfontSel, hpadLatch, ?_,
    htransport, hinputs⟩
  · exact pixel_drawTo (d := ⟨_, _, _⟩) hwf fsel pad _ _ hok hcolor
      (mem_textDots.mpr ⟨k, hk, (mem_cellDotsBefore (Nat.zero_le _)).mpr (.inr ⟨r, c, hc, .inl hr, rfl⟩)⟩)
  · exact pixel_drawTo (d := ⟨_, _, _⟩) hwf fsel pad _ _ hok hcolor
      (mem_textDots.mpr ⟨k, hk, (mem_cellDotsBefore (Nat.zero_le _)).mpr (.inl ⟨hpad, r, hr, rfl⟩)⟩)
  · obtain ⟨k, hk, hd⟩ := mem_textDots.mp hd
    exact ⟨k, hk, inBox_of_mem_cellDots hd⟩
  · cases text with
    | nil => rfl
    | cons ch rest =>
      rw [if_neg (List.cons_ne_nil ch rest)]
      exact lc_drawTo _ _ _ _ hok (List.append_ne_nil_of_left_ne_nil (cellDots_ne_nil _ _ _ _ _ _ _) _)

/-! ### Strings one after another, and strings that fail (R96, R97) -/

theorem andThen_eq_none {a : State × Option Halt} {b : State → State × Option Halt} {t : State} :
    andThen a b = (t, none) ↔ ∃ u, a = (u, none) ∧ b u = (t, none) := by
  obtain ⟨u, o⟩ := a
  cases o <;> simp

/-- The padding step that falls through has moved the cursor by one (R91). -/
theorem padColumn_advances {f : Font} {bg : Color} {s t : State} (h : padColumn f bg s = (t, none)) :
    t.curX = BitVec.ofNat 8 (s.curX.toNat + 1) := by
  obtain ⟨u, hpaint, hmove⟩ := andThen_eq_none.mp h
  have hcurX := paint_curX (columnDots f.height s.curX.toNat s.curY.toNat bg) s
  rw [hpaint] at hcurX
  obtain rfl := congrArg Prod.fst hmove
  exact congrArg (fun x => BitVec.ofNat 8 (BitVec.toNat x + 1)) hcurX

/-- The padding step of a glyph write, where there is one, moves the cursor by one. -/
theorem padStep_advances {f : Font} {bg : Color} {pad : Bool} {s t : State} (hx : s.curX.toNat + 1 < 256)
    (h : (if pad then padColumn f bg s else (s, none)) = (t, none)) :
    t.curX.toNat = s.curX.toNat + pad.toNat := by
  cases pad with
  | false =>
    obtain rfl : s = t := congrArg Prod.fst h
    rfl
  | true =>
    rw [padColumn_advances h]
    exact Nat.mod_eq_of_lt hx

/-- A glyph write that falls through has advanced the cursor (R94). -/
theorem writeGlyph_advances {fsel : BitVec 4} {f : Font} {ch : Byte} {fg bg : Color} {pad : Bool} {s t : State}
    (h : writeGlyph fsel f ch fg bg pad s = (t, none)) :
    t.curX.toNat = s.curX.toNat + charAdvance f pad ∧ t.curY = s.curY := by
  constructor
  · unfold writeGlyph at h
    split at h
    · simp at h
    · next hlayout =>
      have hcolumn := curX_le_of_layout hlayout
      obtain ⟨u, hpad, hrest⟩ := andThen_eq_none.mp h
      obtain ⟨w, hrows, hadvance⟩ := andThen_eq_none.mp hrest
      have hu : u.curX.toNat = s.curX.toNat + pad.toNat :=
        padStep_advances (s := s.latch fsel pad) (show s.curX.toNat + 1 < 256 by omega) hpad
      have hw : w.curX = u.curX := by rw [← glyphRows_curX f ch fg bg (List.range f.height) u, hrows]
      have hwidth := f.width_ok
      have hp := Bool.toNat_le pad
      obtain rfl : advanceCursor f pad w = t := congrArg Prod.fst hadvance
      rw [advanceCursor, State.setCurX_curX, hw, hu, BitVec.toNat_ofNat, charAdvance]
      omega
  · obtain ⟨m, l, v, hstate⟩ := writeGlyph_state fsel f ch fg bg pad s
    rw [h] at hstate
    exact (congrArg State.curY hstate).trans rfl

theorem writeChars_advances {fsel : BitVec 4} {f : Font} {fg bg : Color} {pad : Bool} {k : Nat} {text : List Byte}
    {s t : State} (h : writeChars fsel f fg bg pad k text s = (t, none)) :
    t.curX.toNat = s.curX.toNat + text.length * charAdvance f pad ∧ t.curY = s.curY := by
  induction text generalizing k s with
  | nil =>
    obtain rfl : s = t := congrArg Prod.fst h
    simp
  | cons ch rest ih =>
    unfold writeChars at h
    split at h
    · next u hu =>
      obtain ⟨hx, hy⟩ := writeGlyph_advances hu
      obtain ⟨hx', hy'⟩ := ih h
      exact ⟨by rw [hx', hx, List.length_cons]; ring, hy'.trans hy⟩
    · simp at h

/-- A string that falls through does the same from any index. -/
theorem writeChars_index {fsel : BitVec 4} {f : Font} {fg bg : Color} {pad : Bool} {k : Nat} {text : List Byte}
    {s t : State} (h : writeChars fsel f fg bg pad k text s = (t, none)) (j : Nat) :
    writeChars fsel f fg bg pad j text s = (t, none) := by
  induction text generalizing k j s with
  | nil => exact h
  | cons ch rest ih =>
    unfold writeChars at h ⊢
    split at h
    · next u hu => exact ih h (j + 1)
    · simp at h

/-- A string touches the latches, the framebuffer, `LC` and `CUR_X` alone. -/
theorem writeText_state {fsel : BitVec 4} {f : Font} {text : List Byte} {fg bg : Color} {pad : Bool} {s u : State}
    {o : Option Halt} (h : writeText fsel f text fg bg pad s = (u, o)) :
    ∃ m l v, u = (((s.latch fsel pad).setFb m).setLc l).setCurX v := by
  obtain ⟨m, l, v, hstate⟩ := writeChars_state fsel f fg bg pad 0 text s
  rw [writeText] at h
  rw [h] at hstate
  exact ⟨m, l, v, hstate⟩

theorem writeText_responses (fsel : BitVec 4) (f : Font) (text : List Byte) (fg bg : Color) (pad : Bool) (s : State) :
    (writeText fsel f text fg bg pad s).1.responses = s.responses := by
  obtain ⟨m, l, v, hstate⟩ := writeChars_state fsel f fg bg pad 0 text s
  rw [writeText, hstate]
  rfl

theorem writeText_latched {s u : State} {fsel : BitVec 4} {f : Font} {text : List Byte} {fg bg : Color} {pad : Bool}
    {o : Option Halt} (h : writeText fsel f text fg bg pad s = (u, o)) : u.latch fsel pad = u := by
  obtain ⟨m, l, v, rfl⟩ := writeText_state h
  rfl

theorem writeText_cfg {s u : State} {fsel : BitVec 4} {f : Font} {text : List Byte} {fg bg : Color} {pad : Bool}
    {o : Option Halt} (h : writeText fsel f text fg bg pad s = (u, o)) : u.cfg = s.cfg := by
  obtain ⟨m, l, v, rfl⟩ := writeText_state h
  rfl

/-- What follows a string that falls through is the character loop in the state it has left (R97). -/
theorem writeText_append {s u : State} {fsel : BitVec 4} {f : Font} {a : List Byte} {fg bg : Color} {pad : Bool}
    (ha : writeText fsel f a fg bg pad s = (u, none)) (b : List Byte) :
    writeText fsel f (a ++ b) fg bg pad s = writeChars fsel f fg bg pad a.length b u := by
  rw [writeText] at ha ⊢
  rw [writeChars_append, ha, andThen_none, Nat.zero_add]

theorem writeText_pushResponse (fsel : BitVec 4) (f : Font) (text : List Byte) (fg bg : Color) (pad : Bool) (s : State)
    (r : ResponseWord) : writeText fsel f text fg bg pad (s.pushResponse r) =
      ((writeText fsel f text fg bg pad s).1.pushResponse r, (writeText fsel f text fg bg pad s).2) :=
  pushResponse_comm (fun hR _ _ h => hR.writeText fsel f text fg bg pad h) s r (writeText_responses ..)

theorem writeGlyph_pushResponse (fsel : BitVec 4) (f : Font) (ch : Byte) (fg bg : Color) (pad : Bool) (s : State)
    (r : ResponseWord) : writeGlyph fsel f ch fg bg pad (s.pushResponse r) =
      ((writeGlyph fsel f ch fg bg pad s).1.pushResponse r, (writeGlyph fsel f ch fg bg pad s).2) :=
  pushResponse_comm (fun hR _ _ h => hR.writeGlyph fsel f ch fg bg pad h) s r (writeGlyph_responses ..)

/-- A string answered `Ok` used a font that exists and fell through. -/
theorem exec_wrstr_answeredOk {s t : State} {text : List Byte} {fsel : BitVec 4} {fg bg : Color} {pad : Bool}
    (hexec : exec (.wrstr text fsel fg bg pad) s = .next t) (hanswered : Answered s t 0x00000000#32) :
    ∃ f u, fontOf s.cfg fsel = some f ∧ writeText fsel f text fg bg pad s = (u, none) ∧
      t = u.pushResponse 0x00000000#32 := by
  cases hf : fontOf s.cfg fsel with
  | none =>
    obtain rfl : answerIllegal s = t := Host.Outcome.next.inj ((congrArg _ (withFont_none hf _)).symm.trans hexec)
    have hwords : s.responses ++ [0xF0000000#32] = s.responses ++ [0x00000000#32] := hanswered
    simp at hwords
  | some f =>
    rw [exec_wrstr hf] at hexec
    obtain rfl := Host.Outcome.next.inj hexec
    rcases answered_finish (writeText_responses ..) hanswered with ⟨hnone, -⟩ | ⟨kind, -, -, hstatus⟩
    · have hwrite : writeText fsel f text fg bg pad s = ((writeText fsel f text fg bg pad s).1, none) :=
        Prod.ext rfl hnone
      exact ⟨f, _, rfl, hwrite, by rw [hwrite]; rfl⟩
    · exact absurd hstatus.symm (statusCode_ne_zero kind)

/-- A character answered with the status of an error raised an error of that status, without information. -/
theorem exec_wrchar_answeredErr {s t : State} {fsel : BitVec 4} {f : Font} {ch : Byte} {fg bg : Color} {pad : Bool}
    {kind : ErrKind} {info : ErrInfo} (hf : fontOf s.cfg fsel = some f)
    (hexec : exec (.wrchar ch fsel fg bg pad) s = .next t) (hanswered : Answered s t (encodeResult (.err kind info))) :
    ∃ kind' u, statusCode kind' = statusCode kind ∧
      writeGlyph fsel f ch fg bg pad s = (u, some (.raised kind' noInfo)) ∧
      t = u.pushResponse (encodeResult (.err kind' noInfo)) := by
  have hstatusWord : (encodeResult (.err kind info)).extractLsb' 28 4 = statusCode kind := packResponse_status ..
  obtain rfl := Host.Outcome.next.inj ((exec_wrchar hf ch fg bg pad).symm.trans hexec)
  have hstatus := answered_finish (writeGlyph_responses ..) hanswered
  rw [hstatusWord] at hstatus
  rcases writeGlyph_kind fsel f ch fg bg pad s with hnone | ⟨kind', -, hraised⟩
  · simp [hnone, statusCode_ne_zero] at hstatus
  · have hglyph : writeGlyph fsel f ch fg bg pad s = (_, some (.raised kind' noInfo)) := Prod.ext rfl hraised
    refine ⟨kind', _, ?_, hglyph, by rw [hglyph]; rfl⟩
    simpa [hraised, eq_comm] using hstatus

/-- Settles O20: the concatenation is the first string, then the loop over the second from the cursor the first has
left, and what falls through depends neither on the index nor on the responses sent. -/
theorem wrstrContinuesFromCursor : Obligations.WrstrContinuesFromCursor := by
  intro s t a fsel fg bg pad hexec hanswered
  obtain ⟨f, w, hf, ha, rfl⟩ := exec_wrstr_answeredOk hexec hanswered
  have hadvances := writeChars_advances (k := 0) (s := s.latch fsel pad) ha
  refine ⟨⟨f, hf, hadvances⟩, fun u b hexecB hansweredB => ?_⟩
  obtain ⟨g, w', hg, hb, rfl⟩ := exec_wrstr_answeredOk hexecB hansweredB
  obtain rfl : f = g := Option.some.inj (hf.symm.trans ((congrArg (fontOf · fsel) (writeText_cfg ha)).symm.trans hg))
  rw [writeText_pushResponse, Prod.mk.injEq] at hb
  obtain ⟨rfl, hnone⟩ := hb
  have hloop : writeChars fsel f fg bg pad 0 b w = ((writeText fsel f b fg bg pad w).1, none) := by
    rw [← hnone, writeText, writeText_latched ha]
  have hboth := (writeText_append ha b).trans (writeChars_index hloop a.length)
  have hresponses : (writeText fsel f b fg bg pad w).1.responses = s.responses := by
    rw [← writeText_responses fsel f (a ++ b) fg bg pad s, hboth]
  rw [exec_wrstr_through hf hboth, State.pushResponse, hresponses]
  rfl

/-- Settles O19: the loop reaches the character in the state the characters before it have left, and ends with its
error. -/
theorem wrstrStopsAtFirstFailure : Obligations.WrstrStopsAtFirstFailure := by
  intro s t u before after ch fsel fg bg pad kind _ _ hexec hanswered hexecChar hansweredChar
  obtain ⟨f, w, hf, hbefore, rfl⟩ := exec_wrstr_answeredOk hexec hanswered
  have hfw : fontOf (w.pushResponse 0x00000000#32).cfg fsel = some f := by
    rw [State.pushResponse_cfg, writeText_cfg hbefore, hf]
  obtain ⟨kind', u', hstatus, hglyph, rfl⟩ := exec_wrchar_answeredErr (info := noInfo) hfw hexecChar hansweredChar
  rw [writeGlyph_pushResponse, Prod.mk.injEq] at hglyph
  obtain ⟨rfl, hraised⟩ := hglyph
  have hchar : writeGlyph fsel f ch fg bg pad w = (_, some (.raised kind' noInfo)) := Prod.ext rfl hraised
  have hwrite : writeText fsel f (before ++ ch :: after) fg bg pad s = ((writeGlyph fsel f ch fg bg pad w).1,
      some (.raised kind' { noInfo with idx := BitVec.ofNat 8 before.length })) := by
    rw [writeText_append hbefore, writeChars, hchar]
    rfl
  obtain ⟨m, l, v, hstate⟩ := writeText_state hwrite
  refine ⟨_, (exec_wrstr hf ..).trans (by rw [hwrite]), ?_⟩
  rw [hstate, ← hstatus]
  exact ⟨rfl, rfl, ⟨rfl, rfl⟩, ⟨rfl, rfl⟩, rfl, ⟨rfl, rfl, rfl, rfl⟩, rfl, rfl, rfl⟩

end Sys2Proof.Machine
end

/-! # Proofs of the statements about the controller engine (42_controller.md) -/

section

namespace Sys2Proof

/-! ### The script tail -/

theorem ScriptTail.stages_map_fst (t : ScriptTail) :
    t.stages.map Prod.fst = [.startLine, .verticalFlip, .horizontalFlip, .multiplexRatio, .verticalOffset, .comPins,
      .clockDivider, .preCharge, .vcomhLevel, .displayOn] := rfl

/-- The stages of the tail stand in their order (42_controller.md R104). -/
theorem ScriptTail.stages_ordered (t : ScriptTail) :
    t.stages.Pairwise fun p q => Machine.stageOrder p.1 ≤ Machine.stageOrder q.1 := by
  have htags : (t.stages.map Prod.fst).Pairwise fun a b => Machine.stageOrder a ≤ Machine.stageOrder b := by
    rw [ScriptTail.stages_map_fst]
    decide
  rwa [List.pairwise_map] at htags

/-- Every stage is one of the tail's. -/
theorem ScriptTail.exists_mem_stages (t : ScriptTail) (st : TailStage) : ∃ b, (st, b) ∈ t.stages := by
  cases st <;> simp [ScriptTail.stages]

/-- The bytes of one stage, each with its tag. -/
theorem ScriptTail.mem_tagged {t : ScriptTail} {st : TailStage} {b : Byte} :
    (st, b) ∈ t.tagged ↔ ∃ bs, (st, bs) ∈ t.stages ∧ b ∈ bs.toList := by
  simp [ScriptTail.tagged]

theorem ScriptTail.tagged_bytes (t : ScriptTail) : (t.tagged.map fun p => p.2) = t.bytes := by
  simp [ScriptTail.tagged, ScriptTail.bytes, List.map_flatMap, Function.comp_def]

theorem ScriptTail.tagged_ordered (t : ScriptTail) :
    (t.tagged.map fun p => p.1).Pairwise fun a b => Machine.stageOrder a ≤ Machine.stageOrder b := by
  rw [List.pairwise_map, ScriptTail.tagged, List.pairwise_flatMap]
  refine ⟨fun p _ => ?_, t.stages_ordered.imp fun {p q} hpq x hx y hy => ?_⟩
  · exact List.pairwise_map.mpr (List.pairwise_of_forall fun _ _ => le_refl _)
  · obtain ⟨_, _, rfl⟩ := List.mem_map.mp hx
    obtain ⟨_, _, rfl⟩ := List.mem_map.mp hy
    exact hpq

/-- The last byte of the tail is the last of the display-on stage. -/
theorem ScriptTail.tagged_getLast? (t : ScriptTail) : ∃ b, t.tagged.getLast? = some (.displayOn, b) := by
  have hsplit : t.tagged = (t.stages.dropLast.flatMap fun p => p.2.toList.map fun b => (p.1, b)) ++
      t.displayOn.toList.map fun b => (TailStage.displayOn, b) := by
    rw [ScriptTail.tagged, show t.stages = t.stages.dropLast ++ [(.displayOn, t.displayOn)] from rfl,
      List.flatMap_append, List.flatMap_singleton]
    rfl
  obtain ⟨b, hb⟩ : ∃ b, t.displayOn.toList.getLast? = some b := ⟨_, List.getLast?_cons⟩
  exact ⟨b, by rw [hsplit, List.getLast?_append, List.getLast?_map, hb]; rfl⟩

/-- Settles O29: the stages stand in their order, none is empty, and the last is display-on. -/
theorem scriptTailKeepsStageOrder : Obligations.ScriptTailKeepsStageOrder := by
  intro t
  refine ⟨t.tagged_bytes, t.tagged_ordered, fun st => ?_, t.tagged_getLast?⟩
  obtain ⟨bs, hbs⟩ := t.exists_mem_stages st
  exact ⟨bs.first, ScriptTail.mem_tagged.mpr ⟨bs, hbs, List.mem_cons_self⟩⟩

end Sys2Proof

namespace Sys2Proof.Machine

/-! ### How a controller operation ends

`INIT` and `REFRESH` change the trace, the answers used, `LC` and the responses, and nothing else. -/

/-- The state after `n` answered transactions with the events `es`, `LC` then set and one response delivered. -/
def State.concluded (s : State) (es : List TxEvent) (n : Nat) (l : Lifecycle) (r : ResponseWord) : State :=
  ((s.sent es n).setLc l).pushResponse r

theorem State.concluded_usedAnswers (s : State) (es : List TxEvent) (n : Nat) (l : Lifecycle) (r : ResponseWord) :
    UsedAnswers s (s.concluded es n l r) n := ⟨rfl, rfl, rfl⟩

theorem State.concluded_frame (s : State) (es : List TxEvent) (n : Nat) (l : Lifecycle) (r : ResponseWord) :
    (s.concluded es n l r).fb = s.fb ∧ SameCursor s (s.concluded es n l r) ∧ SameLatches s (s.concluded es n l r) ∧
      SameInputs s (s.concluded es n l r) := ⟨rfl, ⟨rfl, rfl⟩, ⟨rfl, rfl⟩, rfl, rfl, rfl⟩

/-! ### INIT -/

theorem script_length (c : Config) : (script c).length = 10 + c.tail.bytes.length := List.length_append

/-- The reset pulse uses no answer (42_controller.md R101). -/
theorem State.sent_tpResetPulse (s : State) (es : List TxEvent) (n : Nat) :
    (tpResetPulse s).sent es n = s.sent ([.rstAssert, .rstRelease] ++ es) n := by
  simp only [tpResetPulse, State.pushTx, State.sent, List.append_assoc]

/-- Script bytes that are all accepted. -/
theorem sendScript_ok (i : Nat) {bytes : List Byte} {s : State} (hok : AnswersOk s bytes.length) :
    sendScript i bytes s = (s.sent (bytes.map fun b => TxEvent.cmd b .ok) bytes.length, none) := by
  rw [sendScript_eq_run, runTransactions_ok (by rwa [scriptTransactions_length]), scriptTransactions_map,
    scriptTransactions_length]

/-- Script bytes of which byte `n` is the first rejected: its index is the stage (42_controller.md R102). -/
theorem sendScript_fail (i : Nat) {bytes : List Byte} {s : State} {n : Nat} (hn : n < bytes.length)
    (hok : AnswersOk s n) (hfail : s.answerAt n = some .fail) :
    sendScript i bytes s = (s.sent ((bytes.take n).map (fun b => TxEvent.cmd b .ok) ++ [.cmd bytes[n] .fail]) (n + 1),
      some (.raised .protocolStageFailure (stageInfo (i + n)))) := by
  rw [sendScript_eq_run, runTransactions_fail (by rwa [scriptTransactions_length]) hok hfail, List.map_take,
    scriptTransactions_map, ← List.map_take, scriptTransactions_getElem]

/-- `INIT` whose every byte is accepted. -/
theorem exec_init_ok {s : State} (hok : AnswersOk s (script s.cfg).length) :
    exec .init s = .next (s.concluded
      ([.rstAssert, .rstRelease] ++ (script s.cfg).map fun b => TxEvent.cmd b .ok) (script s.cfg).length .configured
      0x00000000#32) := by
  rw [exec, execInit, sendScript_ok (s := tpResetPulse s) 0 hok, State.sent_tpResetPulse]
  rfl

/-- `INIT` whose byte `i` is the first rejected (42_controller.md R102, R110). -/
theorem exec_init_fail {s : State} {i : Nat} (hi : i < (script s.cfg).length) (hok : AnswersOk s i)
    (hfail : s.answerAt i = some .fail) :
    exec .init s = .next (s.concluded
      ([.rstAssert, .rstRelease] ++ (((script s.cfg).take i).map (fun b => TxEvent.cmd b .ok) ++
        [.cmd (script s.cfg)[i] .fail])) (i + 1) .uninitialized (packResponse 5#4 0#4 0#8 (BitVec.ofNat 8 i) 0#8)) := by
  rw [exec, execInit, sendScript_fail (s := tpResetPulse s) 0 hi hok hfail, State.sent_tpResetPulse, Nat.zero_add]
  rfl

/-- Settles O27: the run of `INIT` with every byte accepted. -/
theorem initSendsWholeScript : Obligations.InitSendsWholeScript := by
  intro s hok
  rw [← script_length] at hok ⊢
  exact ⟨_, exec_init_ok hok, rfl, (List.append_assoc ..).symm, s.concluded_usedAnswers .., rfl, s.concluded_frame ..⟩

/-- Settles O28: the run of `INIT` up to the rejected byte. -/
theorem initStopsAtRejectedByte : Obligations.InitStopsAtRejectedByte := by
  intro s i hi hok hfail
  refine ⟨_, exec_init_fail hi hok hfail, rfl, ?_, s.concluded_usedAnswers .., rfl, s.concluded_frame ..⟩
  simp only [State.concluded, State.pushResponse_tx, State.setLc_tx, State.sent_tx, List.append_assoc]

/-! ### REFRESH -/

/-- `REFRESH` whose every transaction is accepted. -/
theorem exec_refresh_ok {s : State} (hok : AnswersOk s (4 * NPAGES)) :
    exec .refresh s = .next (s.concluded ((List.range NPAGES).flatMap (pageEvents s.fb)) (4 * NPAGES)
      (refreshed .synchronized s.lc) 0x00000000#32) := by
  rw [exec, execRefresh, refreshAll_ok hok, State.lcAfterRefresh_eq_setLc]
  rfl

/-- The stage of transaction `k` of a page (30_encoding.md R59). -/
theorem pageTransactions_stage (m : Memory) (p : Nat) {k : Nat} (hk : k < (pageTransactions m p).length) :
    (pageTransactions m p)[k].1 = 4 * p + stageOfTransaction k := by
  match k, hk with
  | 0, _ | 1, _ | 2, _ | 3, _ => rfl

/-- The events of a page whose transaction `k` is the first rejected. -/
theorem pageTransactions_fail (m : Memory) (p : Nat) {k : Nat} (hk : k < (pageTransactions m p).length) :
    ((pageTransactions m p).take k).map (fun q => q.2 .ok) ++ [(pageTransactions m p)[k].2 .fail] =
      failedPageEvents m p k := by
  match k, hk with
  | 0, _ | 1, _ | 2, _ | 3, _ => rfl

/-- A refresh whose transaction `k` of page `p` is the first rejected (42_controller.md R108). -/
theorem refreshAll_fail {s : State} {p k : Nat} (hp : p < NPAGES) (hk : k < 4) (hok : AnswersOk s (4 * p + k))
    (hfail : s.answerAt (4 * p + k) = some .fail) :
    refreshAll s = ((s.sent ((List.range p).flatMap (pageEvents s.fb) ++ failedPageEvents s.fb p k)
      (4 * p + k + 1)).lcAfterRefresh .configured,
      some (.raised .protocolStageFailure (stageInfo (4 * p + stageOfTransaction k)))) := by
  have hn : 4 * p + k < (frameTransactions s.fb).length := by rw [frameTransactions_length]; omega
  have hkp : k < (pageTransactions s.fb p).length := hk
  have hget : (frameTransactions s.fb)[4 * p + k] = (pageTransactions s.fb p)[k] := by
    have hget? := frameTransactions_getElem? s.fb hp hk
    rwa [List.getElem?_eq_getElem hn, List.getElem?_eq_getElem hkp, Option.some.injEq] at hget?
  rw [refreshAll_eq_run, runTransactions_fail hn hok hfail, hget, pageTransactions_stage,
    frameTransactions_take _ hp hk, List.map_append, pagesTransactions_map, List.append_assoc, pageTransactions_fail]
  rfl

/-- `REFRESH` whose transaction `k` of page `p` is the first rejected. -/
theorem exec_refresh_fail {s : State} {p k : Nat} (hp : p < NPAGES) (hk : k < 4) (hok : AnswersOk s (4 * p + k))
    (hfail : s.answerAt (4 * p + k) = some .fail) :
    exec .refresh s = .next (s.concluded ((List.range p).flatMap (pageEvents s.fb) ++ failedPageEvents s.fb p k)
      (4 * p + k + 1) (refreshed .configured s.lc)
      (packResponse 5#4 0#4 0#8 (BitVec.ofNat 8 (4 * p + stageOfTransaction k)) 0#8)) := by
  rw [exec, execRefresh, refreshAll_fail hp hk hok hfail, State.lcAfterRefresh_eq_setLc]
  rfl

/-- Settles O30: the run of `REFRESH` with every transaction accepted. -/
theorem refreshStreamsWholeFrame : Obligations.RefreshStreamsWholeFrame := fun s hok =>
  ⟨_, exec_refresh_ok hok, rfl, rfl, s.concluded_usedAnswers .., rfl, s.concluded_frame ..⟩

/-- Settles O31: the run of `REFRESH` up to the rejected transaction. -/
theorem refreshStopsAtRejectedTransaction : Obligations.RefreshStopsAtRejectedTransaction :=
  fun s _ _ hp hk hok hfail => ⟨_, exec_refresh_fail hp hk hok hfail, rfl, (List.append_assoc ..).symm,
    s.concluded_usedAnswers .., rfl, s.concluded_frame ..⟩

/-! ### The controller after a rejected refresh -/

/-- A page with a rejected transaction changes no other page of the controller, however much of the burst arrived
(20_memory.md R41). -/
theorem Panel.replay_failedPageEvents_mem (delivered : Nat → Nat) (fresh : Nat → Panel) (m : Memory) (v : Panel)
    {p : Nat} (hp : p < NPAGES) (k : Nat) {q : Nat} (hq : q ≠ p) (c : Nat) :
    (Panel.replay delivered fresh v (failedPageEvents m p k)).mem q c = v.mem q c := by
  match k with
  | 0 => rfl
  | 1 | 2 => simp only [failedPageEvents, Panel.replay_cons, Panel.replay_nil, Panel.after, Panel.command_mem]
  | _ + 3 =>
    simp only [failedPageEvents, Panel.replay_cons, Panel.replay_nil, Panel.after, Panel.command_pageSelectByte v hp,
      Panel.command_columnSelect, Panel.put, hq, false_and, if_false]

/-- Settles O33: the pages before `p` are accepted whole, and the events of page `p` write in page `p` alone. -/
theorem failedRefreshSplitsPanel : Obligations.FailedRefreshSplitsPanel := by
  intro s t delivered fresh v p k hp hk hok hfail hexec q c hc
  have htx : t.tx = s.tx ++ ((List.range p).flatMap (pageEvents s.fb) ++ failedPageEvents s.fb p k) := by
    rw [← Host.Outcome.next.inj ((exec_refresh_fail hp hk hok hfail).symm.trans hexec)]
    rfl
  have hpages : ∀ r ∈ List.range p, r < NPAGES := fun r hr => (List.mem_range.mp hr).trans hp
  have hmem : q ≠ p → (Panel.replay delivered fresh v (t.tx.drop s.tx.length)).mem q c =
      if q ∈ List.range p then Memory.read s.fb (unitOf q c) else v.mem q c := fun hq => by
    rw [htx, List.drop_left, Panel.replay_append, Panel.replay_failedPageEvents_mem _ _ _ _ hp k hq,
      Panel.replay_pages_mem delivered fresh s.fb v hpages q hc]
  refine ⟨fun hqp => ?_, fun hpq => ?_⟩
  · rw [hmem hqp.ne, if_pos (List.mem_range.mpr hqp)]
    rfl
  · rw [hmem hpq.ne', if_neg (fun hq => hpq.not_gt (List.mem_range.mp hq))]

end Sys2Proof.Machine
end

/-! # Proofs of the statements about the public surface (43_public_surface.md) -/

section

namespace Sys2Proof.Machine

/-! ### GETW and GETH (R115, R116) -/

/-- Settles O22: the words are the encodings of `GETW` and `GETH`, which answer a constant. -/
theorem sizeReadsAreConstant : Obligations.SizeReadsAreConstant := by
  have hgetw : encode .getw = bytesOfHeader 0x9000000000000000#64 := by decide
  have hgeth : encode .geth = bytesOfHeader 0xA000000000000000#64 := by decide
  exact ⟨fun rest => ⟨hgetw ▸ requestDecodeEncode .getw rest rfl rfl, hgeth ▸ requestDecodeEncode .geth rest rfl rfl⟩,
    fun _ => ⟨rfl, rfl⟩⟩

/-! ### The parts of WRITE (R113, R114) -/

/-- A frame of the background colour and the cursor at its place: what `FILL` and then `SETCUR` in range leave, their
responses apart. -/
def State.background (s : State) (bg : Color) (x y : Byte) : State :=
  ((s.setFb (Memory.fill (fillByte bg))).setLc (dirtied s.lc)).setCursor x y

theorem fillFrame_setCursor (s : State) (bg : Color) (x y : Byte) :
    (fillFrame bg s).setCursor x y = s.background bg x y := by
  rw [fillFrame, State.dirty_eq_setLc]
  rfl

theorem fontOf_eq_some {c : Config} {fsel : BitVec 4} (h : fsel.toNat < c.fonts.length) :
    fontOf c fsel = some c.fonts[fsel.toNat] := List.getElem?_eq_getElem h

section
variable {s : State} {fsel : BitVec 4} {f : Font} (hf : fontOf s.cfg fsel = some f) {text : List Byte} {x y : Byte}
  {bg fg : Color} {pad commit : Bool}

theorem writeParts_out (hout : W ≤ x.toNat ∨ H ≤ y.toNat) : writeParts text fsel f x y bg fg pad commit s =
    ((s.latch fsel pad).background bg 0#8 0#8, some (.raised .outOfBounds ⟨1#4, 0#8, 0#8⟩)) := by
  rw [writeParts, fillFrame_setCursor, placeCursor_out _ hout]
  rfl

/-- In range the text is drawn on the background, and the refresh follows it. The latches need not be mentioned: the
string sets them (10_state.md R13). -/
theorem writeParts_in (hx : x.toNat < W) (hy : y.toNat < H) : writeParts text fsel f x y bg fg pad commit s =
    andThen (inPart 2#4 (writeText fsel f text fg bg pad (s.background bg x y))) fun t =>
      if commit then inPart 3#4 (refreshAll t) else (t, none) := by
  rw [writeParts, fillFrame_setCursor, placeCursor_in _ hx hy]
  rfl

/-- A string on the background has sent nothing, and has set the latches. -/
theorem writeText_background_frame {u : State} {o : Option Halt}
    (htext : writeText fsel f text fg bg pad (s.background bg x y) = (u, o)) : u.responses = s.responses ∧
      u.fontSel = fsel ∧ u.padLatch = pad ∧ SameTransport s u ∧ SameInputs s u := by
  obtain ⟨m, l, v, rfl⟩ := writeText_state htext
  exact ⟨rfl, rfl, rfl, ⟨rfl, rfl, rfl, rfl⟩, rfl, rfl, rfl⟩

include hf

theorem exec_write : exec (.write text fsel x y bg fg pad commit) s =
    .next (finish 0#8 (writeParts text fsel f x y bg fg pad commit s)) :=
  congrArg _ (withFont_some hf _)

variable (hx : x.toNat < W) (hy : y.toNat < H) {u : State}
include hx hy

/-- A text that fails ends the `WRITE`, with phase 2. -/
theorem exec_write_textFails {kind : ErrKind} {info : ErrInfo}
    (htext : writeText fsel f text fg bg pad (s.background bg x y) = (u, some (.raised kind info))) :
    exec (.write text fsel x y bg fg pad commit) s =
      .next (u.pushResponse (encodeResult (.err kind { info with phase := 2#4 }))) := by
  rw [exec_write hf, writeParts_in hx hy, htext]
  rfl

variable (htext : writeText fsel f text fg bg pad (s.background bg x y) = (u, none))
include htext

/-- Without commit the `WRITE` ends when the text is drawn. -/
theorem exec_write_uncommitted :
    exec (.write text fsel x y bg fg pad false) s = .next (u.pushResponse 0x00000000#32) := by
  rw [exec_write hf, writeParts_in hx hy, htext]
  rfl

/-- With commit the `WRITE` ends as the refresh of the frame drawn does, in phase 3. -/
theorem exec_write_committed :
    exec (.write text fsel x y bg fg pad true) s = .next (finish 0#8 (inPart 3#4 (refreshAll u))) := by
  rw [exec_write hf, writeParts_in hx hy, htext]
  rfl

/-- A refresh that fails ends the `WRITE`, with phase 3. -/
theorem exec_write_refreshFails {w : State} {kind : ErrKind} {info : ErrInfo}
    (hrefresh : refreshAll u = (w, some (.raised kind info))) : exec (.write text fsel x y bg fg pad true) s =
      .next (w.pushResponse (encodeResult (.err kind { info with phase := 3#4 }))) := by
  rw [exec_write_committed hf hx hy htext, hrefresh]
  rfl

/-- A committed `WRITE` whose every transaction is accepted. -/
theorem exec_write_committed_ok (hok : AnswersOk u (4 * NPAGES)) :
    exec (.write text fsel x y bg fg pad true) s = .next (u.concluded ((List.range NPAGES).flatMap (pageEvents u.fb))
      (4 * NPAGES) (refreshed .synchronized u.lc) 0x00000000#32) := by
  rw [exec_write_committed hf hx hy htext, refreshAll_ok hok, State.lcAfterRefresh_eq_setLc]
  rfl

end

/-- Settles O24: the range check comes after the fill, and nothing else follows. -/
theorem writeOutOfRangeLeavesBackground : Obligations.WriteOutOfRangeLeavesBackground := by
  intro s text fsel x y fg bg pad commit hfsel hout
  refine ⟨_, exec_write (fontOf_eq_some hfsel), ?_⟩
  rw [writeParts_out hout]
  exact ⟨rfl, fun _ _ hx hy => pixel_fill bg hx hy, rfl, rfl, rfl, rfl, rfl, ⟨rfl, rfl, rfl, rfl⟩, rfl, rfl, rfl⟩

/-! ### The parts of WRITE as requests of their own -/

/-- `FILL` and then `SETCUR` in range. -/
theorem exec_setcur_of_fill {s a b : State} {bg : Color} {x y : Byte} (hx : x.toNat < W) (hy : y.toNat < H)
    (hfill : exec (.fill bg) s = .next a) (hsetcur : exec (.setcur x y) a = .next b) :
    b = ((s.background bg x y).pushResponse 0x00000000#32).pushResponse 0x00000000#32 := by
  obtain rfl := Host.Outcome.next.inj hfill
  obtain rfl := Host.Outcome.next.inj (((setcurMovesCursorInRange _ x y).1 hx hy).symm.trans hsetcur)
  rw [← fillFrame_setCursor]
  rfl

/-- A string answered `Ok` after them: the string of the `WRITE`, which does not read the responses. -/
theorem exec_wrstr_on_background {s a b c : State} {bg fg : Color} {x y : Byte} {text : List Byte} {fsel : BitVec 4}
    {pad : Bool} (hx : x.toNat < W) (hy : y.toNat < H) (hfill : exec (.fill bg) s = .next a)
    (hsetcur : exec (.setcur x y) a = .next b) (hwrstr : exec (.wrstr text fsel fg bg pad) b = .next c)
    (hanswered : Answered b c 0x00000000#32) :
    ∃ f u, fontOf s.cfg fsel = some f ∧ writeText fsel f text fg bg pad (s.background bg x y) = (u, none) ∧
      c = ((u.pushResponse 0x00000000#32).pushResponse 0x00000000#32).pushResponse 0x00000000#32 := by
  obtain rfl := exec_setcur_of_fill hx hy hfill hsetcur
  obtain ⟨f, v, hf, hwrite, rfl⟩ := exec_wrstr_answeredOk hwrstr hanswered
  rw [writeText_pushResponse, writeText_pushResponse, Prod.mk.injEq] at hwrite
  obtain ⟨rfl, hnone⟩ := hwrite
  exact ⟨f, _, hf, Prod.ext rfl hnone, rfl⟩

/-- A response word with the status of an error was sent for an error raised with that status and that information. -/
theorem answered_finish_err {s : State} {a : State × Option Halt} {v : Byte} {kind : ErrKind} {info : ErrInfo}
    (hresponses : a.1.responses = s.responses)
    (hanswered : Answered s (finish v a) (encodeResult (.err kind info))) :
    ∃ kind', statusCode kind' = statusCode kind ∧ a.2 = some (.raised kind' info) := by
  have hword : ∀ w : ResponseWord, a.1.responses ++ [w] = s.responses ++ [encodeResult (.err kind info)] →
      w = encodeResult (.err kind info) := fun w hw => by simpa [hresponses] using hw
  obtain ⟨t, _ | (⟨kind', phase, idx, stage⟩ | _)⟩ := a
  · obtain ⟨hstatus, -⟩ := packResponse_inj (hword _ hanswered)
    exact absurd hstatus.symm (statusCode_ne_zero kind)
  · obtain ⟨hstatus, rfl, rfl, rfl, -⟩ := packResponse_inj (hword _ hanswered)
    exact ⟨kind', hstatus, rfl⟩
  · exact absurd (hresponses.symm.trans hanswered) (by simp)

/-- Settles O25: the string runs in the state that `FILL` and `SETCUR` leave but for the responses, which it does not
read. -/
theorem writeTextFailureSendsNothing : Obligations.WriteTextFailureSendsNothing := by
  intro s a b c text fsel x y fg bg pad commit kind k hfsel hx hy hfill hsetcur hwrstr hanswered
  have hf := fontOf_eq_some hfsel
  obtain rfl := exec_setcur_of_fill hx hy hfill hsetcur
  obtain rfl := Host.Outcome.next.inj ((exec_wrstr (s := ((s.background bg x y).pushResponse _).pushResponse _) hf text
    fg bg pad).symm.trans hwrstr)
  obtain ⟨kind', hstatus, hraised⟩ := answered_finish_err (info := ⟨0#4, k, 0#8⟩) (writeText_responses ..) hanswered
  rw [writeText_pushResponse, writeText_pushResponse] at hraised ⊢
  have htext : writeText _ _ text fg bg pad (s.background bg x y) = (_, some (.raised kind' ⟨0#4, k, 0#8⟩)) :=
    Prod.ext rfl hraised
  obtain ⟨hresponses, -, -, htransport, hinputs⟩ := writeText_background_frame htext
  refine ⟨_, exec_write_textFails hf hx hy htext, ?_⟩
  rw [htext, ← hstatus]
  exact ⟨congrArg (· ++ _) hresponses, rfl, ⟨rfl, rfl⟩, ⟨rfl, rfl⟩, rfl, htransport, hinputs⟩

/-! ### The refresh of a committed WRITE -/

/-- Transactions touch the trace, the answers and the phase alone. -/
theorem runTransactions_state (l : List (Nat × (Reply → TxEvent))) (s : State) :
    ∃ es n p, (runTransactions l s).1 = (s.sent es n).setPhase p := by
  rcases answers_cases s l.length with hok | ⟨n, hn, hok, hfail⟩ | ⟨n, hn, hok, hsilent⟩
  · exact ⟨_, _, s.phase, congrArg Prod.fst (runTransactions_ok hok)⟩
  · exact ⟨_, _, s.phase, congrArg Prod.fst (runTransactions_fail hn hok hfail)⟩
  · exact ⟨_, _, _, congrArg Prod.fst (runTransactions_silent hn hok hsilent)⟩

theorem lcAtRefreshEnd_fst (a : State × Option Halt) : ∃ l, (lcAtRefreshEnd a).1 = a.1.setLc l := by
  obtain ⟨t, _ | (_ | _)⟩ := a
  · exact ⟨_, State.lcAfterRefresh_eq_setLc ..⟩
  · exact ⟨_, State.lcAfterRefresh_eq_setLc ..⟩
  · exact ⟨t.lc, rfl⟩

/-- A refresh touches the trace, the answers, the phase and `LC` alone (42_controller.md R108). -/
theorem refreshAll_frame (s : State) : (refreshAll s).1.responses = s.responses ∧ (refreshAll s).1.fb = s.fb ∧
    SameCursor s (refreshAll s).1 ∧ SameLatches s (refreshAll s).1 ∧ SameInputs s (refreshAll s).1 := by
  obtain ⟨es, n, p, hrun⟩ := runTransactions_state (frameTransactions s.fb) s
  obtain ⟨l, hend⟩ := lcAtRefreshEnd_fst (runTransactions (frameTransactions s.fb) s)
  rw [refreshAll_eq_run, hend, hrun]
  exact ⟨rfl, rfl, ⟨rfl, rfl⟩, ⟨rfl, rfl⟩, rfl, rfl, rfl⟩

theorem refreshAll_pushResponse (s : State) (r : ResponseWord) :
    refreshAll (s.pushResponse r) = ((refreshAll s).1.pushResponse r, (refreshAll s).2) :=
  pushResponse_comm (fun hR _ _ h => hR.refreshAll h) s r (refreshAll_frame s).1

/-- Settles O26: the string and the refresh run in the states that the requests before them leave but for the
responses. -/
theorem writeRefreshFailureReportsStage : Obligations.WriteRefreshFailureReportsStage := by
  intro s a b c d text fsel x y fg bg pad stage _ hx hy hfill hsetcur hwrstr hanswered hrefresh hfailed
  obtain ⟨f, u, hf, htext, rfl⟩ := exec_wrstr_on_background hx hy hfill hsetcur hwrstr hanswered
  obtain rfl := Host.Outcome.next.inj hrefresh
  obtain ⟨kind, hstatus, hraised⟩ := answered_finish_err (kind := .protocolStageFailure) (info := ⟨0#4, 0#8, stage⟩)
    (refreshAll_frame _).1 hfailed
  simp only [refreshAll_pushResponse] at hraised ⊢
  obtain ⟨hresponses, -, -, -, hcfg, hport, hstaged⟩ := writeText_background_frame htext
  obtain ⟨hresponses', hfb, hcursor, hlatches, hcfg', hport', hstaged'⟩ := refreshAll_frame u
  generalize hend : refreshAll u = e at *
  obtain ⟨w, _⟩ := e
  obtain rfl := hraised
  refine ⟨_, exec_write_refreshFails hf hx hy htext hend, ?_⟩
  rw [← show statusCode kind = 5#4 from hstatus]
  exact ⟨congrArg (· ++ _) (hresponses'.trans hresponses), hfb, hcursor, hlatches, rfl, ⟨rfl, rfl, rfl, rfl⟩,
    hcfg'.trans hcfg, hport'.trans hport, hstaged'.trans hstaged⟩

/-! ### A WRITE that completes -/

/-- A pixel of a string drawn on the background is the background's outside the glyphs: the padding columns are of that
colour too (41_rasterizer.md R91). -/
theorem paint_textDots_outside {s : State} {f : Font} {fg bg : Color} {pad : Bool} {text : List Byte} {x y x' y' : Nat}
    (hwf : Memory.wf s.fb) (hbg : pixel s.fb x' y' = bg) (hfits : TextFits f pad text.length x y) (hx' : x' < W)
    (hout : ∀ k < text.length, ¬InBox x' y' (x + k * charAdvance f pad + pad.toNat) y f.width f.height) :
    pixel (paint (textDots f fg bg pad y text x) s).1.fb x' y' = bg := by
  by_cases hdot : ∃ d ∈ textDots f fg bg pad y text x, x' = d.x ∧ y' = d.y
  · refine paint_pixel_mem hwf (textDots_ok fg bg hfits) hdot fun d hd hxd hyd => ?_
    obtain ⟨k, hk, hcell⟩ := mem_textDots.mp hd
    obtain ⟨-, n, -, rfl⟩ | ⟨r, c, hc, hr | ⟨-, hc0⟩, rfl⟩ := (mem_cellDotsBefore (Nat.zero_le _)).mp hcell
    · rfl
    · refine absurd ?_ (hout k hk)
      simp only at hxd hyd
      simp only [InBox]
      omega
    · contradiction
  · rw [paint_pixel_other hwf hx' fun d hd hxy => hdot ⟨d, hd, hxy⟩, hbg]

/-- A refresh ends the same for a stale panel and a synchronized one (10_state.md R18). -/
theorem refreshed_dirtied (l before : Lifecycle) : refreshed l (dirtied before) = refreshed l before := by
  cases before <;> rfl

/-- A `WRITE` whose text is drawn and whose refresh, if any, is accepted: the text's state, and the events of the
refresh (R113). -/
theorem exec_write_completes {s u : State} {fsel : BitVec 4} {f : Font} {text : List Byte} {x y : Byte} {fg bg : Color}
    {pad commit : Bool} (hf : fontOf s.cfg fsel = some f) (hx : x.toNat < W) (hy : y.toNat < H)
    (htext : writeText fsel f text fg bg pad (s.background bg x y) = (u, none))
    (hok : commit = true → AnswersOk s (4 * NPAGES)) :
    ∃ t, exec (.write text fsel x y bg fg pad commit) s = .next t ∧ Answered s t 0x00000000#32 ∧
      t.fb = u.fb ∧ SameCursor u t ∧ t.fontSel = fsel ∧ t.padLatch = pad ∧ SameInputs s t ∧
      (commit = false → SameTransport s t ∧ t.lc = u.lc) ∧
      (commit = true → UsedAnswers s t (4 * NPAGES) ∧
        t.tx = s.tx ++ (List.range NPAGES).flatMap (pageEvents u.fb) ∧ t.lc = refreshed .synchronized u.lc) := by
  obtain ⟨hresponses, hfontSel, hpadLatch, htransport, hinputs⟩ := writeText_background_frame htext
  cases commit with
  | false =>
    exact ⟨_, exec_write_uncommitted hf hx hy htext, congrArg (· ++ _) hresponses, rfl, ⟨rfl, rfl⟩, hfontSel, hpadLatch,
      hinputs, fun _ => ⟨htransport, rfl⟩, Bool.noConfusion⟩
  | true =>
    obtain ⟨htx, hanswers, hanswered, hphase⟩ := htransport
    obtain ⟨hcfg, hport, hstaged⟩ := hinputs
    have hoku : AnswersOk u (4 * NPAGES) := fun k hk => by
      rw [State.answerAt, hanswers, hanswered]
      exact hok rfl k hk
    obtain ⟨hfb, hcursor, ⟨hfontSel', hpadLatch'⟩, hcfg', hport', hstaged'⟩ := u.concluded_frame
      ((List.range NPAGES).flatMap (pageEvents u.fb)) (4 * NPAGES) (refreshed .synchronized u.lc) 0x00000000#32
    exact ⟨_, exec_write_committed_ok hf hx hy htext hoku, congrArg (· ++ _) hresponses, hfb, hcursor,
      hfontSel'.trans hfontSel, hpadLatch'.trans hpadLatch,
      ⟨hcfg'.trans hcfg, hport'.trans hport, hstaged'.trans hstaged⟩, Bool.noConfusion,
      fun _ => ⟨⟨congrArg (List.drop _) hanswers, congrArg (· + _) hanswered, hphase⟩, congrArg (· ++ _) htx, rfl⟩⟩

/-- The fill has marked `LC` already, so the text adds nothing to it. -/
theorem drawTo_background_lc (dots : List Dot) (n : Nat) (s : State) (bg : Color) (x y : Byte) (fsel : BitVec 4)
    (pad : Bool) : (drawTo dots n ((s.background bg x y).latch fsel pad)).lc = dirtied s.lc :=
  (paint_lc dots _).elim id fun h => h.trans (dirtied_dirtied s.lc)

/-- Settles O23: the string that fits is one painting on the background, and the refresh changes nothing of it. -/
theorem writeClearsDrawsAndCommits : Obligations.WriteClearsDrawsAndCommits := by
  intro s text fsel f x y fg bg pad commit hf htext hx hy hfits hanswers
  have hwf : Memory.wf ((s.background bg x y).latch fsel pad).fb := Memory.wf_fill (fillByte bg)
  have hwrite : writeText fsel f text fg bg pad (s.background bg x y) = _ :=
    writeChars_fits (s := (s.background bg x y).latch fsel pad) fsel fg bg 0 rfl htext hfits
  obtain ⟨t, hexec, hanswered, hfb, ⟨hcurX, hcurY⟩, hfontSel, hpadLatch, hinputs, hplain, hcommitted⟩ :=
    exec_write_completes (commit := commit) hf hx hy hwrite hanswers
  rw [drawTo_background_lc] at hplain
  rw [drawTo_background_lc, refreshed_dirtied, ← hfb] at hcommitted
  refine ⟨t, hexec, hanswered, fun k r c hk hr hc => ?_, fun x' y' hx' hy' hout => ?_,
    hcurX ▸ drawTo_curX (textFits_advance_lt x.isLt hfits) _ _, hcurY.trans (drawTo_curY ..), hfontSel, hpadLatch,
    hinputs, hplain, hcommitted⟩
  · rw [hfb]
    exact paint_pixel_dot (d := ⟨_, _, _⟩) hwf (textDots_ok fg bg hfits) (oneColorEach_textDots f fg bg pad text _ _)
      (mem_textDots.mpr ⟨k, hk, (mem_cellDotsBefore (Nat.zero_le _)).mpr (.inr ⟨r, c, hc, .inl hr, rfl⟩)⟩)
  · rw [hfb]
    exact paint_textDots_outside hwf (pixel_fill bg hx' hy') hfits hx' hout

end Sys2Proof.Machine
end

/-! # Proofs of the statements about hazards (70_reset_and_hazards.md) -/

section

namespace Sys2Proof.Machine

/-! ### A transport that never answers (R157) -/

/-- The block stuck inside the transaction after `n` accepted ones with the events `es`. -/
def State.hungAfter (s : State) (es : List TxEvent) (n : Nat) : State := (s.sent es n).setPhase .awaitingTransport

/-- `INIT` whose byte `n` is never answered. -/
theorem exec_init_silent {s : State} {n : Nat} (hn : n < (script s.cfg).length) (hok : AnswersOk s n)
    (hsilent : s.answerAt n = none) :
    exec .init s = .next (s.hungAfter
      ([.rstAssert, .rstRelease] ++ ((script s.cfg).take n).map fun b => TxEvent.cmd b .ok) n) := by
  have hlen : n < (scriptTransactions 0 (script s.cfg)).length := by rwa [scriptTransactions_length]
  rw [exec, execInit, sendScript_eq_run, runTransactions_silent (s := tpResetPulse s) hlen hok hsilent,
    State.sent_tpResetPulse, List.map_take, scriptTransactions_map, ← List.map_take]
  rfl

/-- `REFRESH` whose transaction `n` is never answered. -/
theorem exec_refresh_silent {s : State} {n : Nat} (hn : n < 4 * NPAGES) (hok : AnswersOk s n)
    (hsilent : s.answerAt n = none) :
    exec .refresh s = .next (s.hungAfter (((List.range NPAGES).flatMap (pageEvents s.fb)).take n) n) := by
  have hlen : n < (frameTransactions s.fb).length := by rwa [frameTransactions_length]
  rw [exec, execRefresh, refreshAll_eq_run, runTransactions_silent hlen hok hsilent, List.map_take, frameTransactions,
    pagesTransactions_map]
  rfl

/-- A block stuck in a transaction stays stuck, whatever arrives at the port. -/
theorem step_awaitingTransport {s : State} (hphase : s.phase = .awaitingTransport) (bytes : List Byte) :
    step (s.setPort bytes) = .fault .transportSilent := by
  have hport : (s.setPort bytes).phase = .awaitingTransport := hphase
  simp only [step, fetch, hport]

theorem State.hungAfter_stuck (s : State) (es : List TxEvent) (n : Nat) :
    (s.hungAfter es n).phase = .awaitingTransport ∧ (s.hungAfter es n).responses = s.responses ∧
      (s.hungAfter es n).fb = s.fb ∧ ∀ bytes, step ((s.hungAfter es n).setPort bytes) = .fault .transportSilent :=
  ⟨rfl, rfl, rfl, step_awaitingTransport rfl⟩

/-- Settles O34: both operations end stuck in the unanswered transaction. -/
theorem silentTransportStopsForEver : Obligations.SilentTransportStopsForEver := fun s _ hok hsilent =>
  ⟨fun hn => ⟨_, exec_init_silent hn hok hsilent, s.hungAfter_stuck ..⟩,
    fun hn => ⟨_, exec_refresh_silent hn hok hsilent, s.hungAfter_stuck ..⟩⟩

end Sys2Proof.Machine
end
